-- ==== Sys2Proof/Word.lean ====
section
/-! DEFINITION. The machine's fixed widths (spec 00_scope.md R9) and their plainest names. -/

namespace Sys2Proof

/-- A register, a buffer word, a Well512 state word: 32 bits (R9). -/
abbrev Word := BitVec 32

/-- ARG0, ARG1, RES, a latched operand: 64 bits (R22). -/
abbrev DWord := BitVec 64

/-- One byte of the buffer's byte view or of host memory (R61, R62). -/
abbrev Byte := BitVec 8

/-- A binary64 value, handled as its bit pattern (R15). -/
abbrev F64 := BitVec 64

/-- A binary32 value, handled as its bit pattern (R15). -/
abbrev F32 := BitVec 32

end Sys2Proof
end

