-- ==== Sys2Proof/Config.lean ====
section
/-! DEFINITION. The build-time parameters of an instance (spec 00_scope.md R7) and the functions the spec leaves open
(R7, R207; D28, D36). Parameters are fixed for an instance: no step changes them. -/

namespace Sys2Proof

/-- PROVIDER_KIND: what fills the buffer on a refill (R7, D13). -/
inductive ProviderKind where
  /-- Code 0: the internal Well512 unit. -/
  | well512
  /-- Code 1: an external agent that writes words to FILL_DATA. -/
  | extWord
  /-- Code 2: an external agent that writes bytes to FILL_DATA. -/
  | extByte
  deriving DecidableEq, Repr

/-- DIGEST512: which 512-bit digest W512_SEED64 uses (R7, D28). -/
inductive DigestKind where
  /-- The default: SHA-512 (GK1). -/
  | sha512
  /-- Any other digest, told apart by a number; an instance built with it is `Config.otherDigest` of that number. -/
  | other (id : Nat)
  deriving DecidableEq, Repr

/-- The finite parameters of an instance (R7). The functions among R7's parameters are the opaque constants below. -/
structure Config where
  /-- BUF_BYTES, the buffer size in bytes. -/
  bufBytes : Nat
  /-- PROVIDER_KIND. -/
  provider : ProviderKind
  /-- BASE, the platform address of the register block. -/
  base     : Nat
  /-- DIGEST512. -/
  digest   : DigestKind
  deriving DecidableEq, Repr

/-- N = BUF_BYTES / 4, the number of buffer words (R7). -/
def Config.words (c : Config) : Nat := c.bufBytes / 4

/-- FP_LN (R7, R207): an open parameter, so nothing is known of it (log entry 8). -/
opaque Config.fpLn : F64 → F64

/-- FP_SIN (R7, R207): an open parameter (log entry 8). -/
opaque Config.fpSin : F64 → F64

/-- FP_COS (R7, R207): an open parameter (log entry 8). -/
opaque Config.fpCos : F64 → F64

/-- A DIGEST512 other than the default: 8 bytes to 64 bytes, otherwise unknown (R7, D28; log entry 9). -/
opaque Config.otherDigest : Nat → Vector Byte 8 → Vector Byte 64

end Sys2Proof
end

