-- ==== Sys2Proof/Syntax.lean ====
section
/-! DEFINITION. The 37 commands of the opcode map (spec 30_encoding.md R82), one constructor per row, and the raw
command word's two fields (R80). A command word carries no operand: operands are the latched ARG0 and ARG1 (R83), so
no constructor has an argument. -/

namespace Sys2Proof

/-- One constructor per row of R82. Each docstring gives the mnemonic and the rule of its meaning. -/
inductive Instr where
  /-- INT32: 40_word_engine.md R116. -/
  | int32
  /-- UINT32: 40_word_engine.md R117. -/
  | uint32
  /-- INT64: 40_word_engine.md R118. -/
  | int64
  /-- UINT64: 40_word_engine.md R119. -/
  | uint64
  /-- BOOL: 40_word_engine.md R120. -/
  | bool
  /-- BYTE: 40_word_engine.md R121. -/
  | byte
  /-- UINT16: 40_word_engine.md R122. -/
  | uint16
  /-- BYTES: 40_word_engine.md R123. -/
  | bytes
  /-- REFILL: 40_word_engine.md R124. -/
  | refill
  /-- W512_SEED64: 41_well512.md R161. -/
  | w512Seed64
  /-- W512_LOAD: 41_well512.md R162. -/
  | w512Load
  /-- W512_NEXT: 41_well512.md R163. -/
  | w512Next
  /-- SMPL32: 42_sampler.md R173. -/
  | smpl32
  /-- SMPL64: 42_sampler.md R174. -/
  | smpl64
  /-- RNDCNT.U32: 42_sampler.md R175. -/
  | rndcntU32
  /-- RNDCNT.S32: 42_sampler.md R176. -/
  | rndcntS32
  /-- RNDCNT.U64: 42_sampler.md R177. -/
  | rndcntU64
  /-- RNDCNT.S64: 42_sampler.md R178. -/
  | rndcntS64
  /-- RNDRNG.U32: 42_sampler.md R179. -/
  | rndrngU32
  /-- RNDRNG.S32: 42_sampler.md R180. -/
  | rndrngS32
  /-- RNDRNG.U64: 42_sampler.md R181. -/
  | rndrngU64
  /-- RNDRNG.S64: 42_sampler.md R182. -/
  | rndrngS64
  /-- RNDSC.U32: 42_sampler.md R183. -/
  | rndscU32
  /-- RNDSC.S32: 42_sampler.md R184. -/
  | rndscS32
  /-- RNDSC.U64: 42_sampler.md R185. -/
  | rndscU64
  /-- RNDSC.S64: 42_sampler.md R186. -/
  | rndscS64
  /-- UDBL: 43_distributions.md R202. -/
  | udbl
  /-- UFLT: 43_distributions.md R204. -/
  | uflt
  /-- UDBL_RANGE: 43_distributions.md R205. -/
  | udblRange
  /-- UDBL_SLEN: 43_distributions.md R206. -/
  | udblSlen
  /-- GAUSS: 43_distributions.md R211. -/
  | gauss
  /-- GAUSS_MS: 43_distributions.md R213. -/
  | gaussMs
  /-- EXPO: 43_distributions.md R219. -/
  | expo
  /-- EXPO_MEAN: 43_distributions.md R220. -/
  | expoMean
  /-- EXPO_RATE: 43_distributions.md R221. -/
  | expoRate
  /-- BINOM: 43_distributions.md R223. -/
  | binom
  /-- POISSON: 43_distributions.md R225. -/
  | poisson
  deriving DecidableEq, Repr

/-- The one command format (R80): OP in bits 7:0, RSVD in bits 31:8. -/
structure CmdWord where
  /-- OP, bits 7:0. -/
  op   : BitVec 8
  /-- RSVD, bits 31:8; must be 0. -/
  rsvd : BitVec 24
  deriving DecidableEq, Repr

end Sys2Proof
end

