-- ==== Sys2Proof/WellFormed.lean ====
section
/-! DEFINITION. What is an instance of this hardware (spec 00_scope.md R7, R8) and what is a command word of it
(30_encoding.md R80, R87). -/

namespace Sys2Proof

/-- R8: BUF_BYTES ≥ 8, a multiple of 4 and at most 2^31; anything else is not an instance. -/
def Config.wellFormed (c : Config) : Bool :=
  decide (8 ≤ c.bufBytes) && decide (c.bufBytes % 4 = 0) && decide (c.bufBytes ≤ 2 ^ 31)

/-- R87: the opcodes that are not reserved, by ranges, as the reserved-encoding rule draws them. -/
def CmdWord.opDefined (c : CmdWord) : Bool :=
  let o := c.op.toNat
  decide (0x01 ≤ o ∧ o ≤ 0x09) || decide (0x10 ≤ o ∧ o ≤ 0x12) || decide (0x20 ≤ o ∧ o ≤ 0x2D) ||
    decide (0x30 ≤ o ∧ o ≤ 0x3A)

/-- R80, R87: a command word is well formed when RSVD is zero and its opcode is not reserved. -/
def CmdWord.wellFormed (c : CmdWord) : Bool := decide (c.rsvd = 0) && c.opDefined

/-- A command has no operand field (R80, R83), so every constructor of `Instr` is well formed. -/
def Instr.wellFormed : Instr → Bool := fun _ => true

end Sys2Proof
end

