-- ==== Sys2Proof/Decode.lean ====
section
/-! DEFINITION. Decoding a command word (spec 30_encoding.md R80 to R82, R87) and, after it, the encoder. Decoding is
total on every 32-bit value and refuses by name. -/

namespace Sys2Proof

/-- Why a command word is not a command (R81, R87). Both are reported as STATUS.ERR = ILLEGAL. -/
inductive DecodeError where
  /-- CMD[31:8] is not zero. -/
  | reservedBits
  /-- CMD[7:0] is not an opcode of R82. -/
  | reservedOpcode
  deriving DecidableEq, Repr

/-- The fields of a command word (R80). -/
def CmdWord.ofWord (w : Word) : CmdWord := ⟨w.extractLsb' 0 8, w.extractLsb' 8 24⟩

/-- The command word with these fields (R80). -/
def CmdWord.toWord (c : CmdWord) : Word := c.rsvd ++ c.op

/-- R82: the rows of the word engine. -/
def engineOpcodes : List (BitVec 8 × Instr) :=
  [(0x01#8, .int32), (0x02#8, .uint32), (0x03#8, .int64), (0x04#8, .uint64), (0x05#8, .bool), (0x06#8, .byte),
   (0x07#8, .uint16), (0x08#8, .bytes), (0x09#8, .refill)]

/-- R82: the rows of the Well512 unit. -/
def well512Opcodes : List (BitVec 8 × Instr) :=
  [(0x10#8, .w512Seed64), (0x11#8, .w512Load), (0x12#8, .w512Next)]

/-- R82: the rows of the rejection sampler. -/
def samplerOpcodes : List (BitVec 8 × Instr) :=
  [(0x20#8, .smpl32), (0x21#8, .smpl64), (0x22#8, .rndcntU32), (0x23#8, .rndcntS32), (0x24#8, .rndcntU64),
   (0x25#8, .rndcntS64), (0x26#8, .rndrngU32), (0x27#8, .rndrngS32), (0x28#8, .rndrngU64), (0x29#8, .rndrngS64),
   (0x2A#8, .rndscU32), (0x2B#8, .rndscS32), (0x2C#8, .rndscU64), (0x2D#8, .rndscS64)]

/-- R82: the rows of the distribution layer. -/
def distributionOpcodes : List (BitVec 8 × Instr) :=
  [(0x30#8, .udbl), (0x31#8, .uflt), (0x32#8, .udblRange), (0x33#8, .udblSlen), (0x34#8, .gauss),
   (0x35#8, .gaussMs), (0x36#8, .expo), (0x37#8, .expoMean), (0x38#8, .expoRate), (0x39#8, .binom),
   (0x3A#8, .poisson)]

/-- The opcode map, one row per command (R82). -/
def opcodeTable : List (BitVec 8 × Instr) :=
  engineOpcodes ++ well512Opcodes ++ samplerOpcodes ++ distributionOpcodes

/-- The row of a table whose opcode is `op`. -/
def lookupOpcode (op : BitVec 8) : List (BitVec 8 × Instr) → Option Instr
  | [] => none
  | (o, i) :: rest => if o = op then some i else lookupOpcode op rest

/-- R81: a nonzero RSVD is refused first, then an opcode outside R82. -/
def CmdWord.decode (c : CmdWord) : Except DecodeError Instr :=
  if c.rsvd ≠ 0 then .error .reservedBits
  else
    match lookupOpcode c.op opcodeTable with
    | some i => .ok i
    | none => .error .reservedOpcode

/-- Decoding a value written to CMD (R81). -/
def decode (w : Word) : Except DecodeError Instr := (CmdWord.ofWord w).decode

/-- What this decoder reads from an instruction numbered as the opcode table numbers it: one 32-bit word, so every bit
above bit 31 must be zero (R89). -/
def decodeTableWord (nbits w : Nat) : Option Instr :=
  let v := w % 2 ^ nbits
  if v < 2 ^ 32 then (decode (BitVec.ofNat 32 v)).toOption else none

/-- The opcode of a command (R82), written out apart from the decoder's table. -/
def opcode : Instr → BitVec 8
  | .int32 => 0x01#8
  | .uint32 => 0x02#8
  | .int64 => 0x03#8
  | .uint64 => 0x04#8
  | .bool => 0x05#8
  | .byte => 0x06#8
  | .uint16 => 0x07#8
  | .bytes => 0x08#8
  | .refill => 0x09#8
  | .w512Seed64 => 0x10#8
  | .w512Load => 0x11#8
  | .w512Next => 0x12#8
  | .smpl32 => 0x20#8
  | .smpl64 => 0x21#8
  | .rndcntU32 => 0x22#8
  | .rndcntS32 => 0x23#8
  | .rndcntU64 => 0x24#8
  | .rndcntS64 => 0x25#8
  | .rndrngU32 => 0x26#8
  | .rndrngS32 => 0x27#8
  | .rndrngU64 => 0x28#8
  | .rndrngS64 => 0x29#8
  | .rndscU32 => 0x2A#8
  | .rndscS32 => 0x2B#8
  | .rndscU64 => 0x2C#8
  | .rndscS64 => 0x2D#8
  | .udbl => 0x30#8
  | .uflt => 0x31#8
  | .udblRange => 0x32#8
  | .udblSlen => 0x33#8
  | .gauss => 0x34#8
  | .gaussMs => 0x35#8
  | .expo => 0x36#8
  | .expoMean => 0x37#8
  | .expoRate => 0x38#8
  | .binom => 0x39#8
  | .poisson => 0x3A#8

/-- The command word of a command (R80, R82): the opcode, with RSVD zero. -/
def encode (i : Instr) : Word := CmdWord.toWord ⟨opcode i, 0⟩

end Sys2Proof
end

