-- ==== Sys2Proof/Machine/State.lean ====
section
/-! DEFINITION. The state of one instance (spec 10_state.md R20 to R52), the reasons a step can stop, and the reset
state (R52, R270). State is plain data: the suspended rest of a command body is a `Frame`, never a function. -/

namespace Sys2Proof.Machine

/-- STATUS.ERR (R36). Codes 6 to 15 are never produced, so they have no constructor. -/
inductive ErrCode where
  | none
  | argRange
  | reentered
  | unsupported
  | illegal
  | unseeded
  deriving DecidableEq, Repr

/-- The integer types of the sampler's operands and results (30_encoding.md R84, R86; 42_sampler.md section 2). -/
inductive IntType where
  | u32
  | s32
  | u64
  | s64
  deriving DecidableEq, Repr

/-- The three sub-word caches (R27 to R29). -/
inductive Cache where
  | bit
  | byte
  | short
  deriving DecidableEq, Repr

/-- The width of one raw draw of the sampler (42_sampler.md R171). -/
inductive DrawWidth where
  | w8
  | w16
  | w32
  | w64
  deriving DecidableEq, Repr

/-- The locals of SampleMax once it has chosen its width (42_sampler.md R171). -/
structure SamplePlan where
  /-- The chosen raw-draw width w. -/
  width  : DrawWidth
  /-- usable: a draw is accepted when it is below this. -/
  usable : Nat
  /-- count: the accepted draw is reduced modulo this. -/
  count  : Nat
  deriving DecidableEq, Repr

/-- What GAUSS and GAUSS_MS do with the deviate (43_distributions.md R211, R213). -/
inductive GaussPost where
  | plain
  | meanStd (mean stddev : F64)
  deriving DecidableEq, Repr

/-- What EXPO, EXPO_MEAN and EXPO_RATE do with the deviate (43_distributions.md R219 to R221). -/
inductive ExpoPost where
  | plain
  | mean (m : F64)
  | rate (r : F64)
  deriving DecidableEq, Repr

/-- The rest of a command body waiting at a `Refill()`, with its local values (R21, R34; 40_word_engine.md R101). A
frame stands for the body from the draw that needs the words onward: after a refill cursor = N, so that draw goes on
with the fresh buffer (log entry 7). -/
inductive Frame where
  /-- INT32, at its draw (R116). -/
  | int32
  /-- UINT32, at its draw (R117). -/
  | uint32
  /-- INT64, at its draw (R118). -/
  | int64
  /-- UINT64, at its draw (R119). -/
  | uint64
  /-- BOOL, at the draw of a fresh word (R120). -/
  | bool
  /-- BYTE, at the draw of a fresh word (R121). -/
  | byte
  /-- UINT16, at the draw of a fresh word (R122). -/
  | uint16
  /-- BYTES, after a chunk: `dst` and `count` are the advanced locals (R123). -/
  | bytes (dst count : Nat)
  /-- REFILL: only the return is left (R124). -/
  | refill
  /-- A sampler command in its rejection loop: result = start + accepted draw mod count, placed as type `t`
  (42_sampler.md R171 to R186). -/
  | sample (plan : SamplePlan) (start : Int) (t : IntType)
  /-- UDBL, at its draw (43_distributions.md R202). -/
  | udbl
  /-- UFLT, at its draw (R204). -/
  | uflt
  /-- UDBL_RANGE in its retry loop, with its locals (R205). -/
  | udblRange (start len stop : F64)
  /-- UDBL_SLEN, at its draw (R206). -/
  | udblSlen (start len : F64)
  /-- Gauss() at its first draw, u (R210). -/
  | gaussU (post : GaussPost)
  /-- Gauss() at its second draw, v, with u drawn (R210). -/
  | gaussV (u : F64) (post : GaussPost)
  /-- Expo() at its draw (R218). -/
  | expo (post : ExpoPost)
  /-- BINOM with `left` trials to make and `k` successes so far (R223). -/
  | binom (left k : Nat) (p : F64)
  deriving DecidableEq, Repr

/-- cont (R21): what plays a program counter's part. -/
inductive Cont where
  | idle
  | suspended (k : Frame)
  deriving DecidableEq, Repr

/-- The width of a bus access. Only 32-bit accesses are part of the interface (R48). -/
inductive AccessWidth where
  | byte
  | half
  | word
  deriving DecidableEq, Repr

/-- One thing the outside world does to the machine. Host and provider accesses are the same events: the engine
cannot tell the two apart (00_scope.md R10). -/
inductive Event where
  /-- A write of `v` at platform address `addr` (RegWrite when it is a word access of the block). -/
  | write (width : AccessWidth) (addr : Nat) (v : Word)
  /-- A read at platform address `addr` (RegRead when it is a word access of the block). -/
  | read (width : AccessWidth) (addr : Nat)
  /-- A reset (70_reset_and_hazards.md R270, R271). -/
  | reset
  /-- The host stores a byte in host memory, outside the block (20_memory.md R60; log entry 12). -/
  | hostStore (addr : BitVec 32) (v : Byte)
  deriving DecidableEq, Repr

/-- The complete state of an instance (R20), with the instance's parameters beside it and the outside world's pending
accesses. -/
structure State where
  /-- The parameters of the instance (00_scope.md R7): not state, constant through every step (log entry 3). -/
  cfg        : Config
  /-- buffer[0..N−1] (R23). -/
  buffer     : List Word
  /-- cursor: the count of unconsumed words, in [0, N] (R24). -/
  cursor     : Nat
  /-- refilling: 1 exactly while a command is suspended (R25). -/
  refilling  : Bool
  /-- fill_count: FILL_DATA units written in the current refill (R26). -/
  fillCount  : Nat
  /-- bitCache (R27). -/
  bitCache   : Word
  /-- byteCache (R28). -/
  byteCache  : Word
  /-- shortCache (R29). -/
  shortCache : Word
  /-- gaussSpare (R30). -/
  gaussSpare : F64
  /-- wstate[0..15] (R31). -/
  wstate     : Vector Word 16
  /-- windex (R31). -/
  windex     : Fin 16
  /-- seeded (R31). -/
  seeded     : Bool
  /-- WSTAGE[0..15] (R32, R47). -/
  wstage     : Vector Word 16
  /-- cmd_op (R34). -/
  cmdOp      : BitVec 8
  /-- op0: ARG0 as latched at the CMD write (R34). -/
  op0        : DWord
  /-- op1: ARG1 as latched at the CMD write (R34). -/
  op1        : DWord
  /-- cont (R21). -/
  cont       : Cont
  /-- ARG0 (R22, R42). -/
  arg0       : DWord
  /-- ARG1 (R22, R42). -/
  arg1       : DWord
  /-- RES (R22, R43). -/
  res        : DWord
  /-- STATUS.DONE (R35). -/
  done       : Bool
  /-- STATUS.ERR (R35, R36). -/
  err        : ErrCode
  /-- refills (R46). -/
  refills    : Word
  /-- HM, host memory (20_memory.md R62): the bytes written so far, by rising address. -/
  hm         : List Host.Cell
  /-- The model's own field: accesses the outside world has issued and the machine has not yet performed, oldest first
  (log entry 1). -/
  bus        : List Event
  /-- The model's own field: the value the port returned for the last register read (log entry 2). -/
  rdata      : Word
  deriving DecidableEq, Repr

/-- Why the machine stops with no next state. -/
inductive Fault where
  /-- Raised by a rejection loop (42_sampler.md R171) or an exclusive-bound retry (43_distributions.md R205) that never
  accepts a draw, so that its step does not end (R188, R285; U11). SAFE: it is raised only after more iterations than
  the loop has distinct states, so only where the loop runs for ever (log entry 6). -/
  | diverges
  deriving DecidableEq, Repr

/-- Why the model gives a step no meaning. -/
inductive Refusal where
  /-- Raised by exec's arm of an instruction that has no meaning yet. SAFE: the model stops. -/
  | notModelled (mnemonic : String)
  /-- Raised by step when the parameters are not those of an instance (00_scope.md R8, U9). SAFE: no such hardware. -/
  | notAnInstance
  /-- Raised by a register access that is not 32 bits wide (R48, U8). SAFE: it is outside the interface. -/
  | accessNotWord
  /-- Raised by a register access at an offset that is not word-aligned (R48, U8). SAFE: it is outside the interface. -/
  | accessMisaligned
  deriving DecidableEq, Repr

/-- The three outcomes of a step of this machine. -/
abbrev Answer := Host.Outcome State Fault Refusal

/-- The canonical quiet NaN, which is also the absent spare (R30; 43_distributions.md R208). -/
def canonicalNaN : F64 := 0x7FF8000000000000#64

/-- The state after reset of an instance with parameters `c` (R52, R270). The spec leaves buffer, wstate, cmd_op, op0
and op1 unspecified; zero stands there (log entry 4). -/
def State.resetOf (c : Config) : State where
  cfg        := c
  buffer     := List.replicate c.words 0
  cursor     := 0
  refilling  := false
  fillCount  := 0
  bitCache   := 0
  byteCache  := 0
  shortCache := 0
  gaussSpare := canonicalNaN
  wstate     := Vector.replicate 16 0
  windex     := 0
  seeded     := false
  wstage     := Vector.replicate 16 0
  cmdOp      := 0
  op0        := 0
  op1        := 0
  cont       := .idle
  arg0       := 0
  arg1       := 0
  res        := 0
  done       := false
  err        := .none
  refills    := 0
  hm         := []
  bus        := []
  rdata      := 0

/-- The parameters of the instance whose reset state `State.reset` is: N = 2 and an external word provider, the
configuration of the spec's own examples (40_word_engine.md section 4); BASE 0 and the default digest (log entry 3). -/
def defaultConfig : Config := ⟨8, .extWord, 0, .sha512⟩

/-- The machine right after reset (R52, R270). -/
def State.reset : State := State.resetOf defaultConfig

end Sys2Proof.Machine
end

