-- ==== Sys2Proof/Machine/Float.lean ====
section
/-! DEFINITION. IEEE 754 arithmetic on bit patterns (spec 00_scope.md R15; 43_distributions.md R200): binary64 add,
subtract, multiply, divide and square root, and the binary32 packing of UFLT, each computed exactly on Nat or Int and
rounded once, to nearest with ties to even. The spec takes the exact results from the standard; this file writes the
standard out (log entry 10). -/

namespace Sys2Proof.Machine

/-- An IEEE 754 binary format: fraction bits and exponent bits. -/
structure FloatFormat where
  mant : Nat
  expo : Nat
  deriving DecidableEq, Repr

/-- binary64. -/
def binary64 : FloatFormat := ⟨52, 11⟩

/-- binary32. -/
def binary32 : FloatFormat := ⟨23, 8⟩

/-- The exponent of the least subnormal: −1074 for binary64, −149 for binary32. -/
def FloatFormat.minExp (f : FloatFormat) : Int := 2 - 2 ^ (f.expo - 1) - f.mant

/-- The magnitude bits of infinity; every finite magnitude has smaller bits. -/
def FloatFormat.infBits (f : FloatFormat) : Nat := (2 ^ f.expo - 1) * 2 ^ f.mant

/-- `m / 2^d` rounded to an integer, to nearest with ties to even. `sticky` says that the number to round lies strictly
between `m` and `m + 1`, not at `m`. -/
def roundShift (m d : Nat) (sticky : Bool) : Nat :=
  let q := m / 2 ^ d
  let r := 2 * (m % 2 ^ d) + (if sticky then 1 else 0)
  if 2 ^ d < r ∨ (r = 2 ^ d ∧ q % 2 = 1) then q + 1 else q

/-- The magnitude bits of `m * 2^e` (or, with `sticky`, of a number strictly between it and `(m + 1) * 2^e`) rounded to
the format: to nearest with ties to even, subnormals kept, overflow to infinity (R200 items 2, 4, 5). -/
def FloatFormat.round (f : FloatFormat) (m : Nat) (e : Int) (sticky : Bool) : Nat :=
  if m = 0 then 0
  else
    let q : Int := max ((Nat.log2 m : Int) + e - f.mant) f.minExp
    let n := if q ≤ e then m * 2 ^ (e - q).toNat else roundShift m (q - e).toNat sticky
    min (n + (q - f.minExp).toNat * 2 ^ f.mant) f.infBits

/-- Sign bit of a binary64 pattern. -/
def fsign (x : F64) : Bool := x.getLsbD 63

/-- The exponent field. -/
def fexp (x : F64) : Nat := x.toNat / 2 ^ 52 % 2 ^ 11

/-- The fraction field. -/
def ffrac (x : F64) : Nat := x.toNat % 2 ^ 52

/-- isNaN (R15). -/
def isNaN (x : F64) : Bool := decide (fexp x = 2047) && decide (ffrac x ≠ 0)

/-- Infinity of either sign. -/
def isInf (x : F64) : Bool := decide (fexp x = 2047) && decide (ffrac x = 0)

/-- isFinite (R15). -/
def isFinite (x : F64) : Bool := decide (fexp x ≠ 2047)

/-- The integer significand of a finite pattern: its value is ± fmant · 2^fscale. -/
def fmant (x : F64) : Nat := if fexp x = 0 then ffrac x else ffrac x + 2 ^ 52

/-- The exponent that goes with `fmant`. -/
def fscale (x : F64) : Int := (max (fexp x) 1 : Nat) - 1075

/-- A binary64 pattern from a sign and magnitude bits. -/
def fpack (sign : Bool) (mag : Nat) : F64 := BitVec.ofNat 64 ((if sign then 2 ^ 63 else 0) + mag)

/-- Infinity of a given sign. -/
def finf (sign : Bool) : F64 := fpack sign (2047 * 2 ^ 52)

/-- A value to be written to RES or to gaussSpare: any NaN becomes the canonical quiet NaN (R208, D53). -/
def canonical (x : F64) : F64 := if isNaN x then canonicalNaN else x

/-- Negation flips the sign bit and is exact (R200 item 7). -/
def fneg (x : F64) : F64 := x ^^^ 0x8000000000000000#64

/-- fmul (R15). -/
def fmul (a b : F64) : F64 :=
  let s := fsign a != fsign b
  if isNaN a || isNaN b then canonicalNaN
  else if isInf a || isInf b then
    if (isFinite a && fmant a == 0) || (isFinite b && fmant b == 0) then canonicalNaN else finf s
  else fpack s (binary64.round (fmant a * fmant b) (fscale a + fscale b) false)

/-- The signed integer `± m · 2^k`. -/
def signedScaled (sign : Bool) (m k : Nat) : Int := (if sign then -1 else 1) * ((m * 2 ^ k : Nat) : Int)

/-- fadd (R15): an exact zero sum is −0 only when both operands are −0. -/
def fadd (a b : F64) : F64 :=
  if isNaN a || isNaN b then canonicalNaN
  else if isInf a then (if isInf b && (fsign a != fsign b) then canonicalNaN else a)
  else if isInf b then b
  else
    let e := min (fscale a) (fscale b)
    let x := signedScaled (fsign a) (fmant a) (fscale a - e).toNat +
      signedScaled (fsign b) (fmant b) (fscale b - e).toNat
    if x = 0 then fpack (fsign a && fsign b) 0
    else fpack (decide (x < 0)) (binary64.round x.natAbs e false)

/-- fsub (R15). -/
def fsub (a b : F64) : F64 := fadd a (fneg b)

/-- fdiv (R15): the quotient to 110 further bits, its remainder as the sticky bit. -/
def fdiv (a b : F64) : F64 :=
  let s := fsign a != fsign b
  if isNaN a || isNaN b then canonicalNaN
  else if isInf a then (if isInf b then canonicalNaN else finf s)
  else if isInf b then fpack s 0
  else if fmant b = 0 then (if fmant a = 0 then canonicalNaN else finf s)
  else
    let n := fmant a * 2 ^ 110
    fpack s (binary64.round (n / fmant b) (fscale a - fscale b - 110) (decide (n % fmant b ≠ 0)))

/-- The integer square root of `n` for `n < 4 ^ k`, one bit of the root at a time. -/
def isqrt : Nat → Nat → Nat
  | 0, _ => 0
  | k + 1, n =>
    let t := 2 * isqrt k (n / 4) + 1
    if t * t ≤ n then t else t - 1

/-- Sqrt (R15): correctly rounded, the root to 60 further bits, its remainder as the sticky bit. -/
def fsqrt (a : F64) : F64 :=
  if isNaN a then canonicalNaN
  else if isFinite a && fmant a == 0 then a
  else if fsign a then canonicalNaN
  else if isInf a then a
  else
    let odd := fscale a % 2 = 1
    let n := (if odd then 2 * fmant a else fmant a) * 2 ^ 120
    let e := (if odd then fscale a - 1 else fscale a) / 2
    let r := isqrt 96 n
    fpack false (binary64.round r (e - 60) (decide (r * r ≠ n)))

/-- A number that orders the patterns that are not NaN as IEEE 754 orders their values; both zeros are 0. -/
def forder (x : F64) : Int := if fsign x then -((x.toNat % 2 ^ 63 : Nat) : Int) else (x.toNat % 2 ^ 63 : Nat)

/-- `<` (R15): false with a NaN. -/
def flt (a b : F64) : Bool := !isNaN a && !isNaN b && decide (forder a < forder b)

/-- `<=` (R15): false with a NaN. -/
def fle (a b : F64) : Bool := !isNaN a && !isNaN b && decide (forder a ≤ forder b)

/-- exact(x) × 2^−53 (43_distributions.md R201), for x below 2^53. -/
def uniformDoubleBits (x : Nat) : F64 := fpack false (binary64.round x (-53) false)

/-- x × 2^−24 in binary32 (43_distributions.md R203), for x below 2^24. -/
def uniformFloatBits (x : Nat) : F32 := BitVec.ofNat 32 (binary32.round x (-24) false)

/-- TWO_PI (43_distributions.md R207). -/
def twoPi : F64 := 0x401921FB54442D18#64

/-- −2.0. -/
def minusTwo : F64 := 0xC000000000000000#64

/-- The pair (g0, g1) of Gauss() from its two uniforms, for given Ln, Sin and Cos (43_distributions.md R210). -/
def boxMuller (ln sin cos : F64 → F64) (u v : F64) : F64 × F64 :=
  let radius := fsqrt (fmul minusTwo (ln u))
  let angle := fmul twoPi v
  (fmul radius (cos angle), fmul radius (sin angle))

/-- The value of a finite pattern. -/
def frat (x : F64) : ℚ := (if fsign x then -1 else 1) * fmant x * 2 ^ fscale x

end Sys2Proof.Machine
end

