-- ==== Sys2Proof/Machine/Operands.lean ====
section
/-! DEFINITION. Operand forms (spec 30_encoding.md R84), result placement (R86) and the integer types of the sampler
(42_sampler.md section 2). -/

namespace Sys2Proof.Machine

/-- u32(x) = x[31:0], unsigned (R84). -/
def opU32 (x : DWord) : Nat := (x.extractLsb' 0 32).toNat

/-- s32(x) = as_s32(x[31:0]) (R84). -/
def opS32 (x : DWord) : Int := (x.extractLsb' 0 32).toInt

/-- u64(x) = x (R84). -/
def opU64 (x : DWord) : Nat := x.toNat

/-- s64(x) = as_s64(x) (R84). -/
def opS64 (x : DWord) : Int := x.toInt

/-- f64(x): the binary64 value whose bit pattern is x (R84). -/
abbrev opF64 (x : DWord) : F64 := x

/-- The operand form of each integer type (R84), as an integer. -/
def IntType.read (t : IntType) (x : DWord) : Int :=
  match t with
  | .u32 => opU32 x
  | .s32 => opS32 x
  | .u64 => opU64 x
  | .s64 => opS64 x

/-- MIN_T (42_sampler.md section 2). -/
def IntType.least : IntType → Int
  | .u32 => 0
  | .s32 => -2 ^ 31
  | .u64 => 0
  | .s64 => -2 ^ 63

/-- MAX_T (42_sampler.md section 2). -/
def IntType.greatest : IntType → Int
  | .u32 => 2 ^ 32 - 1
  | .s32 => 2 ^ 31 - 1
  | .u64 => 2 ^ 64 - 1
  | .s64 => 2 ^ 63 - 1

/-- D, the width of the sampler's domain for the type (42_sampler.md R170). -/
def IntType.domain : IntType → Nat
  | .u32 => 32
  | .s32 => 32
  | .u64 => 64
  | .s64 => 64

/-- RES for a result of form u32, u16, u8, bit or u64: zext_64(r) (R86). -/
def placeUnsigned (r : Nat) : DWord := BitVec.ofNat 64 r

/-- RES for a result of form s32: sext_64(r) (R86). -/
def placeS32 (r : Int) : DWord := (BitVec.ofInt 32 r).signExtend 64

/-- RES for a result of form s64: the 64-bit two's-complement pattern of r (R86). -/
def placeS64 (r : Int) : DWord := BitVec.ofInt 64 r

/-- RES for a result of form f64: the bit pattern, a NaN as the canonical NaN (R86; 43_distributions.md R208). -/
def placeF64 (r : F64) : DWord := canonical r

/-- RES for a result of form f32: zext_64 of the bit pattern (R86). -/
def placeF32 (r : F32) : DWord := r.zeroExtend 64

/-- RES for an integer result of a sampler command (R86). -/
def IntType.place (t : IntType) (r : Int) : DWord :=
  match t with
  | .u32 => placeUnsigned r.toNat
  | .s32 => placeS32 r
  | .u64 => placeUnsigned r.toNat
  | .s64 => placeS64 r

end Sys2Proof.Machine
end

