-- ==== Sys2Proof/Machine/Flags.lean ====
section
/-! DEFINITION. The STATUS word and its fields (spec 10_state.md R35, R36, R49). There are no other flags. -/

namespace Sys2Proof.Machine

/-- The code of STATUS.ERR (R36). -/
def ErrCode.code : ErrCode → Nat
  | .none => 0
  | .argRange => 1
  | .reentered => 2
  | .unsupported => 3
  | .illegal => 4
  | .unseeded => 5

/-- One bit as a number. -/
def bitOf (b : Bool) : Nat := if b then 1 else 0

/-- STATUS.SPARE_PEND = not isNaN(gaussSpare) (R30, R35). -/
def State.sparePending (s : State) : Bool := !isNaN s.gaussSpare

/-- STATUS (R35): DONE bit 0, REFILLING bit 1, SEEDED bit 2, SPARE_PEND bit 3, ERR bits 11:8, all other bits 0. -/
def State.status (s : State) : Word :=
  BitVec.ofNat 32 (bitOf s.done + 2 * bitOf s.refilling + 4 * bitOf s.seeded + 8 * bitOf s.sparePending +
    256 * s.err.code)

end Sys2Proof.Machine
end

