-- ==== Sys2Proof/Machine/Well512.lean ====
section
/-! DEFINITION. The Well512 permutation unit's step and its use as a provider (spec 41_well512.md R150 to R153). -/

namespace Sys2Proof.Machine

/-- The unit's words and index (10_state.md R31). -/
structure Well where
  words : Vector Word 16
  index : Fin 16
  deriving DecidableEq, Repr

/-- The mask MTS writes (R151, R154). -/
def well512Mask : Word := 0xDA442D20#32

/-- W512Next() (R151): the word it returns and the unit after it. All shifts are on 32-bit words. -/
def w512Next (w : Well) : Word × Well :=
  let i := w.index
  let a := w.words.get i
  let c := w.words.get (i + 13)
  let b := a ^^^ c ^^^ (a <<< 16) ^^^ (c <<< 15)
  let c1 := w.words.get (i + 9)
  let c2 := c1 ^^^ (c1 >>> 11)
  let t := b ^^^ c2
  let d := t ^^^ ((t <<< 5) &&& well512Mask)
  let j := i + 15
  let a2 := (w.words.set i.val t).get j
  let r := a2 ^^^ b ^^^ d ^^^ (a2 <<< 2) ^^^ (b <<< 18) ^^^ (c2 <<< 28)
  (r, ⟨(w.words.set i.val t).set j.val r, j⟩)

/-- W512Generate (R153): the next `n` outputs in order, and the unit after them. -/
def w512Generate : Nat → Well → List Word × Well
  | 0, w => ([], w)
  | n + 1, w =>
    let r := w512Next w
    let rest := w512Generate n r.2
    (r.1 :: rest.1, rest.2)

end Sys2Proof.Machine
end

