-- ==== Sys2Proof/Machine/Digest.lean ====
section
/-! DEFINITION. DIGEST512 (spec 00_scope.md R7; 41_well512.md R158): SHA-512 of FIPS 180-4 for the one message length
the hardware hashes, 8 bytes (log entry 9), and the open digests of other instances. -/

namespace Sys2Proof.Machine

/-- SHA-512 round constants 0 to 9. -/
def sha512K0 : List DWord :=
  [0x428A2F98D728AE22#64, 0x7137449123EF65CD#64, 0xB5C0FBCFEC4D3B2F#64, 0xE9B5DBA58189DBBC#64,
   0x3956C25BF348B538#64, 0x59F111F1B605D019#64, 0x923F82A4AF194F9B#64, 0xAB1C5ED5DA6D8118#64,
   0xD807AA98A3030242#64, 0x12835B0145706FBE#64]

/-- SHA-512 round constants 10 to 19. -/
def sha512K1 : List DWord :=
  [0x243185BE4EE4B28C#64, 0x550C7DC3D5FFB4E2#64, 0x72BE5D74F27B896F#64, 0x80DEB1FE3B1696B1#64,
   0x9BDC06A725C71235#64, 0xC19BF174CF692694#64, 0xE49B69C19EF14AD2#64, 0xEFBE4786384F25E3#64,
   0x0FC19DC68B8CD5B5#64, 0x240CA1CC77AC9C65#64]

/-- SHA-512 round constants 20 to 29. -/
def sha512K2 : List DWord :=
  [0x2DE92C6F592B0275#64, 0x4A7484AA6EA6E483#64, 0x5CB0A9DCBD41FBD4#64, 0x76F988DA831153B5#64,
   0x983E5152EE66DFAB#64, 0xA831C66D2DB43210#64, 0xB00327C898FB213F#64, 0xBF597FC7BEEF0EE4#64,
   0xC6E00BF33DA88FC2#64, 0xD5A79147930AA725#64]

/-- SHA-512 round constants 30 to 39. -/
def sha512K3 : List DWord :=
  [0x06CA6351E003826F#64, 0x142929670A0E6E70#64, 0x27B70A8546D22FFC#64, 0x2E1B21385C26C926#64,
   0x4D2C6DFC5AC42AED#64, 0x53380D139D95B3DF#64, 0x650A73548BAF63DE#64, 0x766A0ABB3C77B2A8#64,
   0x81C2C92E47EDAEE6#64, 0x92722C851482353B#64]

/-- SHA-512 round constants 40 to 49. -/
def sha512K4 : List DWord :=
  [0xA2BFE8A14CF10364#64, 0xA81A664BBC423001#64, 0xC24B8B70D0F89791#64, 0xC76C51A30654BE30#64,
   0xD192E819D6EF5218#64, 0xD69906245565A910#64, 0xF40E35855771202A#64, 0x106AA07032BBD1B8#64,
   0x19A4C116B8D2D0C8#64, 0x1E376C085141AB53#64]

/-- SHA-512 round constants 50 to 59. -/
def sha512K5 : List DWord :=
  [0x2748774CDF8EEB99#64, 0x34B0BCB5E19B48A8#64, 0x391C0CB3C5C95A63#64, 0x4ED8AA4AE3418ACB#64,
   0x5B9CCA4F7763E373#64, 0x682E6FF3D6B2B8A3#64, 0x748F82EE5DEFB2FC#64, 0x78A5636F43172F60#64,
   0x84C87814A1F0AB72#64, 0x8CC702081A6439EC#64]

/-- SHA-512 round constants 60 to 69. -/
def sha512K6 : List DWord :=
  [0x90BEFFFA23631E28#64, 0xA4506CEBDE82BDE9#64, 0xBEF9A3F7B2C67915#64, 0xC67178F2E372532B#64,
   0xCA273ECEEA26619C#64, 0xD186B8C721C0C207#64, 0xEADA7DD6CDE0EB1E#64, 0xF57D4F7FEE6ED178#64,
   0x06F067AA72176FBA#64, 0x0A637DC5A2C898A6#64]

/-- SHA-512 round constants 70 to 79. -/
def sha512K7 : List DWord :=
  [0x113F9804BEF90DAE#64, 0x1B710B35131C471B#64, 0x28DB77F523047D84#64, 0x32CAAB7B40C72493#64,
   0x3C9EBE0A15C9BEBC#64, 0x431D67C49C100D4C#64, 0x4CC5D4BECB3E42B6#64, 0x597F299CFC657E2A#64,
   0x5FCB6FAB3AD6FAEC#64, 0x6C44198C4A475817#64]

/-- The 80 SHA-512 round constants. -/
def sha512K : List DWord :=
  sha512K0 ++ sha512K1 ++ sha512K2 ++ sha512K3 ++ sha512K4 ++ sha512K5 ++ sha512K6 ++ sha512K7

/-- The eight working words of SHA-512. -/
structure ShaWords where
  a : DWord
  b : DWord
  c : DWord
  d : DWord
  e : DWord
  f : DWord
  g : DWord
  h : DWord
  deriving DecidableEq, Repr

/-- The initial hash value. -/
def sha512Init : ShaWords :=
  ⟨0x6A09E667F3BCC908#64, 0xBB67AE8584CAA73B#64, 0x3C6EF372FE94F82B#64, 0xA54FF53A5F1D36F1#64,
   0x510E527FADE682D1#64, 0x9B05688C2B3E6C1F#64, 0x1F83D9ABFB41BD6B#64, 0x5BE0CD19137E2179#64⟩

/-- Σ0, Σ1, σ0, σ1 share one form: two rotations and a rotation or a shift. -/
def sha512Sigma0 (x : DWord) : DWord := x.rotateRight 28 ^^^ x.rotateRight 34 ^^^ x.rotateRight 39
/-- Σ1. -/
def sha512Sigma1 (x : DWord) : DWord := x.rotateRight 14 ^^^ x.rotateRight 18 ^^^ x.rotateRight 41
/-- σ0. -/
def sha512Small0 (x : DWord) : DWord := x.rotateRight 1 ^^^ x.rotateRight 8 ^^^ (x >>> 7)
/-- σ1. -/
def sha512Small1 (x : DWord) : DWord := x.rotateRight 19 ^^^ x.rotateRight 61 ^^^ (x >>> 6)

/-- One round with round constant `k` and schedule word `w`. -/
def sha512Round (s : ShaWords) (k w : DWord) : ShaWords :=
  let t1 := s.h + sha512Sigma1 s.e + ((s.e &&& s.f) ^^^ (~~~s.e &&& s.g)) + k + w
  let t2 := sha512Sigma0 s.a + ((s.a &&& s.b) ^^^ (s.a &&& s.c) ^^^ (s.b &&& s.c))
  ⟨t1 + t2, s.a, s.b, s.c, s.d + t1, s.e, s.f, s.g⟩

/-- The schedule word that follows a window of the last sixteen. -/
def sha512Next (win : List DWord) : DWord :=
  sha512Small1 (win.getD 14 0) + win.getD 9 0 + sha512Small0 (win.getD 1 0) + win.getD 0 0

/-- The rounds for a list of round constants, over a window of sixteen schedule words. -/
def sha512Rounds : List DWord → List DWord → ShaWords → ShaWords
  | [], _, s => s
  | k :: ks, win, s => sha512Rounds ks (win.tail ++ [sha512Next win]) (sha512Round s k (win.getD 0 0))

/-- The first schedule word of an 8-byte message: its bytes, the first in the top bits. -/
def sha512FirstWord (m : Vector Byte 8) : DWord :=
  m.get 0 ++ m.get 1 ++ m.get 2 ++ m.get 3 ++ m.get 4 ++ m.get 5 ++ m.get 6 ++ m.get 7

/-- The single padded block of an 8-byte message: the message, a one bit, zeros and the length 64. -/
def sha512Block (m : Vector Byte 8) : List DWord :=
  sha512FirstWord m :: 0x8000000000000000#64 :: (List.replicate 13 0#64 ++ [64#64])

/-- The hash words of an 8-byte message. -/
def sha512Words (m : Vector Byte 8) : List DWord :=
  let i := sha512Init
  let s := sha512Rounds sha512K (sha512Block m) i
  [i.a + s.a, i.b + s.b, i.c + s.c, i.d + s.d, i.e + s.e, i.f + s.f, i.g + s.g, i.h + s.h]

/-- SHA-512 of an 8-byte message: byte 8k + j of the digest is byte j of word k, most significant first. -/
def sha512 (m : Vector Byte 8) : Vector Byte 64 :=
  let ws := sha512Words m
  Vector.ofFn fun k : Fin 64 => (ws.getD (k.val / 8) 0).extractLsb' (56 - 8 * (k.val % 8)) 8

/-- DIGEST512 of the instance (R7, D28). -/
def digest512 (k : DigestKind) (m : Vector Byte 8) : Vector Byte 64 :=
  match k with
  | .sha512 => sha512 m
  | .other id => Config.otherDigest id m

/-- The seed's 8 bytes, little-endian (R158, D27). -/
def seedBytes (seed : DWord) : Vector Byte 8 := Vector.ofFn fun j : Fin 8 => seed.extractLsb' (8 * j.val) 8

/-- Word k of the state: bytes 4k to 4k + 3 of the digest, little-endian (R158). -/
def digestWord (h : Vector Byte 64) (k : Fin 16) : Word :=
  h[4 * k.val + 3] ++ h[4 * k.val + 2] ++ h[4 * k.val + 1] ++ h[4 * k.val]

/-- The words Seed64ToState gives wstate (R158). -/
def seedWords (k : DigestKind) (seed : DWord) : Vector Word 16 :=
  let h := digest512 k (seedBytes seed)
  Vector.ofFn (digestWord h)

end Sys2Proof.Machine
end

