-- ==== Sys2Proof/Machine/Ops.lean ====
section
/-! DEFINITION. The shared operations of the machine: host memory and the buffer's byte view (spec 20_memory.md),
completion, suspension and the abort procedure (40_word_engine.md R100 to R102; 60_exceptions.md R243), the refill
(R103) and the draw bodies (R110 to R115). -/

namespace Sys2Proof.Machine

/-! ## Host memory (20_memory.md R62) -/

/-- What an address of host memory that nothing has stored to reads as: no value (log entry 5). -/
def Memory.unlisted : Option Byte := none

/-- The byte at an address of host memory. -/
def Memory.read : List Host.Cell → Nat → Option Byte
  | [], _ => Memory.unlisted
  | (b, v) :: m, a => if a = b then some v else Memory.read m a

/-- MemWrite(addr, 1, v) (R62), keeping the cells by rising address. -/
def Memory.write : List Host.Cell → Nat → Byte → List Host.Cell
  | [], a, v => [(a, v)]
  | (b, w) :: m, a, v =>
    if a < b then (a, v) :: (b, w) :: m
    else if a = b then (a, v) :: m
    else (b, w) :: Memory.write m a v

/-- The bytes of a list at ascending addresses from `a` (40_word_engine.md R123). -/
def Memory.writeList : List Host.Cell → Nat → List Byte → List Host.Cell
  | m, _, [] => m
  | m, a, v :: vs => Memory.writeList (Memory.write m a v) (a + 1) vs

/-- The canonical form: addresses strictly rising. No listed cell can equal what an unlisted address reads as, since
that is no value. -/
def Memory.wf (m : List Host.Cell) : Bool := decide (m.Pairwise fun x y => x.1 < y.1)

/-! ## The buffer and its byte view (20_memory.md R61) -/

/-- buffer[i]. -/
def State.word (s : State) (i : Nat) : Word := s.buffer.getD i 0

/-- Byte `j` of a word, little-endian. -/
def byteOf (w : Word) (j : Nat) : Byte := w.extractLsb' (8 * j) 8

/-- bufbyte(k) (R61). -/
def State.bufByte (s : State) (k : Nat) : Byte := byteOf (s.word (k / 4)) (k % 4)

/-- `n` bytes of the byte view from `k` on, ascending. -/
def State.bufBytes (s : State) (k n : Nat) : List Byte := (List.range n).map fun j => s.bufByte (k + j)

/-- A word with byte `j` replaced. -/
def setByteOf (w : Word) (j : Nat) (v : Byte) : Word :=
  (w &&& ~~~(0xFF#32 <<< (8 * j))) ||| (v.zeroExtend 32 <<< (8 * j))

/-- Writing byte k through the view: exactly those 8 bits of buffer[k div 4] (R61). -/
def setBufByte (b : List Word) (k : Nat) (v : Byte) : List Word :=
  b.set (k / 4) (setByteOf (b.getD (k / 4) 0) (k % 4) v)

/-! ## Issue, completion, suspension and abort -/

/-- R100: a CMD write first clears DONE and ERR. It is also all there is of a return from an abort (60_exceptions.md
R251). -/
def State.clearStatus (s : State) : State := { s with done := false, err := .none }

/-- R81: cmd_op, op0 and op1 latched at the CMD write. -/
def State.latch (s : State) (op : BitVec 8) : State := { s with cmdOp := op, op0 := s.arg0, op1 := s.arg1 }

/-- R102: completion. `r` is the value for RES of a command that has a result. -/
def State.complete (s : State) (r : Option DWord) : State :=
  { s with res := r.getD s.res, err := .none, done := true, cont := .idle }

/-- R101: the rest of the body is recorded and the step ends. -/
def State.suspend (s : State) (k : Frame) : State := { s with cont := .suspended k }

/-- Abort(E) (60_exceptions.md R243), the hardware's only trap (R250): `inRefill` says that E was raised inside
`Refill()`. RES is not written. -/
def State.abort (s : State) (inRefill : Bool) (e : ErrCode) : State :=
  { s with
    cursor := if inRefill then 0 else s.cursor
    refilling := false
    fillCount := 0
    cont := .idle
    err := e
    done := true }

/-- Completion as a step's answer. -/
def finish (r : Option DWord) (s : State) : Answer := .next (s.complete r)

/-- `raise E` outside a refill, as a step's answer. -/
def raise (e : ErrCode) (s : State) : Answer := .next (s.abort false e)

/-! ## Draws -/

/-- How a draw body, or a loop of draws, ends (R14). -/
inductive Draw (α : Type) where
  /-- It returned `v`. -/
  | got (v : α) (s : State)
  /-- It reached a `Refill()` that waits for the external provider (R101). -/
  | wait (s : State)
  /-- `Refill()` raised `e` (R103). -/
  | abort (e : ErrCode) (s : State)
  /-- It loops for ever (R285). -/
  | diverge

/-- One draw body after another. -/
def Draw.bind {α β : Type} (d : Draw α) (f : α → State → Draw β) : Draw β :=
  match d with
  | .got v s => f v s
  | .wait s => .wait s
  | .abort e s => .abort e s
  | .diverge => .diverge

/-- A step's answer from a draw: go on with the value, suspend with the frame `k`, or abort in the refill. -/
def Draw.thenDo {α : Type} (d : Draw α) (k : Frame) (f : α → State → Answer) : Answer :=
  match d with
  | .got v s => f v s
  | .wait s => .next (s.suspend k)
  | .abort e s => .next (s.abort true e)
  | .diverge => .fault .diverges

/-- The Well512 unit's part of the state. -/
def State.well (s : State) : Well := ⟨s.wstate, s.windex⟩

/-- The state with the Well512 unit replaced. -/
def State.setWell (s : State) (w : Well) : State := { s with wstate := w.words, windex := w.index }

/-- The internal provider's fill: buffer[i] ← W512Next() for i = 0 .. N−1 (R103; 41_well512.md R153). -/
def State.fillFromWell (s : State) : State :=
  { (s.setWell (w512Generate s.cfg.words s.well).2) with buffer := (w512Generate s.cfg.words s.well).1 }

/-- The tail of `Refill()`, once the fill is complete (R103). -/
def State.refillDone (s : State) : State :=
  { s with refilling := false, fillCount := 0, cursor := s.cfg.words, refills := s.refills + 1 }

/-- The request to the external provider (R101, R103). -/
def State.startFill (s : State) : State := { s with refilling := true, fillCount := 0 }

/-- `Refill()` (R103). UNSEEDED is raised before the buffer changes (60_exceptions.md R246). -/
def refill (s : State) : Draw Unit :=
  match s.cfg.provider with
  | .well512 => if s.seeded then .got () s.fillFromWell.refillDone else .abort .unseeded s
  | .extWord => .wait s.startFill
  | .extByte => .wait s.startFill

/-- The refill test of the draw bodies: `if cursor < n: Refill()`. -/
def needWords (n : Nat) (s : State) : Draw Unit := if s.cursor < n then refill s else .got () s

/-- DrawU32() (R110). -/
def drawU32 (s : State) : Draw Word :=
  (needWords 1 s).bind fun _ s => .got (s.word (s.cursor - 1)) { s with cursor := s.cursor - 1 }

/-- DrawU64() (R111): the high half is the word at the lower index. -/
def drawU64 (s : State) : Draw DWord :=
  (needWords 2 s).bind fun _ s =>
    .got (s.word (s.cursor - 2) ++ s.word (s.cursor - 1)) { s with cursor := s.cursor - 2 }

/-- k, the field width of a cache (R112). -/
def Cache.width : Cache → Nat
  | .bit => 1
  | .byte => 8
  | .short => 16

/-- The cache register C (R112). -/
def State.cache (s : State) : Cache → Word
  | .bit => s.bitCache
  | .byte => s.byteCache
  | .short => s.shortCache

/-- C ← v (R112). -/
def State.setCache (s : State) (c : Cache) (v : Word) : State :=
  match c with
  | .bit => { s with bitCache := v }
  | .byte => { s with byteCache := v }
  | .short => { s with shortCache := v }

/-- DrawSub(C, k) (R112): a cached field, or the low field of a fresh word with the rest cached under a sentinel. -/
def drawSub (c : Cache) (s : State) : Draw Nat :=
  let k := c.width
  if 2 ^ k ≤ (s.cache c).toNat then
    .got ((s.cache c).toNat % 2 ^ k) (s.setCache c (s.cache c >>> k))
  else
    (drawU32 s).bind fun w s => .got (w.toNat % 2 ^ k) (s.setCache c ((w >>> k) ||| (1#32 <<< (32 - k))))

/-- The raw draw of a given width, as an unsigned integer (42_sampler.md R171, D34). -/
def drawWidth (w : DrawWidth) (s : State) : Draw Nat :=
  match w with
  | .w8 => drawSub .byte s
  | .w16 => drawSub .short s
  | .w32 => (drawU32 s).bind fun x s => .got x.toNat s
  | .w64 => (drawU64 s).bind fun x s => .got x.toNat s

/-- UniformDouble() (43_distributions.md R201): bits 52:0 of a 64-bit draw, times 2^−53. -/
def uniformDouble (s : State) : Draw F64 :=
  (drawU64 s).bind fun x s => .got (uniformDoubleBits (x.toNat % 2 ^ 53)) s

/-- UniformFloat() (43_distributions.md R203): bits 23:0 of a 32-bit draw, times 2^−24 in binary32. -/
def uniformFloat (s : State) : Draw F32 :=
  (drawU32 s).bind fun x s => .got (uniformFloatBits (x.toNat % 2 ^ 24)) s

/-- A loop that draws until a draw is accepted (42_sampler.md R171; 43_distributions.md R205), for at most `n`
rounds. -/
def retry {α β : Type} (draw : State → Draw α) (accept : α → Option β) : Nat → State → Draw β
  | 0, _ => .diverge
  | n + 1, s =>
    match draw s with
    | .got x s' =>
      match accept x with
      | some y => .got y s'
      | none => retry draw accept n s'
    | .wait s' => .wait s'
    | .abort e s' => .abort e s'
    | .diverge => .diverge

/-- More rounds than a loop of draws has distinct states within one step: the buffer (32 bits a word), the cursor, the
byte and short caches, the Well512 words and index. A loop that has not accepted after so many rounds never accepts
(log entry 6). -/
def State.loopBound (s : State) : Nat := (s.cfg.words + 1) * (16 * (2 ^ 32) ^ (s.cfg.words + 18)) + 1

/-! ## Seeding and reset -/

/-- FlushForSeed(), under PROVIDER_KIND = WELL512 only (41_well512.md R160). -/
def State.flushForSeed (s : State) : State :=
  match s.cfg.provider with
  | .well512 => { s with cursor := 0, bitCache := 0, byteCache := 0, shortCache := 0, gaussSpare := canonicalNaN }
  | .extWord => s
  | .extByte => s

/-- The common part of seeding and loading (41_well512.md R158, R159). -/
def State.seedWith (s : State) (words : Vector Word 16) : State :=
  { s with wstate := words, windex := 0, seeded := true }

/-- A reset (70_reset_and_hazards.md R270, R271): every state element at its reset value. Host memory and the outside
world's pending accesses are not the block's. -/
def State.doReset (s : State) : State := { State.resetOf s.cfg with hm := s.hm, bus := s.bus }

end Sys2Proof.Machine
end

