-- ==== Sys2Proof/Machine/Distributions.lean ====
section
/-! DEFINITION. The distribution commands and the Gaussian spare cache (spec 43_distributions.md R200 to R225). -/

namespace Sys2Proof.Machine

/-- UDBL (R202). -/
def execUdbl (s : State) : Answer := (uniformDouble s).thenDo .udbl fun u s => finish (some (placeF64 u)) s

/-- UFLT (R204). -/
def execUflt (s : State) : Answer := (uniformFloat s).thenDo .uflt fun u s => finish (some (placeF32 u)) s

/-- len × u + start: fmul, then fadd (R205, R206). -/
def scaledDouble (len start u : F64) : F64 := fadd (fmul len u) start

/-- One round of UDBL_RANGE's loop: r is accepted when it is below the end (R205). -/
def acceptBelow (start len stop u : F64) : Option F64 :=
  if flt (scaledDouble len start u) stop then some (scaledDouble len start u) else none

/-- UDBL_RANGE from its retry loop on (R205). -/
def udblRangeFrom (start len stop : F64) (s : State) : Answer :=
  (retry uniformDouble (acceptBelow start len stop) s.loopBound s).thenDo (.udblRange start len stop) fun r s =>
    finish (some (placeF64 r)) s

/-- UDBL_RANGE (R205). -/
def execUdblRange (s : State) : Answer :=
  let start := opF64 s.op0
  let stop := opF64 s.op1
  if !(isFinite start && isFinite stop && flt start stop) then raise .argRange s
  else if !isFinite (fsub stop start) then raise .argRange s
  else udblRangeFrom start (fsub stop start) stop s

/-- UDBL_SLEN from its draw on (R206). -/
def udblSlenFrom (start len : F64) (s : State) : Answer :=
  (uniformDouble s).thenDo (.udblSlen start len) fun u s => finish (some (placeF64 (scaledDouble len start u))) s

/-- UDBL_SLEN (R206). -/
def execUdblSlen (s : State) : Answer :=
  let start := opF64 s.op0
  let len := opF64 s.op1
  if !(isFinite start && isFinite len && fle 0 len) then raise .argRange s
  else udblSlenFrom start len s

/-- What GAUSS and GAUSS_MS return for the deviate g (R211, R213): g, or g × stddev + mean. -/
def GaussPost.apply : GaussPost → F64 → F64
  | .plain, g => g
  | .meanStd mean stddev, g => fadd (fmul g stddev) mean

/-- gaussSpare ← g, a NaN as the canonical NaN (R208, R212). -/
def State.setSpare (s : State) (g : F64) : State := { s with gaussSpare := canonical g }

/-- Gauss() once both uniforms are drawn: g1 is cached and g0 returned (R210). -/
def gaussPair (u v : F64) (post : GaussPost) (s : State) : Answer :=
  let g := boxMuller Config.fpLn Config.fpSin Config.fpCos u v
  finish (some (placeF64 (post.apply g.1))) (s.setSpare g.2)

/-- Gauss() from its second draw on (R210). -/
def gaussFromV (u : F64) (post : GaussPost) (s : State) : Answer :=
  (uniformDouble s).thenDo (.gaussV u post) fun v s => gaussPair u v post s

/-- Gauss() from its first draw on (R210). -/
def gaussFromU (post : GaussPost) (s : State) : Answer :=
  (uniformDouble s).thenDo (.gaussU post) fun u s => gaussFromV u post s

/-- Gauss() (R210): a pending spare is returned and made absent, with no draw; otherwise a fresh pair is drawn. -/
def gauss (post : GaussPost) (s : State) : Answer :=
  if !isNaN s.gaussSpare then
    finish (some (placeF64 (post.apply s.gaussSpare))) { s with gaussSpare := canonicalNaN }
  else gaussFromU post s

/-- GAUSS (R211). -/
def execGauss (s : State) : Answer := gauss .plain s

/-- GAUSS_MS (R213): mean = f64(op0), stddev = f64(op1), neither checked. -/
def execGaussMs (s : State) : Answer := gauss (.meanStd (opF64 s.op0) (opF64 s.op1)) s

/-- What EXPO, EXPO_MEAN and EXPO_RATE return for the deviate e (R219 to R221). -/
def ExpoPost.apply : ExpoPost → F64 → F64
  | .plain, e => e
  | .mean m, e => fmul e m
  | .rate r, e => fdiv e r

/-- An exponential command from its draw on: −Ln(u), scaled (R218). -/
def expoFrom (post : ExpoPost) (s : State) : Answer :=
  (uniformDouble s).thenDo (.expo post) fun u s =>
    finish (some (placeF64 (post.apply (fneg (Config.fpLn u))))) s

/-- EXPO (R219). -/
def execExpo (s : State) : Answer := expoFrom .plain s

/-- EXPO_MEAN (R220). -/
def execExpoMean (s : State) : Answer := expoFrom (.mean (opF64 s.op0)) s

/-- EXPO_RATE (R221). -/
def execExpoRate (s : State) : Answer := expoFrom (.rate (opF64 s.op0)) s

/-- BINOM with `left` trials to make and `k` successes so far (R223). -/
def binomFrom : Nat → Nat → F64 → State → Answer
  | 0, k, _, s => finish (some (placeUnsigned k)) s
  | left + 1, k, p, s =>
    (uniformDouble s).thenDo (.binom (left + 1) k p) fun u s => binomFrom left (if flt u p then k + 1 else k) p s

/-- 1.0. -/
def oneF64 : F64 := 0x3FF0000000000000#64

/-- BINOM (R223). -/
def execBinom (s : State) : Answer :=
  let n := opS32 s.op0
  let p := opF64 s.op1
  if n < 0 then raise .argRange s
  else if !(fle 0 p && fle p oneF64) then raise .argRange s
  else binomFrom n.toNat 0 p s

/-- POISSON (R225): its operand is not read. -/
def execPoisson (s : State) : Answer := raise .unsupported s

end Sys2Proof.Machine
end

