-- ==== Sys2Proof/Machine/Sampler.lean ====
section
/-! DEFINITION. The rejection sampler and the bounded-integer commands (spec 42_sampler.md R170 to R186). -/

namespace Sys2Proof.Machine

/-- The number of bits of a draw width. -/
def DrawWidth.bits : DrawWidth → Nat
  | .w8 => 8
  | .w16 => 16
  | .w32 => 32
  | .w64 => 64

/-- The narrowest width whose range covers `count` (R171, D33). Only a 64-bit domain has counts above 2^32. -/
def chooseWidth (count : Nat) : DrawWidth :=
  if count ≤ 2 ^ 8 then .w8
  else if count ≤ 2 ^ 16 then .w16
  else if count ≤ 2 ^ 32 then .w32
  else .w64

/-- The plan of SampleMax(mx, D) (R171). The special case mx = 2^D − 1 returns a raw draw of the domain's width, which
is what accepting every draw below 2^D and reducing it modulo 2^D does (R172 item 4). -/
def samplePlan (mx domain : Nat) : SamplePlan :=
  if mx = 2 ^ domain - 1 then ⟨if domain = 32 then .w32 else .w64, 2 ^ domain, 2 ^ domain⟩
  else
    let w := chooseWidth (mx + 1)
    ⟨w, 2 ^ w.bits / (mx + 1) * (mx + 1), mx + 1⟩

/-- R171: a draw below usable is accepted and reduced modulo count. -/
def SamplePlan.accept (p : SamplePlan) (x : Nat) : Option Nat := if x < p.usable then some (x % p.count) else none

/-- A sampler command from its rejection loop on: start + SampleMax, placed as type `t` (R171, R173 to R186). -/
def sampleFrom (p : SamplePlan) (start : Int) (t : IntType) (s : State) : Answer :=
  (retry (drawWidth p.width) p.accept s.loopBound s).thenDo (.sample p start t) fun x s =>
    finish (some (t.place (start + x))) s

/-- SampleMax(mx, D) added to `start` and placed as type `t`. -/
def sampleMax (mx : Nat) (start : Int) (t : IntType) (s : State) : Answer :=
  sampleFrom (samplePlan mx t.domain) start t s

/-- RNDCNT (R175 to R178): a value in [0, count). -/
def rndCount (t : IntType) (s : State) : Answer :=
  let count := t.read s.op0
  if count < 1 then raise .argRange s else sampleMax (count - 1).toNat 0 t s

/-- RNDRNG (R179 to R182): a value in [start, end]. -/
def rndRange (t : IntType) (s : State) : Answer :=
  let start := t.read s.op0
  let stop := t.read s.op1
  if stop < start then raise .argRange s else sampleMax (stop - start).toNat start t s

/-- RNDSC (R183 to R186): a value in [start, start + count), with start + count at most MAX_T. -/
def rndStartCount (t : IntType) (s : State) : Answer :=
  let start := t.read s.op0
  let count := t.read s.op1
  if count < 1 then raise .argRange s
  else if t.greatest < start + count then raise .argRange s
  else sampleMax (count - 1).toNat start t s

/-- SMPL32 (R173). -/
def execSmpl32 (s : State) : Answer := sampleMax (opU32 s.op0) 0 .u32 s

/-- SMPL64 (R174). -/
def execSmpl64 (s : State) : Answer := sampleMax (opU64 s.op0) 0 .u64 s

/-- RNDCNT.U32 (R175). -/
def execRndcntU32 (s : State) : Answer := rndCount .u32 s

/-- RNDCNT.S32 (R176). -/
def execRndcntS32 (s : State) : Answer := rndCount .s32 s

/-- RNDCNT.U64 (R177). -/
def execRndcntU64 (s : State) : Answer := rndCount .u64 s

/-- RNDCNT.S64 (R178). -/
def execRndcntS64 (s : State) : Answer := rndCount .s64 s

/-- RNDRNG.U32 (R179). -/
def execRndrngU32 (s : State) : Answer := rndRange .u32 s

/-- RNDRNG.S32 (R180). -/
def execRndrngS32 (s : State) : Answer := rndRange .s32 s

/-- RNDRNG.U64 (R181). -/
def execRndrngU64 (s : State) : Answer := rndRange .u64 s

/-- RNDRNG.S64 (R182). -/
def execRndrngS64 (s : State) : Answer := rndRange .s64 s

/-- RNDSC.U32 (R183). -/
def execRndscU32 (s : State) : Answer := rndStartCount .u32 s

/-- RNDSC.S32 (R184). -/
def execRndscS32 (s : State) : Answer := rndStartCount .s32 s

/-- RNDSC.U64 (R185). -/
def execRndscU64 (s : State) : Answer := rndStartCount .u64 s

/-- RNDSC.S64 (R186). -/
def execRndscS64 (s : State) : Answer := rndStartCount .s64 s

end Sys2Proof.Machine
end

