-- ==== Sys2Proof/Machine/Seeding.lean ====
section
/-! DEFINITION. The Well512 commands (spec 41_well512.md R158 to R163). None of them suspends. -/

namespace Sys2Proof.Machine

/-- W512_SEED64 (R158, R160, R161). -/
def execW512Seed64 (s : State) : Answer :=
  finish none (s.seedWith (seedWords s.cfg.digest (BitVec.ofNat 64 (opU64 s.op0)))).flushForSeed

/-- W512_LOAD (R159, R160, R162): word i is WSTAGE[i] (30_encoding.md R85). -/
def execW512Load (s : State) : Answer := finish none (s.seedWith s.wstage).flushForSeed

/-- W512_NEXT (R163): its UNSEEDED is raised outside a refill (60_exceptions.md R243). -/
def execW512Next (s : State) : Answer :=
  if s.seeded then finish (some (placeUnsigned (w512Next s.well).1.toNat)) (s.setWell (w512Next s.well).2)
  else raise .unseeded s

end Sys2Proof.Machine
end

