-- ==== Sys2Proof/Machine/WordEngine.lean ====
section
/-! DEFINITION. The word engine commands (spec 40_word_engine.md R116 to R124). -/

namespace Sys2Proof.Machine

/-- INT32 (R116). -/
def execInt32 (s : State) : Answer :=
  (drawU32 s).thenDo .int32 fun w s => finish (some (placeS32 w.toInt)) s

/-- UINT32 (R117). -/
def execUint32 (s : State) : Answer :=
  (drawU32 s).thenDo .uint32 fun w s => finish (some (placeUnsigned w.toNat)) s

/-- INT64 (R118). -/
def execInt64 (s : State) : Answer :=
  (drawU64 s).thenDo .int64 fun x s => finish (some (placeS64 x.toInt)) s

/-- UINT64 (R119). -/
def execUint64 (s : State) : Answer :=
  (drawU64 s).thenDo .uint64 fun x s => finish (some (placeUnsigned x.toNat)) s

/-- BOOL (R120): DrawBool() is DrawSub(bitCache, 1) (R113). -/
def execBool (s : State) : Answer :=
  (drawSub .bit s).thenDo .bool fun b s => finish (some (placeUnsigned b)) s

/-- BYTE (R121): DrawByte() is DrawSub(byteCache, 8) (R114). -/
def execByte (s : State) : Answer :=
  (drawSub .byte s).thenDo .byte fun b s => finish (some (placeUnsigned b)) s

/-- UINT16 (R122): DrawU16() is DrawSub(shortCache, 16) (R115). -/
def execUint16 (s : State) : Answer :=
  (drawSub .short s).thenDo .uint16 fun h s => finish (some (placeUnsigned h)) s

/-- One chunk of BYTES: `n` bytes of the byte view from `k` on go to host memory from `dst` on (R123). -/
def State.copyOut (s : State) (dst k n : Nat) : State :=
  { s with hm := Memory.writeList s.hm dst (s.bufBytes k n) }

/-- The chunk loop of BYTES (R123), for at most `n` rounds. Every round after the first copies 4N bytes, so a body with
`count` bytes to copy needs at most `count + 2` rounds. -/
def bytesLoop : Nat → Nat → Nat → State → Answer
  | 0, _, _, _ => .fault .diverges
  | n + 1, dst, count, s =>
    let bi := 4 * s.cursor
    if bi < count then
      match refill { s.copyOut dst 0 bi with cursor := 0 } with
      | .got _ s' => bytesLoop n (dst + bi) (count - bi) s'
      | .wait s' => .next (s'.suspend (.bytes (dst + bi) (count - bi)))
      | .abort e s' => .next (s'.abort true e)
      | .diverge => .fault .diverges
    else finish none { s.copyOut dst (bi - count) count with cursor := (bi - count) / 4 }

/-- BYTES from its locals on (R123). -/
def bytesFrom (dst count : Nat) (s : State) : Answer := bytesLoop (count + 2) dst count s

/-- BYTES (R123). -/
def execBytes (s : State) : Answer :=
  if 2 ^ 32 < opU32 s.op0 + opU32 s.op1 then raise .argRange s
  else bytesFrom (opU32 s.op0) (opU32 s.op1) s

/-- What is left of REFILL after its fill: the return (R124). -/
def refillReturn (s : State) : Answer := finish none s

/-- REFILL (R124). -/
def execRefill (s : State) : Answer := (refill s).thenDo .refill fun _ s => refillReturn s

end Sys2Proof.Machine
end

