-- ==== Sys2Proof/Machine/Dispatch.lean ====
section
/-! DEFINITION. One arm per command (spec 30_encoding.md R82): the command's body from its first statement, on the
state in which its operands are latched. -/

namespace Sys2Proof.Machine

def exec (i : Instr) (s : State) : Host.Outcome State Fault Refusal :=
  match i with
  | .int32 => Sys2Proof.Machine.execInt32 s
  | .uint32 => Sys2Proof.Machine.execUint32 s
  | .int64 => Sys2Proof.Machine.execInt64 s
  | .uint64 => Sys2Proof.Machine.execUint64 s
  | .bool => Sys2Proof.Machine.execBool s
  | .byte => Sys2Proof.Machine.execByte s
  | .uint16 => Sys2Proof.Machine.execUint16 s
  | .bytes => Sys2Proof.Machine.execBytes s
  | .refill => Sys2Proof.Machine.execRefill s
  | .w512Seed64 => Sys2Proof.Machine.execW512Seed64 s
  | .w512Load => Sys2Proof.Machine.execW512Load s
  | .w512Next => Sys2Proof.Machine.execW512Next s
  | .smpl32 => Sys2Proof.Machine.execSmpl32 s
  | .smpl64 => Sys2Proof.Machine.execSmpl64 s
  | .rndcntU32 => Sys2Proof.Machine.execRndcntU32 s
  | .rndcntS32 => Sys2Proof.Machine.execRndcntS32 s
  | .rndcntU64 => Sys2Proof.Machine.execRndcntU64 s
  | .rndcntS64 => Sys2Proof.Machine.execRndcntS64 s
  | .rndrngU32 => Sys2Proof.Machine.execRndrngU32 s
  | .rndrngS32 => Sys2Proof.Machine.execRndrngS32 s
  | .rndrngU64 => Sys2Proof.Machine.execRndrngU64 s
  | .rndrngS64 => Sys2Proof.Machine.execRndrngS64 s
  | .rndscU32 => Sys2Proof.Machine.execRndscU32 s
  | .rndscS32 => Sys2Proof.Machine.execRndscS32 s
  | .rndscU64 => Sys2Proof.Machine.execRndscU64 s
  | .rndscS64 => Sys2Proof.Machine.execRndscS64 s
  | .udbl => Sys2Proof.Machine.execUdbl s
  | .uflt => Sys2Proof.Machine.execUflt s
  | .udblRange => Sys2Proof.Machine.execUdblRange s
  | .udblSlen => Sys2Proof.Machine.execUdblSlen s
  | .gauss => Sys2Proof.Machine.execGauss s
  | .gaussMs => Sys2Proof.Machine.execGaussMs s
  | .expo => Sys2Proof.Machine.execExpo s
  | .expoMean => Sys2Proof.Machine.execExpoMean s
  | .expoRate => Sys2Proof.Machine.execExpoRate s
  | .binom => Sys2Proof.Machine.execBinom s
  | .poisson => Sys2Proof.Machine.execPoisson s

end Sys2Proof.Machine
end

