-- ==== Sys2Proof/Machine/Resume.lean ====
section
/-! DEFINITION. Resuming a suspended command body (spec 40_word_engine.md R101, R104). -/

namespace Sys2Proof.Machine

/-- The rest of the body a frame stands for, on the state in which its refill is complete (R104; log entry 7). -/
def resume (k : Frame) (s : State) : Answer :=
  match k with
  | .int32 => execInt32 s
  | .uint32 => execUint32 s
  | .int64 => execInt64 s
  | .uint64 => execUint64 s
  | .bool => execBool s
  | .byte => execByte s
  | .uint16 => execUint16 s
  | .bytes dst count => bytesFrom dst count s
  | .refill => refillReturn s
  | .sample p start t => sampleFrom p start t s
  | .udbl => execUdbl s
  | .uflt => execUflt s
  | .udblRange start len stop => udblRangeFrom start len stop s
  | .udblSlen start len => udblSlenFrom start len s
  | .gaussU post => gaussFromU post s
  | .gaussV u post => gaussFromV u post s
  | .expo post => expoFrom post s
  | .binom left k p => binomFrom left k p s

/-- Resumption after the fill (R104): the tail of `Refill()`, then the rest of the body. -/
def resumeCont (s : State) : Answer :=
  match s.cont with
  | .idle => .next s.refillDone
  | .suspended k => resume k s.refillDone

end Sys2Proof.Machine
end

