-- ==== Sys2Proof/Machine/Port.lean ====
section
/-! DEFINITION. The register port (spec 10_state.md R35 to R48), the CMD write (40_word_engine.md R100; 60_exceptions.md
R242, R245), the fill port (R104), and what each event of the outside world does. -/

namespace Sys2Proof.Machine

/-- The PROVIDER_KIND code (R39). -/
def providerCode : ProviderKind → Nat
  | .well512 => 0
  | .extWord => 1
  | .extByte => 2

/-- The low half of a 64-bit register replaced (R42). -/
def setLo (x : DWord) (v : Word) : DWord := x.extractLsb' 32 32 ++ v

/-- The high half of a 64-bit register replaced (R42). -/
def setHi (x : DWord) (v : Word) : DWord := v ++ x.extractLsb' 0 32

/-- The low half of a 64-bit register (R22). -/
def loHalf (x : DWord) : Word := x.extractLsb' 0 32

/-- The high half of a 64-bit register (R22). -/
def hiHalf (x : DWord) : Word := x.extractLsb' 32 32

/-- The index of the WSTAGE register at an offset: 0x40 + 4i, i = 0..15 (R40, R47). -/
def wstageIndex (off : Nat) : Option (Fin 16) :=
  if h : 0x40 ≤ off ∧ off % 4 = 0 ∧ off < 0x80 then some ⟨(off - 0x40) / 4, by omega⟩ else none

/-- RegRead(off) (R40). A write-only register, a reserved offset and an unmapped offset read 0 (R48). -/
def State.regRead (s : State) (off : Nat) : Word :=
  match off with
  | 0x04 => s.status
  | 0x08 => loHalf s.arg0
  | 0x0C => hiHalf s.arg0
  | 0x10 => loHalf s.arg1
  | 0x14 => hiHalf s.arg1
  | 0x18 => loHalf s.res
  | 0x1C => hiHalf s.res
  | 0x20 => BitVec.ofNat 32 s.cursor
  | 0x24 => BitVec.ofNat 32 s.cfg.words
  | 0x2C => BitVec.ofNat 32 s.fillCount
  | 0x30 => s.refills
  | 0x34 => BitVec.ofNat 32 (providerCode s.cfg.provider)
  | n =>
    match wstageIndex n with
    | some i => s.wstage.get i
    | none => 0

/-- A write of `v` to CMD (R100): reentry while a command is suspended (R245), ILLEGAL for a reserved word (R242),
otherwise the command runs on its latched operands (R81). -/
def writeCmd (v : Word) (s : State) : Answer :=
  if s.refilling then .next (s.abort true .reentered)
  else
    match decode v with
    | .error _ => raise .illegal s.clearStatus
    | .ok i => exec i (s.clearStatus.latch (CmdWord.ofWord v).op)

/-- U, the number of units of one fill (R26, R104). Under WELL512 there is no external fill. -/
def fillUnits (c : Config) : Nat :=
  match c.provider with
  | .well512 => 0
  | .extWord => c.words
  | .extByte => 4 * c.words

/-- The buffer after one more fill unit (R104). Under WELL512 no fill is ever pending (R25; log entry 14). -/
def State.bufferWithUnit (s : State) (v : Word) : List Word :=
  match s.cfg.provider with
  | .well512 => s.buffer
  | .extWord => s.buffer.set s.fillCount v
  | .extByte => setBufByte s.buffer s.fillCount (v.extractLsb' 0 8)

/-- The state after one more fill unit (R104). -/
def State.takeUnit (s : State) (v : Word) : State :=
  { s with buffer := s.bufferWithUnit v, fillCount := s.fillCount + 1 }

/-- A write of `v` to FILL_DATA (R104). -/
def writeFill (v : Word) (s : State) : Answer :=
  if s.refilling then
    if s.fillCount + 1 = fillUnits s.cfg then resumeCont (s.takeUnit v) else .next (s.takeUnit v)
  else .next s

/-- RegWrite(off, v) (R40). A write to a read-only register, a reserved offset or an unmapped offset has no effect
(R48). -/
def regWrite (off : Nat) (v : Word) (s : State) : Answer :=
  match off with
  | 0x00 => writeCmd v s
  | 0x08 => .next { s with arg0 := setLo s.arg0 v }
  | 0x0C => .next { s with arg0 := setHi s.arg0 v }
  | 0x10 => .next { s with arg1 := setLo s.arg1 v }
  | 0x14 => .next { s with arg1 := setHi s.arg1 v }
  | 0x28 => writeFill v s
  | n =>
    match wstageIndex n with
    | some i => .next { s with wstage := s.wstage.set i.val v }
    | none => .next s

/-- Whether a platform address is word-aligned relative to BASE (R48). -/
def wordAligned (c : Config) (addr : Nat) : Bool := decide (((addr : Int) - c.base) % 4 = 0)

/-- The offset of an address from BASE. An address below BASE has none: it is no register of the block and counts as
unmapped (log entry 11). -/
def offsetOf (c : Config) (addr : Nat) : Option Nat := if c.base ≤ addr then some (addr - c.base) else none

/-- Only 32-bit word-aligned accesses are part of the interface; the model refuses any other (R48, U8). -/
def guardAccess (width : AccessWidth) (addr : Nat) (s : State) (act : Answer) : Answer :=
  match width with
  | .byte => .refused .accessNotWord
  | .half => .refused .accessNotWord
  | .word => if wordAligned s.cfg addr then act else .refused .accessMisaligned

/-- A word write at an address (R40, R48, R68). -/
def writeAt (addr : Nat) (v : Word) (s : State) : Answer :=
  match offsetOf s.cfg addr with
  | some off => regWrite off v s
  | none => .next s

/-- The value of a word read at an address (R40, R48, R68). -/
def State.readAt (s : State) (addr : Nat) : Word :=
  match offsetOf s.cfg addr with
  | some off => s.regRead off
  | none => 0

/-- One event of the outside world. A register read has no effect but its returned value (20_memory.md R67). -/
def perform (e : Event) (s : State) : Answer :=
  match e with
  | .write width addr v => guardAccess width addr s (writeAt addr v s)
  | .read width addr => guardAccess width addr s (.next { s with rdata := s.readAt addr })
  | .reset => .next s.doReset
  | .hostStore addr v => .next { s with hm := Memory.write s.hm addr.toNat v }

end Sys2Proof.Machine
end

