-- ==== Sys2Proof/Machine/Step.lean ====
section
/-! DEFINITION. One step of the machine: the next access of the outside world, performed atomically in the order the
bus delivers it (spec 20_memory.md R70, D46), and how the host places a command word. -/

namespace Sys2Proof.Machine

/-- A step performs the oldest pending access. With none pending nothing happens: the engine acts only as the effect of
a register write (00_scope.md R10; log entry 1). Parameters that are not an instance's are refused (R8). -/
def step (s : State) : Host.Outcome State Fault Refusal :=
  if s.cfg.wellFormed then
    match s.bus with
    | [] => .next s
    | e :: rest => perform e { s with bus := rest }
  else .refused .notAnInstance

/-- The state in which no command is suspended, so that a CMD write is decoded (30_encoding.md R81). It is the state
itself where none is. -/
def State.unsuspended (s : State) : State :=
  if s.refilling then { s with refilling := false, fillCount := 0, cont := .idle } else s

/-- The state in which the next access is a write to CMD of the command word numbered as the opcode table numbers it:
a command word lies in no memory, it acts at the CMD write that delivers it (20_memory.md R73; log entry 1). -/
def State.withFetchWord (s : State) (nbits w : Nat) : State :=
  { s.unsuspended with bus := .write .word s.cfg.base (BitVec.ofNat 32 (w % 2 ^ nbits)) :: s.bus }

end Sys2Proof.Machine
end

