-- ==== Sys2Proof/Safety.lean ====
section
/-! DEFINITION. What the claims speak of: the invariants of every reachable state (spec 10_state.md R50), the state with
no command suspended, a sequence of commands run one after another, and what a sum, product, quotient and root are. -/

namespace Sys2Proof.Machine

/-- A byte-granular cache is empty or has its sentinel at bit 24, 16, 8 or 0 (10_state.md R28). -/
def byteCacheLegal (c : Word) : Prop :=
  c = 0 ∨ c = 1 ∨ (2 ^ 8 ≤ c.toNat ∧ c.toNat < 2 ^ 9) ∨ (2 ^ 16 ≤ c.toNat ∧ c.toNat < 2 ^ 17) ∨
    (2 ^ 24 ≤ c.toNat ∧ c.toNat < 2 ^ 25)

/-- A halfword-granular cache is empty or has its sentinel at bit 16 or 0 (10_state.md R29). -/
def shortCacheLegal (c : Word) : Prop := c = 0 ∨ c = 1 ∨ (2 ^ 16 ≤ c.toNat ∧ c.toNat < 2 ^ 17)

/-- What the locals of a suspended body satisfy: a BYTES range ends within host memory, a sampler plan accepts some
draw and its results lie in their type, a binomial count stays below 2^31. -/
def Frame.ok : Frame → Prop
  | .bytes dst count => dst + count ≤ 2 ^ 32
  | .sample p start t =>
    0 < p.count ∧ p.count ≤ p.usable ∧ t.least ≤ start ∧ start + p.count - 1 ≤ t.greatest
  | .binom left k _ => left + k < 2 ^ 31
  | _ => True

/-- The invariants of 10_state.md R50 (items 1 to 5), of R21, R26, R30 and R36, and of the model's own data. -/
structure State.Inv (s : State) : Prop where
  /-- The parameters are those of an instance (00_scope.md R8). -/
  cfgWf : s.cfg.wellFormed = true
  /-- The buffer has N words (R23). -/
  bufLen : s.buffer.length = s.cfg.words
  /-- 0 ≤ cursor ≤ N (R50 item 1). -/
  cursorLe : s.cursor ≤ s.cfg.words
  /-- refilling = 1 only under an external provider (R50 item 2). -/
  refillKind : s.refilling = true → s.cfg.provider ≠ .well512
  /-- refilling = 1 exactly when cont is suspended (R21). -/
  refillCont : s.refilling = true ↔ s.cont ≠ .idle
  /-- refilling = 0 → fill_count = 0 (R50 item 3). -/
  fillIdle : s.refilling = false → s.fillCount = 0
  /-- fill_count lies in [0, U) during a refill (R26). -/
  fillBound : s.refilling = true → s.fillCount < fillUnits s.cfg
  /-- byteCache holds a legal value (R50 item 4). Every value of bitCache is legal (R27). -/
  byteLegal : byteCacheLegal s.byteCache
  /-- shortCache holds a legal value (R50 item 4). -/
  shortLegal : shortCacheLegal s.shortCache
  /-- An absent spare is the canonical NaN (R30; 43_distributions.md R208). -/
  spareCanon : isNaN s.gaussSpare = true → s.gaussSpare = canonicalNaN
  /-- An error code stands only beside DONE (40_word_engine.md R100, R102; 60_exceptions.md R243). -/
  errDone : s.err ≠ .none → s.done = true
  /-- While a command is suspended DONE is 0 (40_word_engine.md R101). -/
  refillNotDone : s.refilling = true → s.done = false
  /-- Host memory is in its canonical form. -/
  hmWf : Memory.wf s.hm = true
  /-- Host memory has 32-bit addresses (20_memory.md R62). -/
  hmBound : ∀ c ∈ s.hm, c.1 < 2 ^ 32
  /-- The locals of a suspended body are in range. -/
  frameOk : ∀ k, s.cont = .suspended k → k.ok

/-- No command is suspended (cont = idle; 30_encoding.md R81). -/
structure State.Idle (s : State) : Prop where
  refilling : s.refilling = false
  fillCount : s.fillCount = 0
  cont : s.cont = .idle

/-- Commands run one after another on the operands that are latched. -/
def execAll : List Instr → State → Answer
  | [], s => .next s
  | i :: is, s =>
    match exec i s with
    | .next t => execAll is t
    | .fault r => .fault r
    | .refused r => .refused r

/-- `n` steps, stopping at the first fault or refusal. -/
def runSteps : Nat → State → Answer
  | 0, s => .next s
  | n + 1, s =>
    match step s with
    | .next t => runSteps n t
    | .fault r => .fault r
    | .refused r => .refused r

/-- The state in which the fill a suspended command waits for is complete, with `b` in the buffer (40_word_engine.md
R103, R104). -/
def State.filledWith (s : State) (b : List Word) : State :=
  { s with buffer := b, refilling := false, fillCount := 0, cursor := s.cfg.words, refills := s.refills + 1 }

/-- What a command comes to when an external provider answers its suspensions with the fill vectors in turn
(40_word_engine.md R106). -/
def answerFills : List (List Word) → Answer → Answer
  | b :: bs, .next t =>
    match t.cont with
    | .idle => .next t
    | .suspended k => answerFills bs (resume k (t.filledWith b))
  | [], a => a
  | _, .fault r => .fault r
  | _, .refused r => .refused r

/-- The fill vectors that a Well512 unit gives in `n` refills of `words` words each (41_well512.md R153). -/
def unitFills (words : Nat) : Nat → Well → List (List Word)
  | 0, _ => []
  | n + 1, w => (w512Generate words w).1 :: unitFills words n (w512Generate words w).2

/-- The instance with the internal provider, its unit seeded and at `w`. -/
def State.withUnit (s : State) (w : Well) : State :=
  { s with cfg := { s.cfg with provider := .well512 }, wstate := w.words, windex := w.index, seeded := true }

/-- A machine that has answered a command: it has completed or aborted (DONE = 1), or it is suspended at a refill. -/
def State.answered (s : State) : Prop := s.done = true ∨ s.refilling = true

/-- Reserved command words, as 30_encoding.md R87 lists them. -/
def reservedWord (w : Word) : Prop :=
  w.extractLsb' 8 24 ≠ 0 ∨ w.toNat % 256 = 0 ∨ (0x0A ≤ w.toNat % 256 ∧ w.toNat % 256 ≤ 0x0F) ∨
    (0x13 ≤ w.toNat % 256 ∧ w.toNat % 256 ≤ 0x1F) ∨ w.toNat % 256 = 0x2E ∨ w.toNat % 256 = 0x2F ∨
    0x3B ≤ w.toNat % 256

/-- The operands a command refuses with ARG_RANGE, as its own rule states them (60_exceptions.md R240; 40_word_engine.md
R123; 42_sampler.md R175 to R186; 43_distributions.md R205, R206, R223). -/
def argError (i : Instr) (s : State) : Prop :=
  match i with
  | .bytes => 2 ^ 32 < opU32 s.op0 + opU32 s.op1
  | .rndcntU32 => opU32 s.op0 < 1
  | .rndcntS32 => opS32 s.op0 < 1
  | .rndcntU64 => opU64 s.op0 < 1
  | .rndcntS64 => opS64 s.op0 < 1
  | .rndrngU32 => opU32 s.op1 < opU32 s.op0
  | .rndrngS32 => opS32 s.op1 < opS32 s.op0
  | .rndrngU64 => opU64 s.op1 < opU64 s.op0
  | .rndrngS64 => opS64 s.op1 < opS64 s.op0
  | .rndscU32 => opU32 s.op1 < 1 ∨ 2 ^ 32 - 1 < opU32 s.op0 + opU32 s.op1
  | .rndscS32 => opS32 s.op1 < 1 ∨ 2 ^ 31 - 1 < opS32 s.op0 + opS32 s.op1
  | .rndscU64 => opU64 s.op1 < 1 ∨ 2 ^ 64 - 1 < opU64 s.op0 + opU64 s.op1
  | .rndscS64 => opS64 s.op1 < 1 ∨ 2 ^ 63 - 1 < opS64 s.op0 + opS64 s.op1
  | .udblRange =>
    ¬(isFinite (opF64 s.op0) = true ∧ isFinite (opF64 s.op1) = true ∧ flt (opF64 s.op0) (opF64 s.op1) = true) ∨
      isFinite (fsub (opF64 s.op1) (opF64 s.op0)) = false
  | .udblSlen =>
    ¬(isFinite (opF64 s.op0) = true ∧ isFinite (opF64 s.op1) = true ∧ fle 0 (opF64 s.op1) = true)
  | .binom =>
    opS32 s.op0 < 0 ∨ ¬(fle 0 (opF64 s.op1) = true ∧ fle (opF64 s.op1) 0x3FF0000000000000#64 = true)
  | _ => False

/-- What a sampler command samples once its operands are in range: SampleMax's inclusive maximum, the number added to
what it returns, and the type of the result (42_sampler.md R173 to R186). No other command has one. -/
def samplerArgs (i : Instr) (s : State) : Option (Nat × Int × IntType) :=
  match i with
  | .smpl32 => some (opU32 s.op0, 0, .u32)
  | .smpl64 => some (opU64 s.op0, 0, .u64)
  | .rndcntU32 => some (opU32 s.op0 - 1, 0, .u32)
  | .rndcntS32 => some ((opS32 s.op0 - 1).toNat, 0, .s32)
  | .rndcntU64 => some (opU64 s.op0 - 1, 0, .u64)
  | .rndcntS64 => some ((opS64 s.op0 - 1).toNat, 0, .s64)
  | .rndrngU32 => some (opU32 s.op1 - opU32 s.op0, opU32 s.op0, .u32)
  | .rndrngS32 => some ((opS32 s.op1 - opS32 s.op0).toNat, opS32 s.op0, .s32)
  | .rndrngU64 => some (opU64 s.op1 - opU64 s.op0, opU64 s.op0, .u64)
  | .rndrngS64 => some ((opS64 s.op1 - opS64 s.op0).toNat, opS64 s.op0, .s64)
  | .rndscU32 => some (opU32 s.op1 - 1, opU32 s.op0, .u32)
  | .rndscS32 => some ((opS32 s.op1 - 1).toNat, opS32 s.op0, .s32)
  | .rndscU64 => some (opU64 s.op1 - 1, opU64 s.op0, .u64)
  | .rndscS64 => some ((opS64 s.op1 - 1).toNat, opS64 s.op0, .s64)
  | _ => none

/-- A raw draw of a width needs no refill (40_word_engine.md R110 to R112). -/
def DrawWidth.ready (w : DrawWidth) (s : State) : Prop :=
  match w with
  | .w8 => 2 ^ 8 ≤ s.byteCache.toNat ∨ 1 ≤ s.cursor
  | .w16 => 2 ^ 16 ≤ s.shortCache.toNat ∨ 1 ≤ s.cursor
  | .w32 => 1 ≤ s.cursor
  | .w64 => 2 ≤ s.cursor

/-- The least of 8, 16, 32 and 64 bits whose range covers the count mx + 1 (42_sampler.md R171). -/
def leastWidth (mx : Nat) (w : DrawWidth) : Prop :=
  mx + 1 ≤ 2 ^ w.bits ∧ ∀ v : DrawWidth, mx + 1 ≤ 2 ^ v.bits → w.bits ≤ v.bits

/-- usable, the largest multiple of the count mx + 1 that a draw of the width can reach (42_sampler.md R171). -/
def usableDraws (mx : Nat) (w : DrawWidth) : Nat := 2 ^ w.bits / (mx + 1) * (mx + 1)

/-- What a raw draw that needs no refill returns and leaves (40_word_engine.md R110 to R112, R114, R115). -/
def DrawWidth.raw (w : DrawWidth) (s : State) : Nat × State :=
  match w with
  | .w8 =>
    if 2 ^ 8 ≤ s.byteCache.toNat then (s.byteCache.toNat % 2 ^ 8, { s with byteCache := s.byteCache >>> 8 })
    else ((s.word (s.cursor - 1)).toNat % 2 ^ 8,
      { s with cursor := s.cursor - 1, byteCache := (s.word (s.cursor - 1) >>> 8) ||| 0x01000000#32 })
  | .w16 =>
    if 2 ^ 16 ≤ s.shortCache.toNat then
      (s.shortCache.toNat % 2 ^ 16, { s with shortCache := s.shortCache >>> 16 })
    else ((s.word (s.cursor - 1)).toNat % 2 ^ 16,
      { s with cursor := s.cursor - 1, shortCache := (s.word (s.cursor - 1) >>> 16) ||| 0x00010000#32 })
  | .w32 => ((s.word (s.cursor - 1)).toNat, { s with cursor := s.cursor - 1 })
  | .w64 => ((s.word (s.cursor - 2) ++ s.word (s.cursor - 1)).toNat, { s with cursor := s.cursor - 2 })

/-- The command's next statement is a draw, and the draw needs a refill (40_word_engine.md R110 to R112). BYTES and
REFILL, whose refill is not a draw's, are left out. -/
def firstDrawRefills (i : Instr) (s : State) : Prop :=
  match i with
  | .int32 => s.cursor < 1
  | .uint32 => s.cursor < 1
  | .uflt => s.cursor < 1
  | .int64 => s.cursor < 2
  | .uint64 => s.cursor < 2
  | .udbl => s.cursor < 2
  | .expo => s.cursor < 2
  | .expoMean => s.cursor < 2
  | .expoRate => s.cursor < 2
  | .bool => s.bitCache.toNat < 2 ∧ s.cursor < 1
  | .byte => s.byteCache.toNat < 2 ^ 8 ∧ s.cursor < 1
  | .uint16 => s.shortCache.toNat < 2 ^ 16 ∧ s.cursor < 1
  | .gauss => isNaN s.gaussSpare = true ∧ s.cursor < 2
  | .gaussMs => isNaN s.gaussSpare = true ∧ s.cursor < 2
  | .udblRange => ¬argError .udblRange s ∧ s.cursor < 2
  | .udblSlen => ¬argError .udblSlen s ∧ s.cursor < 2
  | .binom => ¬argError .binom s ∧ 1 ≤ opS32 s.op0 ∧ s.cursor < 2
  | i =>
    match samplerArgs i s with
    | some (mx, _, _) => ¬argError i s ∧ ∃ w, leastWidth mx w ∧ ¬w.ready s
    | none => False

/-- A result column other than "none" (30_encoding.md R82, R86). -/
def hasResult : Instr → Bool
  | .bytes => false
  | .refill => false
  | .w512Seed64 => false
  | .w512Load => false
  | .poisson => false
  | _ => true

/-- The u of a uniform double drawn from words `c` and `c + 1`, the high half first (40_word_engine.md R111;
43_distributions.md R201). -/
def State.uniformAt (s : State) (c : Nat) : F64 := uniformDoubleBits ((s.word c ++ s.word (c + 1)).toNat % 2 ^ 53)

/-- Every element to which the spec gives a reset value has it (10_state.md R52), for parameters `c`. -/
structure State.AtReset (c : Config) (s : State) : Prop where
  cfg : s.cfg = c
  cursor : s.cursor = 0
  refilling : s.refilling = false
  fillCount : s.fillCount = 0
  bitCache : s.bitCache = 0
  byteCache : s.byteCache = 0
  shortCache : s.shortCache = 0
  gaussSpare : s.gaussSpare = 0x7FF8000000000000#64
  windex : s.windex = 0
  seeded : s.seeded = false
  wstage : ∀ k, s.wstage.get k = 0
  cont : s.cont = .idle
  arg0 : s.arg0 = 0
  arg1 : s.arg1 = 0
  res : s.res = 0
  done : s.done = false
  err : s.err = .none
  refills : s.refills = 0

/-- Two states that give the same values from here on under PROVIDER_KIND = WELL512: nothing else of the state is read
by a draw (41_well512.md R164). Consumed words of the buffer may differ. -/
structure State.SameStream (s t : State) : Prop where
  cfg : s.cfg = t.cfg
  cursor : s.cursor = t.cursor
  words : ∀ k < s.cursor, s.word k = t.word k
  bitCache : s.bitCache = t.bitCache
  byteCache : s.byteCache = t.byteCache
  shortCache : s.shortCache = t.shortCache
  gaussSpare : s.gaussSpare = t.gaussSpare
  wstate : s.wstate = t.wstate
  windex : s.windex = t.windex
  seeded : s.seeded = t.seeded

/-- The value of a finite binary32 pattern (IEEE 754). -/
def f32rat (x : F32) : ℚ :=
  let e : Nat := x.toNat / 2 ^ 23 % 2 ^ 8
  let m : Nat := if e = 0 then x.toNat % 2 ^ 23 else x.toNat % 2 ^ 23 + 2 ^ 23
  (if x.getLsbD 31 then -1 else 1) * m * 2 ^ ((max e 1 : Nat) - 150 : Int)

/-- `r` is `v` rounded to binary64, to nearest with ties to even, overflow to infinity of v's sign (IEEE 754;
43_distributions.md R200 items 2, 4, 5). 2^1024 − 2^970 is the least magnitude that overflows. -/
def roundsTo (v : ℝ) (r : F64) : Prop :=
  if |v| < 2 ^ 1024 - 2 ^ 970 then
    isFinite r = true ∧ (∀ c, isFinite c = true → |(frat r : ℝ) - v| ≤ |(frat c : ℝ) - v|) ∧
      ∀ c, isFinite c = true → |(frat r : ℝ) - v| = |(frat c : ℝ) - v| → frat c = frat r ∨ ffrac r % 2 = 0
  else isInf r = true ∧ fsign r = decide (v < 0)

/-- `r` is the IEEE 754 sum of `a` and `b`, or their difference with `minus` (43_distributions.md R200; the standard's
cases are the model's reading, log entry 10): every class of operands, and which zero an exact zero is. -/
structure IsSum (minus : Bool) (a b r : F64) : Prop where
  nan : isNaN a = true ∨ isNaN b = true → isNaN r = true
  rounded : isFinite a = true → isFinite b = true →
    roundsTo (if minus then (frat a : ℝ) - frat b else frat a + frat b) r
  /-- −0 only when both terms are −0. -/
  zeroSign : isFinite a = true → isFinite b = true → (if minus then frat a = frat b else frat a = -frat b) →
    fsign r = (fsign a && (fsign b != minus))
  infLeft : isInf a = true → isFinite b = true → r = a
  infRight : isFinite a = true → isInf b = true → isInf r = true ∧ fsign r = (fsign b != minus)
  infSame : isInf a = true → isInf b = true → fsign a = (fsign b != minus) → r = a
  /-- ∞ − ∞. -/
  invalid : isInf a = true → isInf b = true → fsign a ≠ (fsign b != minus) → isNaN r = true

/-- `r` is the IEEE 754 product of `a` and `b` (43_distributions.md R200; log entry 10). -/
structure IsProduct (a b r : F64) : Prop where
  nan : isNaN a = true ∨ isNaN b = true → isNaN r = true
  rounded : isFinite a = true → isFinite b = true → roundsTo ((frat a : ℝ) * frat b) r
  infLeft : isInf a = true → isInf b = true ∨ (isFinite b = true ∧ frat b ≠ 0) → isInf r = true
  infRight : isFinite a = true → frat a ≠ 0 → isInf b = true → isInf r = true
  /-- ∞ × 0, in either order. -/
  invalid : (isInf a = true ∧ isFinite b = true ∧ frat b = 0) ∨ (isFinite a = true ∧ frat a = 0 ∧ isInf b = true) →
    isNaN r = true
  /-- Of every result, a zero and an infinity included. -/
  sign : isNaN r = false → fsign r = (fsign a != fsign b)

/-- `r` is the IEEE 754 quotient of `a` by `b` (43_distributions.md R200; log entry 10). -/
structure IsQuotient (a b r : F64) : Prop where
  nan : isNaN a = true ∨ isNaN b = true → isNaN r = true
  rounded : isFinite a = true → isFinite b = true → frat b ≠ 0 → roundsTo ((frat a : ℝ) / frat b) r
  byZero : isFinite a = true → frat a ≠ 0 → isFinite b = true → frat b = 0 → isInf r = true
  infLeft : isInf a = true → isFinite b = true → isInf r = true
  infRight : isFinite a = true → isInf b = true → isFinite r = true ∧ frat r = 0
  /-- ∞ ÷ ∞ and 0 ÷ 0. -/
  invalid : (isInf a = true ∧ isInf b = true) ∨
      (isFinite a = true ∧ frat a = 0 ∧ isFinite b = true ∧ frat b = 0) →
    isNaN r = true
  /-- Of every result, a zero and an infinity included. -/
  sign : isNaN r = false → fsign r = (fsign a != fsign b)

/-- `r` is the IEEE 754 square root of `a` (43_distributions.md R200; log entry 10). The root of either zero is that
zero. -/
structure IsRoot (a r : F64) : Prop where
  nan : isNaN a = true → isNaN r = true
  rounded : isFinite a = true → 0 ≤ frat a → roundsTo (Real.sqrt (frat a)) r
  zero : isFinite a = true → frat a = 0 → r = a
  inf : isInf a = true → fsign a = false → r = a
  invalid : (isFinite a = true ∧ frat a < 0) ∨ (isInf a = true ∧ fsign a = true) → isNaN r = true

end Sys2Proof.Machine
end

