-- ==== Sys2Proof/Certificates/Slice0/Obligations.lean ====
section
/-! DEFINITION. The statements for the provers. RegWrite(off, v) of the spec is `regWrite off v`, RegRead(off) is
`State.regRead`; a command's body on the state with its operands latched is `exec`, the rest of a suspended body is
`resume`. Each conclusion that is an equation with an updated state says what is written and that nothing else is. -/

open Sys2Proof Sys2Proof.Machine

/-! ## Encoding (30_encoding.md) -/

/-- R80, R82: the 37 encodings are exactly the words that decode, each to its own command. -/
def Obligations.DecodeAndEncodeAgree : Prop := ∀ (w : Word) (i : Instr), decode w = .ok i ↔ w = encode i

/-- R82: words written out from the opcode map, one or two of each family. -/
def Obligations.WrittenOutWordsDecode : Prop :=
  decode 0x00000001#32 = .ok .int32 ∧ decode 0x00000006#32 = .ok .byte ∧ decode 0x00000008#32 = .ok .bytes ∧
    decode 0x00000011#32 = .ok .w512Load ∧ decode 0x00000023#32 = .ok .rndcntS32 ∧
    decode 0x0000002A#32 = .ok .rndscU32 ∧ decode 0x00000030#32 = .ok .udbl ∧ decode 0x0000003A#32 = .ok .poisson

/-- R87, and 60_exceptions.md R242: a word is a command exactly when R87 does not reserve it; a reserved word written to
CMD changes only STATUS while no command is suspended, and is reentry while one is. -/
def Obligations.ReservedWordsAreIllegal : Prop :=
  (∀ w : Word, (∃ i, decode w = .ok i) ↔ ¬reservedWord w) ∧
    ∀ (s : State) (v : Word), reservedWord v →
      (s.Idle → regWrite 0x00 v s = .next { s with done := true, err := .illegal }) ∧
        (s.refilling = true → regWrite 0x00 v s = .next
          { s with
            cursor := 0, refilling := false, fillCount := 0, cont := .idle, err := .reentered, done := true })

/-! ## Steps and the register port (10_state.md, 20_memory.md, 40_word_engine.md) -/

/-- 30_encoding.md R81, 40_word_engine.md R100, 60_exceptions.md R245: a write to CMD at the head of the bus is one
step. It runs the decoded command on its latched operands with DONE and ERR cleared, or raises ILLEGAL, or, while a
command is suspended, aborts that command with REENTERED whatever the word. -/
def Obligations.StepRunsTheDecodedCommand : Prop :=
  ∀ (s : State) (v : Word) (rest : List Event), s.cfg.wellFormed = true →
    s.bus = .write .word s.cfg.base v :: rest →
      (s.refilling = false → ∀ i, decode v = .ok i → step s = exec i
        { s with
          bus := rest, done := false, err := .none, cmdOp := v.extractLsb' 0 8, op0 := s.arg0, op1 := s.arg1 }) ∧
        (s.refilling = false → (∀ i, decode v ≠ .ok i) → step s = .next
          { s with
            bus := rest, done := true, err := .illegal, refilling := false, fillCount := 0, cont := .idle }) ∧
        (s.refilling = true → step s = .next
          { s with
            bus := rest, done := true, err := .reentered, refilling := false, fillCount := 0, cont := .idle,
            cursor := 0 })

/-- 20_memory.md R67, R70: a step is the oldest access on the bus, a RegWrite or a RegRead at its offset from BASE, and a
read changes nothing but the value returned. The empty bus and the host's own store are the model's choice (log
entries 1, 2 and 12). -/
def Obligations.EachAccessIsOneStep : Prop :=
  ∀ (s : State) (rest : List Event), s.cfg.wellFormed = true →
    (s.bus = [] → step s = .next s) ∧
      (∀ off v, off % 4 = 0 → s.bus = .write .word (s.cfg.base + off) v :: rest →
        step s = regWrite off v { s with bus := rest }) ∧
      (∀ off, off % 4 = 0 → s.bus = .read .word (s.cfg.base + off) :: rest →
        step s = .next { s with bus := rest, rdata := s.regRead off }) ∧
      ∀ (a : BitVec 32) (v : Byte), s.bus = .hostStore a v :: rest →
        ∃ m, step s = .next { s with bus := rest, hm := m } ∧
          ∀ b, Memory.read m b = if b = a.toNat then some v else Memory.read s.hm b

/-- R48: what reads as 0, what ignores a write, and that an access which is not 32 bits wide at a word-aligned offset
has no step. -/
def Obligations.AccessesOutsideTheRegisters : Prop :=
  ∀ (s : State) (off : Nat) (v : Word),
    (off = 0x00 ∨ off = 0x28 ∨ off = 0x38 ∨ off = 0x3C ∨ 0x80 ≤ off → s.regRead off = 0) ∧
      (off = 0x04 ∨ off = 0x18 ∨ off = 0x1C ∨ off = 0x20 ∨ off = 0x24 ∨ off = 0x2C ∨ off = 0x30 ∨ off = 0x34 ∨
        off = 0x38 ∨ off = 0x3C ∨ 0x80 ≤ off → regWrite off v s = .next s) ∧
      ∀ (w : AccessWidth) (a : Nat) (rest : List Event), w ≠ .word ∨ ((a : Int) - s.cfg.base) % 4 ≠ 0 →
        (∃ r, step { s with bus := .write w a v :: rest } = .refused r) ∧
          ∃ r, step { s with bus := .read w a :: rest } = .refused r

/-- R35, R36: the STATUS word's fields and the codes of STATUS.ERR. -/
def Obligations.StatusReadsTheFlags : Prop :=
  ∀ s : State,
    s.regRead 0x04 = s.status ∧ s.status.getLsbD 0 = s.done ∧ s.status.getLsbD 1 = s.refilling ∧
      s.status.getLsbD 2 = s.seeded ∧ s.status.getLsbD 3 = !isNaN s.gaussSpare ∧
      (∀ k, 4 ≤ k ∧ k < 8 ∨ 12 ≤ k → s.status.getLsbD k = false) ∧
      (s.status.extractLsb' 8 4).toNat =
        match s.err with
        | .none => 0
        | .argRange => 1
        | .reentered => 2
        | .unsupported => 3
        | .illegal => 4
        | .unseeded => 5

/-- R38, R39, R43, R45: what the read-only registers read, and that a write to them has no effect; CURSOR, REFILLS, the
operand registers and WSTAGE beside them. -/
def Obligations.RegistersReadTheState : Prop :=
  ∀ s : State,
    s.regRead 0x18 = s.res.extractLsb' 0 32 ∧ s.regRead 0x1C = s.res.extractLsb' 32 32 ∧
      s.regRead 0x20 = BitVec.ofNat 32 s.cursor ∧ s.regRead 0x24 = BitVec.ofNat 32 (s.cfg.bufBytes / 4) ∧
      s.regRead 0x2C = BitVec.ofNat 32 s.fillCount ∧ s.regRead 0x30 = s.refills ∧
      (s.regRead 0x34 =
        match s.cfg.provider with
        | .well512 => 0
        | .extWord => 1
        | .extByte => 2) ∧
      s.regRead 0x08 = s.arg0.extractLsb' 0 32 ∧ s.regRead 0x0C = s.arg0.extractLsb' 32 32 ∧
      s.regRead 0x10 = s.arg1.extractLsb' 0 32 ∧ s.regRead 0x14 = s.arg1.extractLsb' 32 32 ∧
      (∀ k : Fin 16, s.regRead (0x40 + 4 * k.val) = s.wstage.get k) ∧
      ∀ off v, off = 0x18 ∨ off = 0x1C ∨ off = 0x20 ∨ off = 0x24 ∨ off = 0x2C ∨ off = 0x30 ∨ off = 0x34 →
        regWrite off v s = .next s

/-- R42, and the writes of R47: an operand or staging write replaces its half or its word, a read returns it, and
nothing else changes, the latched operands of a running command included. -/
def Obligations.OperandWritesReplaceTheirHalf : Prop :=
  ∀ (s : State) (v : Word),
    (∀ off, off = 0x08 ∨ off = 0x0C ∨ off = 0x10 ∨ off = 0x14 → ∃ t, regWrite off v s = .next t ∧ t.regRead off = v) ∧
      (∃ x : DWord, regWrite 0x08 v s = .next { s with arg0 := x } ∧ x.extractLsb' 0 32 = v ∧
      x.extractLsb' 32 32 = s.arg0.extractLsb' 32 32) ∧
      (∃ x : DWord, regWrite 0x0C v s = .next { s with arg0 := x } ∧ x.extractLsb' 32 32 = v ∧
        x.extractLsb' 0 32 = s.arg0.extractLsb' 0 32) ∧
      (∃ x : DWord, regWrite 0x10 v s = .next { s with arg1 := x } ∧ x.extractLsb' 0 32 = v ∧
        x.extractLsb' 32 32 = s.arg1.extractLsb' 32 32) ∧
      (∃ x : DWord, regWrite 0x14 v s = .next { s with arg1 := x } ∧ x.extractLsb' 32 32 = v ∧
        x.extractLsb' 0 32 = s.arg1.extractLsb' 0 32) ∧
      ∀ k : Fin 16, ∃ x : Vector Word 16, regWrite (0x40 + 4 * k.val) v s = .next { s with wstage := x } ∧
        ({ s with wstage := x } : State).regRead (0x40 + 4 * k.val) = v ∧
        ∀ j : Fin 16, x.get j = if j = k then v else s.wstage.get j

/-! ## Suspension, the fill port and reentry -/

/-- R104: a fill unit lands at its index (a word, or a byte of the little-endian view), the last one resumes the
suspended body behind the tail of Refill(), and a write with no refill pending has no effect. -/
def Obligations.FillPortStoresUnitsAndResumes : Prop :=
  ∀ (s : State) (v : Word),
    (s.refilling = false → regWrite 0x28 v s = .next s) ∧
      (s.Inv → s.refilling = true → ∃ b : List Word, b.length = s.buffer.length ∧
        (s.cfg.provider = .extWord → ∀ k, b.getD k 0 = if k = s.fillCount then v else s.buffer.getD k 0) ∧
        (s.cfg.provider = .extByte → ∀ k, (b.getD (k / 4) 0).extractLsb' (8 * (k % 4)) 8 =
          if k = s.fillCount then v.extractLsb' 0 8 else (s.buffer.getD (k / 4) 0).extractLsb' (8 * (k % 4)) 8) ∧
        ∀ u, u = (if s.cfg.provider = .extWord then s.cfg.words else 4 * s.cfg.words) →
          (s.fillCount + 1 ≠ u → regWrite 0x28 v s = .next { s with buffer := b, fillCount := s.fillCount + 1 }) ∧
            (s.fillCount + 1 = u → ∀ k, s.cont = .suspended k → regWrite 0x28 v s = resume k
              { s with
                buffer := b, refilling := false, fillCount := 0, cursor := s.cfg.words,
                refills := s.refills + 1 }))

/-- 20_memory.md R61, R75: the writes to FILL_DATA fill the buffer in ascending order, N words under EXT_WORD and 4N bytes
of the byte view, from bits 7:0 of each write, under EXT_BYTE; the last one resumes the suspended body. -/
def Obligations.FillsArriveInOrder : Prop :=
  ∀ (s : State) (k : Frame) (vs : List Word) (rest : List Event), s.Inv → s.cont = .suspended k → s.fillCount = 0 →
    s.bus = vs.map (fun v => Event.write .word (s.cfg.base + 0x28) v) ++ rest →
      (s.cfg.provider = .extWord → vs.length = s.cfg.words → runSteps s.cfg.words s = resume k
          { s with
            bus := rest, buffer := vs, refilling := false, fillCount := 0, cursor := s.cfg.words,
            refills := s.refills + 1 }) ∧
        (s.cfg.provider = .extByte → vs.length = 4 * s.cfg.words →
          ∃ b : List Word, b.length = s.cfg.words ∧
            (∀ j < 4 * s.cfg.words,
              (b.getD (j / 4) 0).extractLsb' (8 * (j % 4)) 8 = (vs.getD j 0).extractLsb' 0 8) ∧
            runSteps (4 * s.cfg.words) s = resume k
              { s with
                bus := rest, buffer := b, refilling := false, fillCount := 0, cursor := s.cfg.words,
                refills := s.refills + 1 })

/-- 40_word_engine.md R106, with the vectors a Well512 unit gives: a command that completes under WELL512 completes
under an external provider that answers each refill with the unit's next N outputs, after the same refills, with the
same RES, STATUS, host memory, buffer and caches. -/
def Obligations.ProviderIsAnOracle : Prop :=
  ∀ (i : Instr) (s u : State) (w : Well), s.cfg.wellFormed = true → s.cfg.provider ≠ .well512 → i ≠ .w512Seed64 →
    i ≠ .w512Load → i ≠ .w512Next → exec i (s.withUnit w) = .next u →
    ∃ n, u.refills = s.refills + BitVec.ofNat 32 n ∧ u.cont = .idle ∧ u.done = true ∧
      answerFills (unitFills s.cfg.words n w) (exec i s) = .next
        { u with cfg := s.cfg, wstate := s.wstate, windex := s.windex, seeded := s.seeded }

/-- R105: while a command is suspended the registers read as ever and show no buffer word, operand and staging writes
change nothing of the suspended command, and a CMD write is reentry. -/
def Obligations.SuspendedCommandIsUntouched : Prop :=
  ∀ s : State, s.refilling = true →
    (∀ off v, off ≠ 0x00 → off ≠ 0x28 → ∃ t, regWrite off v s = .next t ∧
      t = { s with arg0 := t.arg0, arg1 := t.arg1, wstage := t.wstage }) ∧
      (∀ off b, ({ s with buffer := b } : State).regRead off = s.regRead off) ∧
      ∀ v, ∃ t, regWrite 0x00 v s = .next t ∧ t.err = .reentered ∧ t.cont = .idle

/-! ## Reset and the invariants -/

/-- 10_state.md R52, 70_reset_and_hazards.md R270: after a reset every element to which the spec gives a value has it;
the parameters and host memory are not touched. -/
def Obligations.ResetSetsEveryElement : Prop :=
  (∀ s : State, ∃ t, perform .reset s = .next t ∧ t.AtReset s.cfg ∧ t.buffer.length = s.cfg.words ∧ t.hm = s.hm) ∧
    ∀ c : Config, (State.resetOf c).AtReset c ∧ (State.resetOf c).buffer.length = c.words

/-- 70_reset_and_hazards.md R271: a reset while a command is suspended discards it with no completion reported, host
memory stays written, and a later FILL_DATA write has no effect. -/
def Obligations.ResetDiscardsASuspendedCommand : Prop :=
  ∀ (s : State) (v : Word), s.refilling = true →
    ∃ t, perform .reset s = .next t ∧ t.cont = .idle ∧ t.refilling = false ∧ t.done = false ∧ t.hm = s.hm ∧
      regWrite 0x28 v t = .next t

/-- The reset state of every instance meets the invariants. -/
def Obligations.ResetMeetsTheInvariants : Prop := ∀ c : Config, c.wellFormed = true → (State.resetOf c).Inv

/-- 10_state.md R50 (items 1 to 5): every step, from any state that meets the invariants, keeps them. -/
def Obligations.StepKeepsTheInvariants : Prop := ∀ s t : State, s.Inv → step s = .next t → t.Inv

/-- 00_scope.md R7: no step changes the parameters of the instance. -/
def Obligations.StepKeepsTheParameters : Prop := ∀ s t : State, step s = .next t → t.cfg = s.cfg

/-- 10_state.md R50 item 6, 70_reset_and_hazards.md R280: once a command has been issued and until a reset, the machine
is done or suspended; under WELL512 a command is done within its CMD write. -/
def Obligations.CommandsEndDoneOrSuspended : Prop :=
  ∀ (s t : State) (e : Event) (rest : List Event), s.Inv → s.bus = e :: rest → step s = .next t →
    ((∃ v, e = .write .word s.cfg.base v) ∨ (s.answered ∧ e ≠ .reset) → t.answered) ∧
      (s.cfg.provider = .well512 → (∃ v, e = .write .word s.cfg.base v) → t.done = true)

/-- Under an external provider every access of the interface has a next state: no step stops and no loop runs for ever
within a step (70_reset_and_hazards.md R285). -/
def Obligations.ExternalProviderStepsAlwaysAnswer : Prop :=
  ∀ (s : State) (e : Event) (rest : List Event), s.Inv → s.cfg.provider ≠ .well512 → s.bus = e :: rest →
    (∀ w a v, e = .write w a v → w = .word ∧ ((a : Int) - s.cfg.base) % 4 = 0) →
    (∀ w a, e = .read w a → w = .word ∧ ((a : Int) - s.cfg.base) % 4 = 0) → ∃ t, step s = .next t

/-- Every command but those with a rejection loop answers in every state of an instance (70_reset_and_hazards.md R285:
only the loops of SampleMax and UDBL_RANGE can run for ever). -/
def Obligations.LoopFreeCommandsAlwaysAnswer : Prop :=
  ∀ (i : Instr) (s : State), s.cfg.wellFormed = true → samplerArgs i s = none → i ≠ .udblRange →
    ∃ t, exec i s = .next t

/-! ## What commands may change and how they end -/

/-- 10_state.md R22 to R32, 43_distributions.md R215: the frame of every command; BYTES stores within its range only
(40_word_engine.md R123). That cmd_op, op0 and op1 stay after a command that has ended is the model's choice, log entry
15 (the spec: not meaningful then, R34; any value, U3); `bus` and `rdata` are its own fields, log entries 1 and 2. -/
def Obligations.WhatACommandMayChange : Prop :=
  ∀ (i : Instr) (s t : State), exec i s = .next t →
    (t.cfg = s.cfg ∧ t.arg0 = s.arg0 ∧ t.arg1 = s.arg1 ∧ t.wstage = s.wstage ∧ t.cmdOp = s.cmdOp ∧ t.op0 = s.op0 ∧
      t.op1 = s.op1 ∧ t.bus = s.bus ∧ t.rdata = s.rdata) ∧
      (t.res ≠ s.res → hasResult i = true ∧ t.err = .none ∧ t.done = true ∧ t.cont = .idle) ∧
      (i ≠ .bytes → t.hm = s.hm) ∧
      (i = .bytes → ∀ a, a < opU32 s.op0 ∨ opU32 s.op0 + opU32 s.op1 ≤ a →
        Memory.read t.hm a = Memory.read s.hm a) ∧
      (i ≠ .w512Seed64 → i ≠ .w512Load → t.seeded = s.seeded ∧
        (i ≠ .bool → t.bitCache = s.bitCache) ∧
        (i ≠ .byte → samplerArgs i s = none → t.byteCache = s.byteCache) ∧
        (i ≠ .uint16 → samplerArgs i s = none → t.shortCache = s.shortCache) ∧
        (i ≠ .gauss → i ≠ .gaussMs → t.gaussSpare = s.gaussSpare) ∧
        (s.cfg.provider ≠ .well512 → i ≠ .w512Next → t.wstate = s.wstate ∧ t.windex = s.windex)) ∧
      (s.cfg.provider ≠ .well512 → t.buffer = s.buffer ∧ t.refills = s.refills)

/-- The frame of the rest of a suspended body, as for the command it belongs to (10_state.md R22 to R31): RES stays for
BYTES and REFILL (R86, result none), and the rest of BYTES stores within what is left of its range only. That cmd_op,
op0 and op1 stay after a command that has ended is the model's choice, log entry 15 (the spec: not meaningful then, R34;
any value, U3); `bus` and `rdata` are its own fields, log entries 1 and 2. -/
def Obligations.WhatAResumptionMayChange : Prop :=
  ∀ (k : Frame) (s t : State), resume k s = .next t →
    (t.cfg = s.cfg ∧ t.arg0 = s.arg0 ∧ t.arg1 = s.arg1 ∧ t.wstage = s.wstage ∧ t.cmdOp = s.cmdOp ∧ t.op0 = s.op0 ∧
      t.op1 = s.op1 ∧ t.bus = s.bus ∧ t.rdata = s.rdata ∧ t.seeded = s.seeded) ∧
      (t.res ≠ s.res →
        k ≠ .refill ∧ (∀ d c, k ≠ .bytes d c) ∧ t.err = .none ∧ t.done = true ∧ t.cont = .idle) ∧
      ((∀ d c, k ≠ .bytes d c) → t.hm = s.hm) ∧
      (∀ d c, k = .bytes d c → ∀ a, a < d ∨ d + c ≤ a → Memory.read t.hm a = Memory.read s.hm a) ∧
      (k ≠ .bool → t.bitCache = s.bitCache) ∧
      (k ≠ .byte → (∀ p x ty, k ≠ .sample p x ty) → t.byteCache = s.byteCache) ∧
      (k ≠ .uint16 → (∀ p x ty, k ≠ .sample p x ty) → t.shortCache = s.shortCache) ∧
      ((∀ p, k ≠ .gaussU p) → (∀ u p, k ≠ .gaussV u p) → t.gaussSpare = s.gaussSpare) ∧
      (s.cfg.provider ≠ .well512 →
        t.wstate = s.wstate ∧ t.windex = s.windex ∧ t.buffer = s.buffer ∧ t.refills = s.refills)

/-- 60_exceptions.md R244, R243: with an operand outside its domain (the ARG_RANGE row of R240) a command changes
nothing but STATUS, and ARG_RANGE is raised in no other case, nor by the rest of a body that has drawn. -/
def Obligations.ArgumentErrorsChangeOnlyStatus : Prop :=
  (∀ (i : Instr) (s : State), argError i s → exec i s = .next
    { s with refilling := false, fillCount := 0, cont := .idle, err := .argRange, done := true }) ∧
    (∀ (i : Instr) (s t : State), s.err = .none → exec i s = .next t → t.err = .argRange → argError i s) ∧
    ∀ (k : Frame) (s t : State), s.err = .none → resume k s = .next t → t.err ≠ .argRange

/-- 60_exceptions.md R241: the errors each command can end with. -/
def Obligations.ErrorsPerCommand : Prop :=
  ∀ (i : Instr) (s t : State), s.err = .none → exec i s = .next t → t.err ≠ .none →
    t.done = true ∧ t.cont = .idle ∧
      ((t.err = .argRange ∧ argError i s) ∨
        (t.err = .unseeded ∧ s.seeded = false ∧ (s.cfg.provider = .well512 ∨ i = .w512Next) ∧ i ≠ .w512Seed64 ∧
          i ≠ .w512Load ∧ i ≠ .poisson) ∨
        (t.err = .unsupported ∧ i = .poisson))

/-- 40_word_engine.md R101, R103; 60_exceptions.md R246: a command whose next draw needs a refill. Under an external
provider it suspends, and its rest is the command itself; under a seeded WELL512 it runs as the command does on the
refilled buffer; unseeded, it aborts with an empty buffer and nothing else changed. -/
def Obligations.ADrawRefillsFirst : Prop :=
  ∀ (i : Instr) (s : State), s.cfg.wellFormed = true → firstDrawRefills i s →
    (s.cfg.provider ≠ .well512 → ∃ k, exec i s = .next
        { s with refilling := true, fillCount := 0, cont := .suspended k } ∧
      ∀ t : State, t.op0 = s.op0 → t.op1 = s.op1 → t.gaussSpare = s.gaussSpare → resume k t = exec i t) ∧
      (s.cfg.provider = .well512 → s.seeded = true → exec i s = exec i
        { s with
          buffer := (w512Generate s.cfg.words ⟨s.wstate, s.windex⟩).1
          wstate := (w512Generate s.cfg.words ⟨s.wstate, s.windex⟩).2.words
          windex := (w512Generate s.cfg.words ⟨s.wstate, s.windex⟩).2.index
          cursor := s.cfg.words, refilling := false, fillCount := 0, refills := s.refills + 1 }) ∧
      (s.cfg.provider = .well512 → s.seeded = false → exec i s = .next
        { s with
          cursor := 0, refilling := false, fillCount := 0, cont := .idle, err := .unseeded, done := true })

/-! ## The word engine (40_word_engine.md) -/

/-- R110, R116, R117: INT32 and UINT32 take buffer[cursor − 1] and differ only in RES[63:32]. -/
def Obligations.WordDrawsTakeTheTopWord : Prop :=
  ∀ s : State, 1 ≤ s.cursor →
    exec .int32 s = .next
        { s with
          cursor := s.cursor - 1, res := (s.buffer.getD (s.cursor - 1) 0).signExtend 64, err := .none, done := true,
          cont := .idle } ∧
      exec .uint32 s = .next
        { s with
          cursor := s.cursor - 1, res := (s.buffer.getD (s.cursor - 1) 0).zeroExtend 64, err := .none, done := true,
          cont := .idle }

/-- R111, R118, R119: INT64 and UINT64 take two words, the one at the lower index as the high half. -/
def Obligations.DoubleDrawsTakeTwoWords : Prop :=
  ∀ (s : State) (i : Instr), i = .int64 ∨ i = .uint64 → 2 ≤ s.cursor → exec i s = .next
    { s with
      cursor := s.cursor - 2, res := s.buffer.getD (s.cursor - 2) 0 ++ s.buffer.getD (s.cursor - 1) 0, err := .none,
      done := true, cont := .idle }

/-- R112, R120 to R122: with a field cached, BOOL, BYTE and UINT16 return the low field and shift it out; no word is
drawn. -/
def Obligations.CachedFieldsComeFirst : Prop :=
  ∀ s : State,
    (2 ≤ s.bitCache.toNat → exec .bool s = .next
        { s with
          bitCache := s.bitCache >>> 1, res := (s.bitCache.extractLsb' 0 1).zeroExtend 64, err := .none, done := true,
          cont := .idle }) ∧
      (0x100 ≤ s.byteCache.toNat → exec .byte s = .next
        { s with
          byteCache := s.byteCache >>> 8, res := (s.byteCache.extractLsb' 0 8).zeroExtend 64, err := .none,
          done := true, cont := .idle }) ∧
      (0x10000 ≤ s.shortCache.toNat → exec .uint16 s = .next
        { s with
          shortCache := s.shortCache >>> 16, res := (s.shortCache.extractLsb' 0 16).zeroExtend 64, err := .none,
          done := true, cont := .idle })

/-- R112, R120 to R122: with no field cached, BOOL, BYTE and UINT16 return the low field of a fresh word and cache the
rest under a sentinel. -/
def Obligations.FreshFieldsSeedTheCache : Prop :=
  ∀ (s : State) (w : Word), 1 ≤ s.cursor → w = s.buffer.getD (s.cursor - 1) 0 →
    (s.bitCache.toNat < 2 → exec .bool s = .next
        { s with
          cursor := s.cursor - 1, bitCache := (w >>> 1) ||| 0x80000000#32, res := (w.extractLsb' 0 1).zeroExtend 64,
          err := .none, done := true, cont := .idle }) ∧
      (s.byteCache.toNat < 0x100 → exec .byte s = .next
        { s with
          cursor := s.cursor - 1, byteCache := (w >>> 8) ||| 0x01000000#32, res := (w.extractLsb' 0 8).zeroExtend 64,
          err := .none, done := true, cont := .idle }) ∧
      (s.shortCache.toNat < 0x10000 → exec .uint16 s = .next
        { s with
          cursor := s.cursor - 1, shortCache := (w >>> 16) ||| 0x00010000#32,
          res := (w.extractLsb' 0 16).zeroExtend 64, err := .none, done := true, cont := .idle })

/-- R113 to R115: from an empty cache, one word gives its 32 bits, its 4 bytes or its 2 halfwords in ascending order,
and no second word is drawn for them. -/
def Obligations.OneWordGivesAllItsFields : Prop :=
  ∀ (s : State) (w : Word), 1 ≤ s.cursor → w = s.buffer.getD (s.cursor - 1) 0 →
    (s.bitCache.toNat < 2 → ∀ j < 32, ∃ t, execAll (List.replicate (j + 1) .bool) s = .next t ∧
        t.res = (w.extractLsb' j 1).zeroExtend 64 ∧ t.cursor = s.cursor - 1) ∧
      (s.byteCache.toNat < 0x100 → ∀ j < 4, ∃ t, execAll (List.replicate (j + 1) .byte) s = .next t ∧
        t.res = (w.extractLsb' (8 * j) 8).zeroExtend 64 ∧ t.cursor = s.cursor - 1) ∧
      (s.shortCache.toNat < 0x10000 → ∀ j < 2, ∃ t, execAll (List.replicate (j + 1) .uint16) s = .next t ∧
        t.res = (w.extractLsb' (16 * j) 16).zeroExtend 64 ∧ t.cursor = s.cursor - 1)

/-- R126: UINT32 commands after a refill return the buffer from its highest index down to 0. -/
def Obligations.DrawOrderIsTheReverseOfTheFill : Prop :=
  ∀ s : State, s.cursor = s.cfg.words → ∀ j < s.cfg.words,
    ∃ t, execAll (List.replicate (j + 1) .uint32) s = .next t ∧
      t.res = (s.buffer.getD (s.cfg.words - 1 - j) 0).zeroExtend 64 ∧ t.cursor = s.cfg.words - 1 - j ∧
      t.buffer = s.buffer

/-- R123: BYTES with enough bytes in the buffer. The bytes written are dst to dst + count − 1, every other byte of host
memory reads as before, and a partly used word is discarded. -/
def Obligations.BytesWithinTheBuffer : Prop :=
  ∀ (s : State) (dst count : Nat), dst = opU32 s.op0 → count = opU32 s.op1 → dst + count ≤ 2 ^ 32 →
    count ≤ 4 * s.cursor → ∃ m, exec .bytes s = .next
        { s with hm := m, cursor := (4 * s.cursor - count) / 4, err := .none, done := true, cont := .idle } ∧
      ∀ a, Memory.read m a =
        if dst ≤ a ∧ a < dst + count then some (s.bufByte (4 * s.cursor - count + (a - dst)))
        else Memory.read s.hm a

/-- R123, R101: BYTES that needs more than the buffer holds, under an external provider. It writes what is left,
empties the buffer and suspends, and its rest is BYTES of the advanced operands. -/
def Obligations.BytesSuspendsAtARefill : Prop :=
  ∀ (s : State) (dst count : Nat), s.cfg.provider ≠ .well512 → dst = opU32 s.op0 → count = opU32 s.op1 →
    dst + count ≤ 2 ^ 32 → 4 * s.cursor < count → ∃ m k, exec .bytes s = .next
        { s with hm := m, cursor := 0, refilling := true, fillCount := 0, cont := .suspended k } ∧
      (∀ a, Memory.read m a =
        if dst ≤ a ∧ a < dst + 4 * s.cursor then some (s.bufByte (a - dst)) else Memory.read s.hm a) ∧
      ∀ t : State, opU32 t.op0 = dst + 4 * s.cursor → opU32 t.op1 = count - 4 * s.cursor →
        resume k t = exec .bytes t

/-- R123, R103: BYTES that needs more than the buffer holds, under WELL512. Seeded, it writes what is left, refills and
completes as BYTES of the advanced operands does; unseeded, the bytes written stay and it aborts. -/
def Obligations.BytesAcrossInternalRefills : Prop :=
  ∀ (s : State) (dst count : Nat), s.cfg.wellFormed = true → s.cfg.provider = .well512 → dst = opU32 s.op0 →
    count = opU32 s.op1 → dst + count ≤ 2 ^ 32 → 4 * s.cursor < count → ∃ m,
      (∀ a, Memory.read m a =
        if dst ≤ a ∧ a < dst + 4 * s.cursor then some (s.bufByte (a - dst)) else Memory.read s.hm a) ∧
        (s.seeded = true → ∃ u, exec .bytes
            { s with
              hm := m
              buffer := (w512Generate s.cfg.words ⟨s.wstate, s.windex⟩).1
              wstate := (w512Generate s.cfg.words ⟨s.wstate, s.windex⟩).2.words
              windex := (w512Generate s.cfg.words ⟨s.wstate, s.windex⟩).2.index
              cursor := s.cfg.words, refilling := false, fillCount := 0, refills := s.refills + 1
              op0 := BitVec.ofNat 64 (dst + 4 * s.cursor), op1 := BitVec.ofNat 64 (count - 4 * s.cursor) } = .next u ∧
          u.done = true ∧ u.err = .none ∧ exec .bytes s = .next { u with op0 := s.op0, op1 := s.op1 }) ∧
        (s.seeded = false → exec .bytes s = .next
          { s with
            hm := m, cursor := 0, refilling := false, fillCount := 0, cont := .idle, err := .unseeded,
            done := true })

/-- R124, R103: REFILL under each kind of provider. -/
def Obligations.RefillReplacesTheBuffer : Prop :=
  ∀ s : State,
    (s.cfg.provider = .well512 → s.seeded = true → exec .refill s = .next
        { s with
          buffer := (w512Generate s.cfg.words ⟨s.wstate, s.windex⟩).1
          wstate := (w512Generate s.cfg.words ⟨s.wstate, s.windex⟩).2.words
          windex := (w512Generate s.cfg.words ⟨s.wstate, s.windex⟩).2.index
          cursor := s.cfg.words, refilling := false, fillCount := 0, refills := s.refills + 1, err := .none,
          done := true, cont := .idle }) ∧
      (s.cfg.provider = .well512 → s.seeded = false → exec .refill s = .next
        { s with
          cursor := 0, refilling := false, fillCount := 0, cont := .idle, err := .unseeded, done := true }) ∧
      (s.cfg.provider ≠ .well512 → ∃ k, exec .refill s = .next
          { s with refilling := true, fillCount := 0, cont := .suspended k } ∧
        ∀ t : State, resume k t = .next { t with err := .none, done := true, cont := .idle })

/-! ## The Well512 unit (41_well512.md) -/

/-- R151: the step function, every value by its formula. -/
def Obligations.Well512StepFormula : Prop :=
  ∀ (w : Well) (st : Nat → Word), (∀ k, st k = w.words.toList.getD (k % 16) 0) →
    let i := w.index.val
    let b := st i ^^^ st (i + 13) ^^^ (st i <<< 16) ^^^ (st (i + 13) <<< 15)
    let c2 := st (i + 9) ^^^ (st (i + 9) >>> 11)
    let d := b ^^^ c2 ^^^ (((b ^^^ c2) <<< 5) &&& 0xDA442D20#32)
    let a2 := st (i + 15)
    let r := a2 ^^^ b ^^^ d ^^^ (a2 <<< 2) ^^^ (b <<< 18) ^^^ (c2 <<< 28)
    (w512Next w).1 = r ∧ (w512Next w).2.index.val = (i + 15) % 16 ∧
      ∀ k : Fin 16, (w512Next w).2.words.get k =
        if k.val = (i + 15) % 16 then r else if k.val = i then b ^^^ c2 else st k.val

/-- R152, R153: a refill's words are the successive outputs, index 0 first; from index 0 the unit's index counts down
modulo 16, and each output is the state word at the new index. -/
def Obligations.GenerateGivesSuccessiveOutputs : Prop :=
  ∀ (n : Nat) (w : Well) (at' : Nat → Well), at' 0 = w → (∀ k, at' (k + 1) = (w512Next (at' k)).2) →
    (w512Generate n w).1.length = n ∧ (w512Generate n w).2 = at' n ∧
      (∀ k < n, (w512Generate n w).1.getD k 0 = (w512Next (at' k)).1) ∧
      ∀ k, w.index = 0 → (at' k).index.val = (16 - k % 16) % 16 ∧
        (w512Next (at' k)).1 = (at' (k + 1)).words.get (at' (k + 1)).index

/-- R156: the all-zero state is a fixed point, its refills are zeros for ever, and W512_LOAD accepts it. -/
def Obligations.ZeroStateStaysZero : Prop :=
  (∀ (n : Nat) (w : Well), (∀ k, w.words.get k = 0) →
    (w512Next w).1 = 0 ∧ (∀ k, (w512Next w).2.words.get k = 0) ∧ (w512Generate n w).1 = List.replicate n 0 ∧
      ∀ k, (w512Generate n w).2.words.get k = 0) ∧
    ∀ s : State, (∀ k, s.wstage.get k = 0) →
      ∃ t, exec .w512Load s = .next t ∧ t.err = .none ∧ t.seeded = true ∧ ∀ k, t.wstate.get k = 0

/-- R158, R160, R161: W512_SEED64 slices the digest of the seed's 8 little-endian bytes into 16 little-endian words;
under WELL512 it also empties what holds words of the old sequence. -/
def Obligations.SeedingSlicesTheDigest : Prop :=
  ∀ (s : State) (m : Vector Byte 8), (∀ j : Fin 8, m.get j = s.op0.extractLsb' (8 * j.val) 8) →
    encode .w512Seed64 = 0x10#32 ∧ ∃ ws : Vector Word 16,
      (∀ (k : Fin 16) (h : Vector Byte 64), h = digest512 s.cfg.digest m →
        ws.get k = h[4 * k.val + 3] ++ h[4 * k.val + 2] ++ h[4 * k.val + 1] ++ h[4 * k.val]) ∧
        (s.cfg.provider ≠ .well512 → exec .w512Seed64 s = .next
          { s with
            wstate := ws, windex := 0, seeded := true, err := .none, done := true, cont := .idle }) ∧
        (s.cfg.provider = .well512 → exec .w512Seed64 s = .next
          { s with
            wstate := ws, windex := 0, seeded := true, cursor := 0, bitCache := 0, byteCache := 0, shortCache := 0,
            gaussSpare := 0x7FF8000000000000#64, err := .none, done := true, cont := .idle })

/-- R159, R160, R162: W512_LOAD takes the 16 staging words, unchecked and unchanged. -/
def Obligations.LoadTakesTheStagingWords : Prop :=
  ∀ s : State, encode .w512Load = 0x11#32 ∧
    (s.cfg.provider ≠ .well512 → exec .w512Load s = .next
        { s with
          wstate := s.wstage, windex := 0, seeded := true, err := .none, done := true, cont := .idle }) ∧
      (s.cfg.provider = .well512 → exec .w512Load s = .next
        { s with
          wstate := s.wstage, windex := 0, seeded := true, cursor := 0, bitCache := 0, byteCache := 0,
          shortCache := 0, gaussSpare := 0x7FF8000000000000#64, err := .none, done := true, cont := .idle })

/-- R163: W512_NEXT returns one output and touches neither buffer nor caches; unseeded, it changes only STATUS. -/
def Obligations.NextReadsTheUnit : Prop :=
  ∀ (s : State) (w : Well), w = ⟨s.wstate, s.windex⟩ → encode .w512Next = 0x12#32 ∧
    (s.seeded = true → exec .w512Next s = .next
        { s with
          wstate := (w512Next w).2.words, windex := (w512Next w).2.index, res := (w512Next w).1.zeroExtend 64,
          err := .none, done := true, cont := .idle }) ∧
      (s.seeded = false → exec .w512Next s = .next
        { s with refilling := false, fillCount := 0, cont := .idle, err := .unseeded, done := true })

/-- R164: seeding under WELL512 with one seed starts one stream, and a command on two states of one stream (with equal
operands) gives the same result and bytes and leaves them on one stream. -/
def Obligations.SeededSequencesAreDetermined : Prop :=
  (∀ s t : State, s.cfg = t.cfg → s.cfg.provider = .well512 → s.op0 = t.op0 →
    ∃ s' t', exec .w512Seed64 s = .next s' ∧ exec .w512Seed64 t = .next t' ∧ s'.SameStream t') ∧
    ∀ (i : Instr) (s t : State), s.cfg.provider = .well512 → s.cfg.wellFormed = true → s.SameStream t →
      s.op0 = t.op0 → s.op1 = t.op1 → (i = .w512Load → s.wstage = t.wstage) →
      (exec i s = .fault .diverges ∧ exec i t = .fault .diverges) ∨
        ∃ s' t', exec i s = .next s' ∧ exec i t = .next t' ∧ s'.SameStream t' ∧ s'.done = true ∧ t'.done = true ∧
          s'.err = t'.err ∧ (s'.err = .none → hasResult i = true → s'.res = t'.res) ∧
          (i = .bytes → s'.err = .none → ∀ a, opU32 s.op0 ≤ a → a < opU32 s.op0 + opU32 s.op1 →
            Memory.read s'.hm a = Memory.read t'.hm a)

/-! ## The rejection sampler (42_sampler.md) -/

/-- R171, R172: the model's plan of SampleMax(mx, D) has the count, the least width and the usable range of R171, the
special case included, and rejects fewer than half of the draws. -/
def Obligations.SamplePlanIsTheSpecs : Prop :=
  ∀ mx d : Nat, d = 32 ∨ d = 64 → mx < 2 ^ d →
    (samplePlan mx d).count = mx + 1 ∧ leastWidth mx (samplePlan mx d).width ∧ (samplePlan mx d).width.bits ≤ d ∧
      (samplePlan mx d).usable = usableDraws mx (samplePlan mx d).width ∧
      (∀ m, m % (mx + 1) = 0 → m ≤ 2 ^ (samplePlan mx d).width.bits → m ≤ (samplePlan mx d).usable) ∧
      mx + 1 ≤ (samplePlan mx d).usable ∧ (samplePlan mx d).usable ≤ 2 ^ (samplePlan mx d).width.bits ∧
      2 ^ (samplePlan mx d).width.bits < 2 * (samplePlan mx d).usable ∧
      (mx + 1 = 2 ^ d → (samplePlan mx d).width.bits = d)

/-- R171, R173 to R186: each of the 14 sampler commands completes on a first draw that needs no refill and is
accepted. -/
def Obligations.SamplersCompleteOnAnAcceptedDraw : Prop :=
  ∀ (i : Instr) (s : State) (mx : Nat) (start : Int) (ty : IntType) (w : DrawWidth),
    samplerArgs i s = some (mx, start, ty) → ¬argError i s → leastWidth mx w → w.ready s →
    (w.raw s).1 < usableDraws mx w → exec i s = .next
      { (w.raw s).2 with
        res := ty.place (start + ((w.raw s).1 % (mx + 1) : Nat)), err := .none, done := true, cont := .idle }

/-- R171: the rejection loop. After any number of rejected draws (refills by the internal unit among them) the first
accepted one completes the command. -/
def Obligations.SamplersRedrawUntilAccepted : Prop :=
  ∀ (i : Instr) (s : State) (mx : Nat) (start : Int) (ty : IntType) (w : DrawWidth) (n : Nat) (f : Nat → State)
    (x : Nat → Nat),
    s.Inv → samplerArgs i s = some (mx, start, ty) → ¬argError i s → leastWidth mx w → f 0 = s →
    (∀ j ≤ n, drawWidth w (f j) = .got (x j) (f (j + 1))) → (∀ j < n, usableDraws mx w ≤ x j) →
    x n < usableDraws mx w → exec i s = .next
      { f (n + 1) with
        res := ty.place (start + (x n % (mx + 1) : Nat)), err := .none, done := true, cont := .idle }

/-- R170, R179 to R186: a sampler command that completes returns a value from start to start + mx, which lies in its
type, so no sum wraps. -/
def Obligations.SampledResultsLieInRange : Prop :=
  ∀ (i : Instr) (s t : State) (mx : Nat) (start : Int) (ty : IntType),
    samplerArgs i s = some (mx, start, ty) → ¬argError i s →
    ty.least ≤ start ∧ start + mx ≤ ty.greatest ∧
      (exec i s = .next t → t.err = .none → t.cont = .idle → ∃ r : Int, start ≤ r ∧ r ≤ start + mx ∧
        t.res = ty.place r)

/-! ## The distributions (43_distributions.md) -/

/-- R200 item 6, and 00_scope.md R15: comparison is that of the values; with a NaN it is false; infinities bound the
finite values and equal themselves. The standard's cases are the model's reading, log entry 10 (PRESUMED). -/
def Obligations.ComparisonOrdersTheValues : Prop :=
  ∀ a b : F64,
    (isFinite a = true → isFinite b = true →
      (flt a b = true ↔ frat a < frat b) ∧ (fle a b = true ↔ frat a ≤ frat b)) ∧
      (isNaN a = true ∨ isNaN b = true → flt a b = false ∧ fle a b = false) ∧
      (isFinite a = true → isInf b = true →
        flt a b = !fsign b ∧ fle a b = !fsign b ∧ flt b a = fsign b ∧ fle b a = fsign b) ∧
      (isInf a = true → isInf b = true →
        flt a b = (fsign a && !fsign b) ∧ fle a b = (fsign a || !fsign b))

/-- R200 items 2 to 6, and 00_scope.md R15: add, subtract, multiply, divide and square root of any operands: the exact
result rounded once, to nearest with ties to even; the sign of every zero; infinities, a zero divisor, invalid
operations and NaN operands. The standard itself is written out by the model, log entry 10 (PRESUMED). -/
def Obligations.ArithmeticRoundsToNearest : Prop :=
  ∀ a b : F64, IsSum false a b (fadd a b) ∧ IsSum true a b (fsub a b) ∧ IsProduct a b (fmul a b) ∧
    IsQuotient a b (fdiv a b) ∧ IsRoot a (fsqrt a)

/-- R201, R202: UDBL returns x / 2^53 exactly, x the low 53 bits of a 64-bit draw. -/
def Obligations.UniformDoubleIsExact : Prop :=
  ∀ (s : State) (x : Nat), 2 ≤ s.cursor →
    x = (s.buffer.getD (s.cursor - 2) 0 ++ s.buffer.getD (s.cursor - 1) 0).toNat % 2 ^ 53 →
    ∃ r : F64, exec .udbl s = .next
        { s with cursor := s.cursor - 2, res := r, err := .none, done := true, cont := .idle } ∧
      r = s.uniformAt (s.cursor - 2) ∧ isFinite r = true ∧ fsign r = false ∧ frat r = (x : ℚ) / 2 ^ 53

/-- R203, R204: UFLT returns x / 2^24 exactly in binary32, x the low 24 bits of one word, zero-extended to RES. -/
def Obligations.UniformFloatIsExact : Prop :=
  ∀ (s : State) (x : Nat), 1 ≤ s.cursor → x = (s.buffer.getD (s.cursor - 1) 0).toNat % 2 ^ 24 →
    ∃ r : F32, exec .uflt s = .next
        { s with
          cursor := s.cursor - 1, res := r.zeroExtend 64, err := .none, done := true, cont := .idle } ∧
      r.getLsbD 31 = false ∧ r.toNat / 2 ^ 23 % 2 ^ 8 ≠ 255 ∧ f32rat r = (x : ℚ) / 2 ^ 24

/-- R205: UDBL_RANGE returns len × u + start for the first u that puts it below the end. -/
def Obligations.RangedDoubleRedrawsUntilBelowTheEnd : Prop :=
  ∀ (s : State) (n : Nat) (f : Nat → State) (u r : Nat → F64), s.Inv → ¬argError .udblRange s → f 0 = s →
    (∀ j ≤ n, uniformDouble (f j) = .got (u j) (f (j + 1))) →
    (∀ j, r j = fadd (fmul (fsub s.op1 s.op0) (u j)) s.op0) → (∀ j < n, flt (r j) s.op1 = false) →
    flt (r n) s.op1 = true → exec .udblRange s = .next
      { f (n + 1) with res := r n, err := .none, done := true, cont := .idle }

/-- R205: UDBL_RANGE completes on a first draw that needs no refill and stays below the end; and whatever it completes
with is below the end. -/
def Obligations.RangedDoubleStaysBelowTheEnd : Prop :=
  ∀ s : State, ¬argError .udblRange s →
    (∀ r, 2 ≤ s.cursor → r = fadd (fmul (fsub s.op1 s.op0) (s.uniformAt (s.cursor - 2))) s.op0 →
      flt r s.op1 = true → exec .udblRange s = .next
        { s with cursor := s.cursor - 2, res := r, err := .none, done := true, cont := .idle }) ∧
      ∀ t, exec .udblRange s = .next t → t.err = .none → t.cont = .idle → flt t.res s.op1 = true

/-- R206: UDBL_SLEN returns length × u + start, unguarded. -/
def Obligations.StartLengthDoubleIsOneDraw : Prop :=
  ∀ s : State, ¬argError .udblSlen s → 2 ≤ s.cursor → exec .udblSlen s = .next
    { s with
      cursor := s.cursor - 2
      res := canonical (fadd (fmul s.op1 (s.uniformAt (s.cursor - 2))) s.op0)
      err := .none, done := true, cont := .idle }

/-- R210, R211, R213: with a spare pending, GAUSS returns it and GAUSS_MS scales it; it becomes absent and no word is
drawn. -/
def Obligations.PendingSpareIsReturned : Prop :=
  ∀ s : State, isNaN s.gaussSpare = false →
    exec .gauss s = .next
        { s with
          gaussSpare := 0x7FF8000000000000#64, res := s.gaussSpare, err := .none, done := true, cont := .idle } ∧
      exec .gaussMs s = .next
        { s with
          gaussSpare := 0x7FF8000000000000#64, res := canonical (fadd (fmul s.gaussSpare s.op1) s.op0), err := .none,
          done := true, cont := .idle }

/-- R210, R211, R213: with no spare, a fresh pair is made from u, drawn first, and v: g0 is returned (scaled by
GAUSS_MS) and g1, unscaled, is the new spare. -/
def Obligations.FreshPairLeavesASpare : Prop :=
  ∀ (s : State) (u v radius g0 g1 : F64), isNaN s.gaussSpare = true → 4 ≤ s.cursor →
    u = s.uniformAt (s.cursor - 2) → v = s.uniformAt (s.cursor - 4) →
    radius = fsqrt (fmul 0xC000000000000000#64 (Config.fpLn u)) →
    g0 = fmul radius (Config.fpCos (fmul 0x401921FB54442D18#64 v)) →
    g1 = fmul radius (Config.fpSin (fmul 0x401921FB54442D18#64 v)) →
    exec .gauss s = .next
        { s with
          cursor := s.cursor - 4, gaussSpare := canonical g1, res := canonical g0, err := .none, done := true,
          cont := .idle } ∧
      exec .gaussMs s = .next
        { s with
          cursor := s.cursor - 4, gaussSpare := canonical g1, res := canonical (fadd (fmul g0 s.op1) s.op0),
          err := .none, done := true, cont := .idle }

/-- R218 to R221: the exponential commands take one uniform double; the deviate is −Ln(u), times the mean or divided
by the rate. -/
def Obligations.ExponentialIsMinusLn : Prop :=
  ∀ (s : State) (e : F64), 2 ≤ s.cursor → e = Config.fpLn (s.uniformAt (s.cursor - 2)) ^^^ 0x8000000000000000#64 →
    exec .expo s = .next
        { s with cursor := s.cursor - 2, res := canonical e, err := .none, done := true, cont := .idle } ∧
      exec .expoMean s = .next
        { s with
          cursor := s.cursor - 2, res := canonical (fmul e s.op0), err := .none, done := true, cont := .idle } ∧
      exec .expoRate s = .next
        { s with
          cursor := s.cursor - 2, res := canonical (fdiv e s.op0), err := .none, done := true, cont := .idle }

/-- R223: BINOM draws n uniform doubles and returns how many are below p. -/
def Obligations.BinomialCountsSuccesses : Prop :=
  ∀ (s : State) (n : Nat), ¬argError .binom s → opS32 s.op0 = n → 2 * n ≤ s.cursor → exec .binom s = .next
    { s with
      cursor := s.cursor - 2 * n
      res := BitVec.ofNat 64
        ((List.range n).filter fun j => flt (s.uniformAt (s.cursor - 2 * j - 2)) s.op1).length
      err := .none, done := true, cont := .idle }

/-- R225: POISSON raises UNSUPPORTED and changes nothing but STATUS. -/
def Obligations.PoissonIsUnsupported : Prop :=
  ∀ s : State, encode .poisson = 0x3A#32 ∧ exec .poisson s = .next
    { s with refilling := false, fillCount := 0, cont := .idle, err := .unsupported, done := true }

/-- R208: no NaN but the canonical one is ever written to gaussSpare, nor to RES by a command with a binary64 result,
at once or when it resumes. -/
def Obligations.NaNResultsAreCanonical : Prop :=
  (∀ (i : Instr) (s t : State), i = .udbl ∨ i = .udblRange ∨ i = .udblSlen ∨ i = .gauss ∨ i = .gaussMs ∨ i = .expo ∨
      i = .expoMean ∨ i = .expoRate → exec i s = .next t → t.err = .none → t.cont = .idle →
    isNaN t.res = true → t.res = 0x7FF8000000000000#64) ∧
    (∀ (i : Instr) (s t : State), exec i s = .next t → isNaN t.gaussSpare = true → t.gaussSpare ≠ s.gaussSpare →
      t.gaussSpare = 0x7FF8000000000000#64) ∧
    ∀ (k : Frame) (s t : State), resume k s = .next t →
      (isNaN t.gaussSpare = true → t.gaussSpare ≠ s.gaussSpare → t.gaussSpare = 0x7FF8000000000000#64) ∧
        (k = .udbl ∨ (∃ a b c, k = .udblRange a b c) ∨ (∃ a b, k = .udblSlen a b) ∨ (∃ p, k = .gaussU p) ∨
          (∃ u p, k = .gaussV u p) ∨ (∃ p, k = .expo p) → t.err = .none → t.cont = .idle → isNaN t.res = true →
          t.res = 0x7FF8000000000000#64)
end

