-- ==== Sys2Proof/Laws/State.lean ====
section
/-! SUPPORT. One lemma per field of State per named update: what the update leaves there. A later proof rewrites with
these and unfolds no record update. -/

namespace Sys2Proof.Machine

variable (s : State)

/-! ## State.clearStatus -/

@[simp] theorem clearStatus_cfg : s.clearStatus.cfg = s.cfg := rfl
@[simp] theorem clearStatus_buffer : s.clearStatus.buffer = s.buffer := rfl
@[simp] theorem clearStatus_cursor : s.clearStatus.cursor = s.cursor := rfl
@[simp] theorem clearStatus_refilling : s.clearStatus.refilling = s.refilling := rfl
@[simp] theorem clearStatus_fillCount : s.clearStatus.fillCount = s.fillCount := rfl
@[simp] theorem clearStatus_bitCache : s.clearStatus.bitCache = s.bitCache := rfl
@[simp] theorem clearStatus_byteCache : s.clearStatus.byteCache = s.byteCache := rfl
@[simp] theorem clearStatus_shortCache : s.clearStatus.shortCache = s.shortCache := rfl
@[simp] theorem clearStatus_gaussSpare : s.clearStatus.gaussSpare = s.gaussSpare := rfl
@[simp] theorem clearStatus_wstate : s.clearStatus.wstate = s.wstate := rfl
@[simp] theorem clearStatus_windex : s.clearStatus.windex = s.windex := rfl
@[simp] theorem clearStatus_seeded : s.clearStatus.seeded = s.seeded := rfl
@[simp] theorem clearStatus_wstage : s.clearStatus.wstage = s.wstage := rfl
@[simp] theorem clearStatus_cmdOp : s.clearStatus.cmdOp = s.cmdOp := rfl
@[simp] theorem clearStatus_op0 : s.clearStatus.op0 = s.op0 := rfl
@[simp] theorem clearStatus_op1 : s.clearStatus.op1 = s.op1 := rfl
@[simp] theorem clearStatus_cont : s.clearStatus.cont = s.cont := rfl
@[simp] theorem clearStatus_arg0 : s.clearStatus.arg0 = s.arg0 := rfl
@[simp] theorem clearStatus_arg1 : s.clearStatus.arg1 = s.arg1 := rfl
@[simp] theorem clearStatus_res : s.clearStatus.res = s.res := rfl
@[simp] theorem clearStatus_done : s.clearStatus.done = false := rfl
@[simp] theorem clearStatus_err : s.clearStatus.err = .none := rfl
@[simp] theorem clearStatus_refills : s.clearStatus.refills = s.refills := rfl
@[simp] theorem clearStatus_hm : s.clearStatus.hm = s.hm := rfl
@[simp] theorem clearStatus_bus : s.clearStatus.bus = s.bus := rfl
@[simp] theorem clearStatus_rdata : s.clearStatus.rdata = s.rdata := rfl

/-! ## State.latch -/

@[simp] theorem latch_cfg (op : BitVec 8) : (s.latch op).cfg = s.cfg := rfl
@[simp] theorem latch_buffer (op : BitVec 8) : (s.latch op).buffer = s.buffer := rfl
@[simp] theorem latch_cursor (op : BitVec 8) : (s.latch op).cursor = s.cursor := rfl
@[simp] theorem latch_refilling (op : BitVec 8) : (s.latch op).refilling = s.refilling := rfl
@[simp] theorem latch_fillCount (op : BitVec 8) : (s.latch op).fillCount = s.fillCount := rfl
@[simp] theorem latch_bitCache (op : BitVec 8) : (s.latch op).bitCache = s.bitCache := rfl
@[simp] theorem latch_byteCache (op : BitVec 8) : (s.latch op).byteCache = s.byteCache := rfl
@[simp] theorem latch_shortCache (op : BitVec 8) : (s.latch op).shortCache = s.shortCache := rfl
@[simp] theorem latch_gaussSpare (op : BitVec 8) : (s.latch op).gaussSpare = s.gaussSpare := rfl
@[simp] theorem latch_wstate (op : BitVec 8) : (s.latch op).wstate = s.wstate := rfl
@[simp] theorem latch_windex (op : BitVec 8) : (s.latch op).windex = s.windex := rfl
@[simp] theorem latch_seeded (op : BitVec 8) : (s.latch op).seeded = s.seeded := rfl
@[simp] theorem latch_wstage (op : BitVec 8) : (s.latch op).wstage = s.wstage := rfl
@[simp] theorem latch_cmdOp (op : BitVec 8) : (s.latch op).cmdOp = op := rfl
@[simp] theorem latch_op0 (op : BitVec 8) : (s.latch op).op0 = s.arg0 := rfl
@[simp] theorem latch_op1 (op : BitVec 8) : (s.latch op).op1 = s.arg1 := rfl
@[simp] theorem latch_cont (op : BitVec 8) : (s.latch op).cont = s.cont := rfl
@[simp] theorem latch_arg0 (op : BitVec 8) : (s.latch op).arg0 = s.arg0 := rfl
@[simp] theorem latch_arg1 (op : BitVec 8) : (s.latch op).arg1 = s.arg1 := rfl
@[simp] theorem latch_res (op : BitVec 8) : (s.latch op).res = s.res := rfl
@[simp] theorem latch_done (op : BitVec 8) : (s.latch op).done = s.done := rfl
@[simp] theorem latch_err (op : BitVec 8) : (s.latch op).err = s.err := rfl
@[simp] theorem latch_refills (op : BitVec 8) : (s.latch op).refills = s.refills := rfl
@[simp] theorem latch_hm (op : BitVec 8) : (s.latch op).hm = s.hm := rfl
@[simp] theorem latch_bus (op : BitVec 8) : (s.latch op).bus = s.bus := rfl
@[simp] theorem latch_rdata (op : BitVec 8) : (s.latch op).rdata = s.rdata := rfl

/-! ## State.complete -/

@[simp] theorem complete_cfg (r : Option DWord) : (s.complete r).cfg = s.cfg := rfl
@[simp] theorem complete_buffer (r : Option DWord) : (s.complete r).buffer = s.buffer := rfl
@[simp] theorem complete_cursor (r : Option DWord) : (s.complete r).cursor = s.cursor := rfl
@[simp] theorem complete_refilling (r : Option DWord) : (s.complete r).refilling = s.refilling := rfl
@[simp] theorem complete_fillCount (r : Option DWord) : (s.complete r).fillCount = s.fillCount := rfl
@[simp] theorem complete_bitCache (r : Option DWord) : (s.complete r).bitCache = s.bitCache := rfl
@[simp] theorem complete_byteCache (r : Option DWord) : (s.complete r).byteCache = s.byteCache := rfl
@[simp] theorem complete_shortCache (r : Option DWord) : (s.complete r).shortCache = s.shortCache := rfl
@[simp] theorem complete_gaussSpare (r : Option DWord) : (s.complete r).gaussSpare = s.gaussSpare := rfl
@[simp] theorem complete_wstate (r : Option DWord) : (s.complete r).wstate = s.wstate := rfl
@[simp] theorem complete_windex (r : Option DWord) : (s.complete r).windex = s.windex := rfl
@[simp] theorem complete_seeded (r : Option DWord) : (s.complete r).seeded = s.seeded := rfl
@[simp] theorem complete_wstage (r : Option DWord) : (s.complete r).wstage = s.wstage := rfl
@[simp] theorem complete_cmdOp (r : Option DWord) : (s.complete r).cmdOp = s.cmdOp := rfl
@[simp] theorem complete_op0 (r : Option DWord) : (s.complete r).op0 = s.op0 := rfl
@[simp] theorem complete_op1 (r : Option DWord) : (s.complete r).op1 = s.op1 := rfl
@[simp] theorem complete_cont (r : Option DWord) : (s.complete r).cont = .idle := rfl
@[simp] theorem complete_arg0 (r : Option DWord) : (s.complete r).arg0 = s.arg0 := rfl
@[simp] theorem complete_arg1 (r : Option DWord) : (s.complete r).arg1 = s.arg1 := rfl
@[simp] theorem complete_res (r : Option DWord) : (s.complete r).res = r.getD s.res := rfl
@[simp] theorem complete_done (r : Option DWord) : (s.complete r).done = true := rfl
@[simp] theorem complete_err (r : Option DWord) : (s.complete r).err = .none := rfl
@[simp] theorem complete_refills (r : Option DWord) : (s.complete r).refills = s.refills := rfl
@[simp] theorem complete_hm (r : Option DWord) : (s.complete r).hm = s.hm := rfl
@[simp] theorem complete_bus (r : Option DWord) : (s.complete r).bus = s.bus := rfl
@[simp] theorem complete_rdata (r : Option DWord) : (s.complete r).rdata = s.rdata := rfl

/-! ## State.suspend -/

@[simp] theorem suspend_cfg (k : Frame) : (s.suspend k).cfg = s.cfg := rfl
@[simp] theorem suspend_buffer (k : Frame) : (s.suspend k).buffer = s.buffer := rfl
@[simp] theorem suspend_cursor (k : Frame) : (s.suspend k).cursor = s.cursor := rfl
@[simp] theorem suspend_refilling (k : Frame) : (s.suspend k).refilling = s.refilling := rfl
@[simp] theorem suspend_fillCount (k : Frame) : (s.suspend k).fillCount = s.fillCount := rfl
@[simp] theorem suspend_bitCache (k : Frame) : (s.suspend k).bitCache = s.bitCache := rfl
@[simp] theorem suspend_byteCache (k : Frame) : (s.suspend k).byteCache = s.byteCache := rfl
@[simp] theorem suspend_shortCache (k : Frame) : (s.suspend k).shortCache = s.shortCache := rfl
@[simp] theorem suspend_gaussSpare (k : Frame) : (s.suspend k).gaussSpare = s.gaussSpare := rfl
@[simp] theorem suspend_wstate (k : Frame) : (s.suspend k).wstate = s.wstate := rfl
@[simp] theorem suspend_windex (k : Frame) : (s.suspend k).windex = s.windex := rfl
@[simp] theorem suspend_seeded (k : Frame) : (s.suspend k).seeded = s.seeded := rfl
@[simp] theorem suspend_wstage (k : Frame) : (s.suspend k).wstage = s.wstage := rfl
@[simp] theorem suspend_cmdOp (k : Frame) : (s.suspend k).cmdOp = s.cmdOp := rfl
@[simp] theorem suspend_op0 (k : Frame) : (s.suspend k).op0 = s.op0 := rfl
@[simp] theorem suspend_op1 (k : Frame) : (s.suspend k).op1 = s.op1 := rfl
@[simp] theorem suspend_cont (k : Frame) : (s.suspend k).cont = .suspended k := rfl
@[simp] theorem suspend_arg0 (k : Frame) : (s.suspend k).arg0 = s.arg0 := rfl
@[simp] theorem suspend_arg1 (k : Frame) : (s.suspend k).arg1 = s.arg1 := rfl
@[simp] theorem suspend_res (k : Frame) : (s.suspend k).res = s.res := rfl
@[simp] theorem suspend_done (k : Frame) : (s.suspend k).done = s.done := rfl
@[simp] theorem suspend_err (k : Frame) : (s.suspend k).err = s.err := rfl
@[simp] theorem suspend_refills (k : Frame) : (s.suspend k).refills = s.refills := rfl
@[simp] theorem suspend_hm (k : Frame) : (s.suspend k).hm = s.hm := rfl
@[simp] theorem suspend_bus (k : Frame) : (s.suspend k).bus = s.bus := rfl
@[simp] theorem suspend_rdata (k : Frame) : (s.suspend k).rdata = s.rdata := rfl

/-! ## State.abort -/

@[simp] theorem abort_cfg (b : Bool) (e : ErrCode) : (s.abort b e).cfg = s.cfg := rfl
@[simp] theorem abort_buffer (b : Bool) (e : ErrCode) : (s.abort b e).buffer = s.buffer := rfl
@[simp] theorem abort_cursor (b : Bool) (e : ErrCode) : (s.abort b e).cursor = if b then 0 else s.cursor := rfl
@[simp] theorem abort_refilling (b : Bool) (e : ErrCode) : (s.abort b e).refilling = false := rfl
@[simp] theorem abort_fillCount (b : Bool) (e : ErrCode) : (s.abort b e).fillCount = 0 := rfl
@[simp] theorem abort_bitCache (b : Bool) (e : ErrCode) : (s.abort b e).bitCache = s.bitCache := rfl
@[simp] theorem abort_byteCache (b : Bool) (e : ErrCode) : (s.abort b e).byteCache = s.byteCache := rfl
@[simp] theorem abort_shortCache (b : Bool) (e : ErrCode) : (s.abort b e).shortCache = s.shortCache := rfl
@[simp] theorem abort_gaussSpare (b : Bool) (e : ErrCode) : (s.abort b e).gaussSpare = s.gaussSpare := rfl
@[simp] theorem abort_wstate (b : Bool) (e : ErrCode) : (s.abort b e).wstate = s.wstate := rfl
@[simp] theorem abort_windex (b : Bool) (e : ErrCode) : (s.abort b e).windex = s.windex := rfl
@[simp] theorem abort_seeded (b : Bool) (e : ErrCode) : (s.abort b e).seeded = s.seeded := rfl
@[simp] theorem abort_wstage (b : Bool) (e : ErrCode) : (s.abort b e).wstage = s.wstage := rfl
@[simp] theorem abort_cmdOp (b : Bool) (e : ErrCode) : (s.abort b e).cmdOp = s.cmdOp := rfl
@[simp] theorem abort_op0 (b : Bool) (e : ErrCode) : (s.abort b e).op0 = s.op0 := rfl
@[simp] theorem abort_op1 (b : Bool) (e : ErrCode) : (s.abort b e).op1 = s.op1 := rfl
@[simp] theorem abort_cont (b : Bool) (e : ErrCode) : (s.abort b e).cont = .idle := rfl
@[simp] theorem abort_arg0 (b : Bool) (e : ErrCode) : (s.abort b e).arg0 = s.arg0 := rfl
@[simp] theorem abort_arg1 (b : Bool) (e : ErrCode) : (s.abort b e).arg1 = s.arg1 := rfl
@[simp] theorem abort_res (b : Bool) (e : ErrCode) : (s.abort b e).res = s.res := rfl
@[simp] theorem abort_done (b : Bool) (e : ErrCode) : (s.abort b e).done = true := rfl
@[simp] theorem abort_err (b : Bool) (e : ErrCode) : (s.abort b e).err = e := rfl
@[simp] theorem abort_refills (b : Bool) (e : ErrCode) : (s.abort b e).refills = s.refills := rfl
@[simp] theorem abort_hm (b : Bool) (e : ErrCode) : (s.abort b e).hm = s.hm := rfl
@[simp] theorem abort_bus (b : Bool) (e : ErrCode) : (s.abort b e).bus = s.bus := rfl
@[simp] theorem abort_rdata (b : Bool) (e : ErrCode) : (s.abort b e).rdata = s.rdata := rfl

/-! ## State.setWell -/

@[simp] theorem setWell_cfg (w : Well) : (s.setWell w).cfg = s.cfg := rfl
@[simp] theorem setWell_buffer (w : Well) : (s.setWell w).buffer = s.buffer := rfl
@[simp] theorem setWell_cursor (w : Well) : (s.setWell w).cursor = s.cursor := rfl
@[simp] theorem setWell_refilling (w : Well) : (s.setWell w).refilling = s.refilling := rfl
@[simp] theorem setWell_fillCount (w : Well) : (s.setWell w).fillCount = s.fillCount := rfl
@[simp] theorem setWell_bitCache (w : Well) : (s.setWell w).bitCache = s.bitCache := rfl
@[simp] theorem setWell_byteCache (w : Well) : (s.setWell w).byteCache = s.byteCache := rfl
@[simp] theorem setWell_shortCache (w : Well) : (s.setWell w).shortCache = s.shortCache := rfl
@[simp] theorem setWell_gaussSpare (w : Well) : (s.setWell w).gaussSpare = s.gaussSpare := rfl
@[simp] theorem setWell_wstate (w : Well) : (s.setWell w).wstate = w.words := rfl
@[simp] theorem setWell_windex (w : Well) : (s.setWell w).windex = w.index := rfl
@[simp] theorem setWell_seeded (w : Well) : (s.setWell w).seeded = s.seeded := rfl
@[simp] theorem setWell_wstage (w : Well) : (s.setWell w).wstage = s.wstage := rfl
@[simp] theorem setWell_cmdOp (w : Well) : (s.setWell w).cmdOp = s.cmdOp := rfl
@[simp] theorem setWell_op0 (w : Well) : (s.setWell w).op0 = s.op0 := rfl
@[simp] theorem setWell_op1 (w : Well) : (s.setWell w).op1 = s.op1 := rfl
@[simp] theorem setWell_cont (w : Well) : (s.setWell w).cont = s.cont := rfl
@[simp] theorem setWell_arg0 (w : Well) : (s.setWell w).arg0 = s.arg0 := rfl
@[simp] theorem setWell_arg1 (w : Well) : (s.setWell w).arg1 = s.arg1 := rfl
@[simp] theorem setWell_res (w : Well) : (s.setWell w).res = s.res := rfl
@[simp] theorem setWell_done (w : Well) : (s.setWell w).done = s.done := rfl
@[simp] theorem setWell_err (w : Well) : (s.setWell w).err = s.err := rfl
@[simp] theorem setWell_refills (w : Well) : (s.setWell w).refills = s.refills := rfl
@[simp] theorem setWell_hm (w : Well) : (s.setWell w).hm = s.hm := rfl
@[simp] theorem setWell_bus (w : Well) : (s.setWell w).bus = s.bus := rfl
@[simp] theorem setWell_rdata (w : Well) : (s.setWell w).rdata = s.rdata := rfl

/-! ## State.fillFromWell -/

@[simp] theorem fillFromWell_cfg : s.fillFromWell.cfg = s.cfg := rfl
@[simp] theorem fillFromWell_buffer : s.fillFromWell.buffer = (w512Generate s.cfg.words s.well).1 := rfl
@[simp] theorem fillFromWell_cursor : s.fillFromWell.cursor = s.cursor := rfl
@[simp] theorem fillFromWell_refilling : s.fillFromWell.refilling = s.refilling := rfl
@[simp] theorem fillFromWell_fillCount : s.fillFromWell.fillCount = s.fillCount := rfl
@[simp] theorem fillFromWell_bitCache : s.fillFromWell.bitCache = s.bitCache := rfl
@[simp] theorem fillFromWell_byteCache : s.fillFromWell.byteCache = s.byteCache := rfl
@[simp] theorem fillFromWell_shortCache : s.fillFromWell.shortCache = s.shortCache := rfl
@[simp] theorem fillFromWell_gaussSpare : s.fillFromWell.gaussSpare = s.gaussSpare := rfl
@[simp] theorem fillFromWell_wstate : s.fillFromWell.wstate = (w512Generate s.cfg.words s.well).2.words := rfl
@[simp] theorem fillFromWell_windex : s.fillFromWell.windex = (w512Generate s.cfg.words s.well).2.index := rfl
@[simp] theorem fillFromWell_seeded : s.fillFromWell.seeded = s.seeded := rfl
@[simp] theorem fillFromWell_wstage : s.fillFromWell.wstage = s.wstage := rfl
@[simp] theorem fillFromWell_cmdOp : s.fillFromWell.cmdOp = s.cmdOp := rfl
@[simp] theorem fillFromWell_op0 : s.fillFromWell.op0 = s.op0 := rfl
@[simp] theorem fillFromWell_op1 : s.fillFromWell.op1 = s.op1 := rfl
@[simp] theorem fillFromWell_cont : s.fillFromWell.cont = s.cont := rfl
@[simp] theorem fillFromWell_arg0 : s.fillFromWell.arg0 = s.arg0 := rfl
@[simp] theorem fillFromWell_arg1 : s.fillFromWell.arg1 = s.arg1 := rfl
@[simp] theorem fillFromWell_res : s.fillFromWell.res = s.res := rfl
@[simp] theorem fillFromWell_done : s.fillFromWell.done = s.done := rfl
@[simp] theorem fillFromWell_err : s.fillFromWell.err = s.err := rfl
@[simp] theorem fillFromWell_refills : s.fillFromWell.refills = s.refills := rfl
@[simp] theorem fillFromWell_hm : s.fillFromWell.hm = s.hm := rfl
@[simp] theorem fillFromWell_bus : s.fillFromWell.bus = s.bus := rfl
@[simp] theorem fillFromWell_rdata : s.fillFromWell.rdata = s.rdata := rfl

/-! ## State.refillDone -/

@[simp] theorem refillDone_cfg : s.refillDone.cfg = s.cfg := rfl
@[simp] theorem refillDone_buffer : s.refillDone.buffer = s.buffer := rfl
@[simp] theorem refillDone_cursor : s.refillDone.cursor = s.cfg.words := rfl
@[simp] theorem refillDone_refilling : s.refillDone.refilling = false := rfl
@[simp] theorem refillDone_fillCount : s.refillDone.fillCount = 0 := rfl
@[simp] theorem refillDone_bitCache : s.refillDone.bitCache = s.bitCache := rfl
@[simp] theorem refillDone_byteCache : s.refillDone.byteCache = s.byteCache := rfl
@[simp] theorem refillDone_shortCache : s.refillDone.shortCache = s.shortCache := rfl
@[simp] theorem refillDone_gaussSpare : s.refillDone.gaussSpare = s.gaussSpare := rfl
@[simp] theorem refillDone_wstate : s.refillDone.wstate = s.wstate := rfl
@[simp] theorem refillDone_windex : s.refillDone.windex = s.windex := rfl
@[simp] theorem refillDone_seeded : s.refillDone.seeded = s.seeded := rfl
@[simp] theorem refillDone_wstage : s.refillDone.wstage = s.wstage := rfl
@[simp] theorem refillDone_cmdOp : s.refillDone.cmdOp = s.cmdOp := rfl
@[simp] theorem refillDone_op0 : s.refillDone.op0 = s.op0 := rfl
@[simp] theorem refillDone_op1 : s.refillDone.op1 = s.op1 := rfl
@[simp] theorem refillDone_cont : s.refillDone.cont = s.cont := rfl
@[simp] theorem refillDone_arg0 : s.refillDone.arg0 = s.arg0 := rfl
@[simp] theorem refillDone_arg1 : s.refillDone.arg1 = s.arg1 := rfl
@[simp] theorem refillDone_res : s.refillDone.res = s.res := rfl
@[simp] theorem refillDone_done : s.refillDone.done = s.done := rfl
@[simp] theorem refillDone_err : s.refillDone.err = s.err := rfl
@[simp] theorem refillDone_refills : s.refillDone.refills = s.refills + 1 := rfl
@[simp] theorem refillDone_hm : s.refillDone.hm = s.hm := rfl
@[simp] theorem refillDone_bus : s.refillDone.bus = s.bus := rfl
@[simp] theorem refillDone_rdata : s.refillDone.rdata = s.rdata := rfl

/-! ## State.startFill -/

@[simp] theorem startFill_cfg : s.startFill.cfg = s.cfg := rfl
@[simp] theorem startFill_buffer : s.startFill.buffer = s.buffer := rfl
@[simp] theorem startFill_cursor : s.startFill.cursor = s.cursor := rfl
@[simp] theorem startFill_refilling : s.startFill.refilling = true := rfl
@[simp] theorem startFill_fillCount : s.startFill.fillCount = 0 := rfl
@[simp] theorem startFill_bitCache : s.startFill.bitCache = s.bitCache := rfl
@[simp] theorem startFill_byteCache : s.startFill.byteCache = s.byteCache := rfl
@[simp] theorem startFill_shortCache : s.startFill.shortCache = s.shortCache := rfl
@[simp] theorem startFill_gaussSpare : s.startFill.gaussSpare = s.gaussSpare := rfl
@[simp] theorem startFill_wstate : s.startFill.wstate = s.wstate := rfl
@[simp] theorem startFill_windex : s.startFill.windex = s.windex := rfl
@[simp] theorem startFill_seeded : s.startFill.seeded = s.seeded := rfl
@[simp] theorem startFill_wstage : s.startFill.wstage = s.wstage := rfl
@[simp] theorem startFill_cmdOp : s.startFill.cmdOp = s.cmdOp := rfl
@[simp] theorem startFill_op0 : s.startFill.op0 = s.op0 := rfl
@[simp] theorem startFill_op1 : s.startFill.op1 = s.op1 := rfl
@[simp] theorem startFill_cont : s.startFill.cont = s.cont := rfl
@[simp] theorem startFill_arg0 : s.startFill.arg0 = s.arg0 := rfl
@[simp] theorem startFill_arg1 : s.startFill.arg1 = s.arg1 := rfl
@[simp] theorem startFill_res : s.startFill.res = s.res := rfl
@[simp] theorem startFill_done : s.startFill.done = s.done := rfl
@[simp] theorem startFill_err : s.startFill.err = s.err := rfl
@[simp] theorem startFill_refills : s.startFill.refills = s.refills := rfl
@[simp] theorem startFill_hm : s.startFill.hm = s.hm := rfl
@[simp] theorem startFill_bus : s.startFill.bus = s.bus := rfl
@[simp] theorem startFill_rdata : s.startFill.rdata = s.rdata := rfl

/-! ## State.copyOut -/

@[simp] theorem copyOut_cfg (d k n : Nat) : (s.copyOut d k n).cfg = s.cfg := rfl
@[simp] theorem copyOut_buffer (d k n : Nat) : (s.copyOut d k n).buffer = s.buffer := rfl
@[simp] theorem copyOut_cursor (d k n : Nat) : (s.copyOut d k n).cursor = s.cursor := rfl
@[simp] theorem copyOut_refilling (d k n : Nat) : (s.copyOut d k n).refilling = s.refilling := rfl
@[simp] theorem copyOut_fillCount (d k n : Nat) : (s.copyOut d k n).fillCount = s.fillCount := rfl
@[simp] theorem copyOut_bitCache (d k n : Nat) : (s.copyOut d k n).bitCache = s.bitCache := rfl
@[simp] theorem copyOut_byteCache (d k n : Nat) : (s.copyOut d k n).byteCache = s.byteCache := rfl
@[simp] theorem copyOut_shortCache (d k n : Nat) : (s.copyOut d k n).shortCache = s.shortCache := rfl
@[simp] theorem copyOut_gaussSpare (d k n : Nat) : (s.copyOut d k n).gaussSpare = s.gaussSpare := rfl
@[simp] theorem copyOut_wstate (d k n : Nat) : (s.copyOut d k n).wstate = s.wstate := rfl
@[simp] theorem copyOut_windex (d k n : Nat) : (s.copyOut d k n).windex = s.windex := rfl
@[simp] theorem copyOut_seeded (d k n : Nat) : (s.copyOut d k n).seeded = s.seeded := rfl
@[simp] theorem copyOut_wstage (d k n : Nat) : (s.copyOut d k n).wstage = s.wstage := rfl
@[simp] theorem copyOut_cmdOp (d k n : Nat) : (s.copyOut d k n).cmdOp = s.cmdOp := rfl
@[simp] theorem copyOut_op0 (d k n : Nat) : (s.copyOut d k n).op0 = s.op0 := rfl
@[simp] theorem copyOut_op1 (d k n : Nat) : (s.copyOut d k n).op1 = s.op1 := rfl
@[simp] theorem copyOut_cont (d k n : Nat) : (s.copyOut d k n).cont = s.cont := rfl
@[simp] theorem copyOut_arg0 (d k n : Nat) : (s.copyOut d k n).arg0 = s.arg0 := rfl
@[simp] theorem copyOut_arg1 (d k n : Nat) : (s.copyOut d k n).arg1 = s.arg1 := rfl
@[simp] theorem copyOut_res (d k n : Nat) : (s.copyOut d k n).res = s.res := rfl
@[simp] theorem copyOut_done (d k n : Nat) : (s.copyOut d k n).done = s.done := rfl
@[simp] theorem copyOut_err (d k n : Nat) : (s.copyOut d k n).err = s.err := rfl
@[simp] theorem copyOut_refills (d k n : Nat) : (s.copyOut d k n).refills = s.refills := rfl
@[simp] theorem copyOut_hm (d k n : Nat) : (s.copyOut d k n).hm = Memory.writeList s.hm d (s.bufBytes k n) := rfl
@[simp] theorem copyOut_bus (d k n : Nat) : (s.copyOut d k n).bus = s.bus := rfl
@[simp] theorem copyOut_rdata (d k n : Nat) : (s.copyOut d k n).rdata = s.rdata := rfl

/-! ## State.setSpare -/

@[simp] theorem setSpare_cfg (g : F64) : (s.setSpare g).cfg = s.cfg := rfl
@[simp] theorem setSpare_buffer (g : F64) : (s.setSpare g).buffer = s.buffer := rfl
@[simp] theorem setSpare_cursor (g : F64) : (s.setSpare g).cursor = s.cursor := rfl
@[simp] theorem setSpare_refilling (g : F64) : (s.setSpare g).refilling = s.refilling := rfl
@[simp] theorem setSpare_fillCount (g : F64) : (s.setSpare g).fillCount = s.fillCount := rfl
@[simp] theorem setSpare_bitCache (g : F64) : (s.setSpare g).bitCache = s.bitCache := rfl
@[simp] theorem setSpare_byteCache (g : F64) : (s.setSpare g).byteCache = s.byteCache := rfl
@[simp] theorem setSpare_shortCache (g : F64) : (s.setSpare g).shortCache = s.shortCache := rfl
@[simp] theorem setSpare_gaussSpare (g : F64) : (s.setSpare g).gaussSpare = canonical g := rfl
@[simp] theorem setSpare_wstate (g : F64) : (s.setSpare g).wstate = s.wstate := rfl
@[simp] theorem setSpare_windex (g : F64) : (s.setSpare g).windex = s.windex := rfl
@[simp] theorem setSpare_seeded (g : F64) : (s.setSpare g).seeded = s.seeded := rfl
@[simp] theorem setSpare_wstage (g : F64) : (s.setSpare g).wstage = s.wstage := rfl
@[simp] theorem setSpare_cmdOp (g : F64) : (s.setSpare g).cmdOp = s.cmdOp := rfl
@[simp] theorem setSpare_op0 (g : F64) : (s.setSpare g).op0 = s.op0 := rfl
@[simp] theorem setSpare_op1 (g : F64) : (s.setSpare g).op1 = s.op1 := rfl
@[simp] theorem setSpare_cont (g : F64) : (s.setSpare g).cont = s.cont := rfl
@[simp] theorem setSpare_arg0 (g : F64) : (s.setSpare g).arg0 = s.arg0 := rfl
@[simp] theorem setSpare_arg1 (g : F64) : (s.setSpare g).arg1 = s.arg1 := rfl
@[simp] theorem setSpare_res (g : F64) : (s.setSpare g).res = s.res := rfl
@[simp] theorem setSpare_done (g : F64) : (s.setSpare g).done = s.done := rfl
@[simp] theorem setSpare_err (g : F64) : (s.setSpare g).err = s.err := rfl
@[simp] theorem setSpare_refills (g : F64) : (s.setSpare g).refills = s.refills := rfl
@[simp] theorem setSpare_hm (g : F64) : (s.setSpare g).hm = s.hm := rfl
@[simp] theorem setSpare_bus (g : F64) : (s.setSpare g).bus = s.bus := rfl
@[simp] theorem setSpare_rdata (g : F64) : (s.setSpare g).rdata = s.rdata := rfl

/-! ## State.seedWith -/

@[simp] theorem seedWith_cfg (ws : Vector Word 16) : (s.seedWith ws).cfg = s.cfg := rfl
@[simp] theorem seedWith_buffer (ws : Vector Word 16) : (s.seedWith ws).buffer = s.buffer := rfl
@[simp] theorem seedWith_cursor (ws : Vector Word 16) : (s.seedWith ws).cursor = s.cursor := rfl
@[simp] theorem seedWith_refilling (ws : Vector Word 16) : (s.seedWith ws).refilling = s.refilling := rfl
@[simp] theorem seedWith_fillCount (ws : Vector Word 16) : (s.seedWith ws).fillCount = s.fillCount := rfl
@[simp] theorem seedWith_bitCache (ws : Vector Word 16) : (s.seedWith ws).bitCache = s.bitCache := rfl
@[simp] theorem seedWith_byteCache (ws : Vector Word 16) : (s.seedWith ws).byteCache = s.byteCache := rfl
@[simp] theorem seedWith_shortCache (ws : Vector Word 16) : (s.seedWith ws).shortCache = s.shortCache := rfl
@[simp] theorem seedWith_gaussSpare (ws : Vector Word 16) : (s.seedWith ws).gaussSpare = s.gaussSpare := rfl
@[simp] theorem seedWith_wstate (ws : Vector Word 16) : (s.seedWith ws).wstate = ws := rfl
@[simp] theorem seedWith_windex (ws : Vector Word 16) : (s.seedWith ws).windex = 0 := rfl
@[simp] theorem seedWith_seeded (ws : Vector Word 16) : (s.seedWith ws).seeded = true := rfl
@[simp] theorem seedWith_wstage (ws : Vector Word 16) : (s.seedWith ws).wstage = s.wstage := rfl
@[simp] theorem seedWith_cmdOp (ws : Vector Word 16) : (s.seedWith ws).cmdOp = s.cmdOp := rfl
@[simp] theorem seedWith_op0 (ws : Vector Word 16) : (s.seedWith ws).op0 = s.op0 := rfl
@[simp] theorem seedWith_op1 (ws : Vector Word 16) : (s.seedWith ws).op1 = s.op1 := rfl
@[simp] theorem seedWith_cont (ws : Vector Word 16) : (s.seedWith ws).cont = s.cont := rfl
@[simp] theorem seedWith_arg0 (ws : Vector Word 16) : (s.seedWith ws).arg0 = s.arg0 := rfl
@[simp] theorem seedWith_arg1 (ws : Vector Word 16) : (s.seedWith ws).arg1 = s.arg1 := rfl
@[simp] theorem seedWith_res (ws : Vector Word 16) : (s.seedWith ws).res = s.res := rfl
@[simp] theorem seedWith_done (ws : Vector Word 16) : (s.seedWith ws).done = s.done := rfl
@[simp] theorem seedWith_err (ws : Vector Word 16) : (s.seedWith ws).err = s.err := rfl
@[simp] theorem seedWith_refills (ws : Vector Word 16) : (s.seedWith ws).refills = s.refills := rfl
@[simp] theorem seedWith_hm (ws : Vector Word 16) : (s.seedWith ws).hm = s.hm := rfl
@[simp] theorem seedWith_bus (ws : Vector Word 16) : (s.seedWith ws).bus = s.bus := rfl
@[simp] theorem seedWith_rdata (ws : Vector Word 16) : (s.seedWith ws).rdata = s.rdata := rfl

/-! ## State.takeUnit -/

@[simp] theorem takeUnit_cfg (v : Word) : (s.takeUnit v).cfg = s.cfg := rfl
@[simp] theorem takeUnit_buffer (v : Word) : (s.takeUnit v).buffer = s.bufferWithUnit v := rfl
@[simp] theorem takeUnit_cursor (v : Word) : (s.takeUnit v).cursor = s.cursor := rfl
@[simp] theorem takeUnit_refilling (v : Word) : (s.takeUnit v).refilling = s.refilling := rfl
@[simp] theorem takeUnit_fillCount (v : Word) : (s.takeUnit v).fillCount = s.fillCount + 1 := rfl
@[simp] theorem takeUnit_bitCache (v : Word) : (s.takeUnit v).bitCache = s.bitCache := rfl
@[simp] theorem takeUnit_byteCache (v : Word) : (s.takeUnit v).byteCache = s.byteCache := rfl
@[simp] theorem takeUnit_shortCache (v : Word) : (s.takeUnit v).shortCache = s.shortCache := rfl
@[simp] theorem takeUnit_gaussSpare (v : Word) : (s.takeUnit v).gaussSpare = s.gaussSpare := rfl
@[simp] theorem takeUnit_wstate (v : Word) : (s.takeUnit v).wstate = s.wstate := rfl
@[simp] theorem takeUnit_windex (v : Word) : (s.takeUnit v).windex = s.windex := rfl
@[simp] theorem takeUnit_seeded (v : Word) : (s.takeUnit v).seeded = s.seeded := rfl
@[simp] theorem takeUnit_wstage (v : Word) : (s.takeUnit v).wstage = s.wstage := rfl
@[simp] theorem takeUnit_cmdOp (v : Word) : (s.takeUnit v).cmdOp = s.cmdOp := rfl
@[simp] theorem takeUnit_op0 (v : Word) : (s.takeUnit v).op0 = s.op0 := rfl
@[simp] theorem takeUnit_op1 (v : Word) : (s.takeUnit v).op1 = s.op1 := rfl
@[simp] theorem takeUnit_cont (v : Word) : (s.takeUnit v).cont = s.cont := rfl
@[simp] theorem takeUnit_arg0 (v : Word) : (s.takeUnit v).arg0 = s.arg0 := rfl
@[simp] theorem takeUnit_arg1 (v : Word) : (s.takeUnit v).arg1 = s.arg1 := rfl
@[simp] theorem takeUnit_res (v : Word) : (s.takeUnit v).res = s.res := rfl
@[simp] theorem takeUnit_done (v : Word) : (s.takeUnit v).done = s.done := rfl
@[simp] theorem takeUnit_err (v : Word) : (s.takeUnit v).err = s.err := rfl
@[simp] theorem takeUnit_refills (v : Word) : (s.takeUnit v).refills = s.refills := rfl
@[simp] theorem takeUnit_hm (v : Word) : (s.takeUnit v).hm = s.hm := rfl
@[simp] theorem takeUnit_bus (v : Word) : (s.takeUnit v).bus = s.bus := rfl
@[simp] theorem takeUnit_rdata (v : Word) : (s.takeUnit v).rdata = s.rdata := rfl

/-! ## State.setCache: only the cache written changes -/

@[simp] theorem setCache_cfg (c : Cache) (v : Word) : (s.setCache c v).cfg = s.cfg := by cases c <;> rfl
@[simp] theorem setCache_buffer (c : Cache) (v : Word) : (s.setCache c v).buffer = s.buffer := by cases c <;> rfl
@[simp] theorem setCache_cursor (c : Cache) (v : Word) : (s.setCache c v).cursor = s.cursor := by cases c <;> rfl
@[simp] theorem setCache_refilling (c : Cache) (v : Word) : (s.setCache c v).refilling = s.refilling := by cases c <;> rfl
@[simp] theorem setCache_fillCount (c : Cache) (v : Word) : (s.setCache c v).fillCount = s.fillCount := by cases c <;> rfl
@[simp] theorem setCache_bit_bitCache (v : Word) : (s.setCache .bit v).bitCache = v := rfl
@[simp] theorem setCache_byte_bitCache (v : Word) : (s.setCache .byte v).bitCache = s.bitCache := rfl
@[simp] theorem setCache_short_bitCache (v : Word) : (s.setCache .short v).bitCache = s.bitCache := rfl
@[simp] theorem setCache_bit_byteCache (v : Word) : (s.setCache .bit v).byteCache = s.byteCache := rfl
@[simp] theorem setCache_byte_byteCache (v : Word) : (s.setCache .byte v).byteCache = v := rfl
@[simp] theorem setCache_short_byteCache (v : Word) : (s.setCache .short v).byteCache = s.byteCache := rfl
@[simp] theorem setCache_bit_shortCache (v : Word) : (s.setCache .bit v).shortCache = s.shortCache := rfl
@[simp] theorem setCache_byte_shortCache (v : Word) : (s.setCache .byte v).shortCache = s.shortCache := rfl
@[simp] theorem setCache_short_shortCache (v : Word) : (s.setCache .short v).shortCache = v := rfl
@[simp] theorem setCache_gaussSpare (c : Cache) (v : Word) : (s.setCache c v).gaussSpare = s.gaussSpare := by cases c <;> rfl
@[simp] theorem setCache_wstate (c : Cache) (v : Word) : (s.setCache c v).wstate = s.wstate := by cases c <;> rfl
@[simp] theorem setCache_windex (c : Cache) (v : Word) : (s.setCache c v).windex = s.windex := by cases c <;> rfl
@[simp] theorem setCache_seeded (c : Cache) (v : Word) : (s.setCache c v).seeded = s.seeded := by cases c <;> rfl
@[simp] theorem setCache_wstage (c : Cache) (v : Word) : (s.setCache c v).wstage = s.wstage := by cases c <;> rfl
@[simp] theorem setCache_cmdOp (c : Cache) (v : Word) : (s.setCache c v).cmdOp = s.cmdOp := by cases c <;> rfl
@[simp] theorem setCache_op0 (c : Cache) (v : Word) : (s.setCache c v).op0 = s.op0 := by cases c <;> rfl
@[simp] theorem setCache_op1 (c : Cache) (v : Word) : (s.setCache c v).op1 = s.op1 := by cases c <;> rfl
@[simp] theorem setCache_cont (c : Cache) (v : Word) : (s.setCache c v).cont = s.cont := by cases c <;> rfl
@[simp] theorem setCache_arg0 (c : Cache) (v : Word) : (s.setCache c v).arg0 = s.arg0 := by cases c <;> rfl
@[simp] theorem setCache_arg1 (c : Cache) (v : Word) : (s.setCache c v).arg1 = s.arg1 := by cases c <;> rfl
@[simp] theorem setCache_res (c : Cache) (v : Word) : (s.setCache c v).res = s.res := by cases c <;> rfl
@[simp] theorem setCache_done (c : Cache) (v : Word) : (s.setCache c v).done = s.done := by cases c <;> rfl
@[simp] theorem setCache_err (c : Cache) (v : Word) : (s.setCache c v).err = s.err := by cases c <;> rfl
@[simp] theorem setCache_refills (c : Cache) (v : Word) : (s.setCache c v).refills = s.refills := by cases c <;> rfl
@[simp] theorem setCache_hm (c : Cache) (v : Word) : (s.setCache c v).hm = s.hm := by cases c <;> rfl
@[simp] theorem setCache_bus (c : Cache) (v : Word) : (s.setCache c v).bus = s.bus := by cases c <;> rfl
@[simp] theorem setCache_rdata (c : Cache) (v : Word) : (s.setCache c v).rdata = s.rdata := by cases c <;> rfl
@[simp] theorem cache_setCache (c : Cache) (v : Word) : (s.setCache c v).cache c = v := by cases c <;> rfl
@[simp] theorem cache_bit : s.cache .bit = s.bitCache := rfl
@[simp] theorem cache_byte : s.cache .byte = s.byteCache := rfl
@[simp] theorem cache_short : s.cache .short = s.shortCache := rfl

/-! ## State.flushForSeed: under WELL512 what holds old words is emptied -/

theorem flushForSeed_well512 (h : s.cfg.provider = .well512) :
    s.flushForSeed =
      { s with cursor := 0, bitCache := 0, byteCache := 0, shortCache := 0, gaussSpare := canonicalNaN } := by
  simp [State.flushForSeed, h]

theorem flushForSeed_external (h : s.cfg.provider ≠ .well512) : s.flushForSeed = s := by
  unfold State.flushForSeed
  cases hp : s.cfg.provider <;> simp_all

@[simp] theorem flushForSeed_cfg : s.flushForSeed.cfg = s.cfg := by
  unfold State.flushForSeed; split <;> rfl
@[simp] theorem flushForSeed_buffer : s.flushForSeed.buffer = s.buffer := by
  unfold State.flushForSeed; split <;> rfl
@[simp] theorem flushForSeed_refilling : s.flushForSeed.refilling = s.refilling := by
  unfold State.flushForSeed; split <;> rfl
@[simp] theorem flushForSeed_fillCount : s.flushForSeed.fillCount = s.fillCount := by
  unfold State.flushForSeed; split <;> rfl
@[simp] theorem flushForSeed_wstate : s.flushForSeed.wstate = s.wstate := by
  unfold State.flushForSeed; split <;> rfl
@[simp] theorem flushForSeed_windex : s.flushForSeed.windex = s.windex := by
  unfold State.flushForSeed; split <;> rfl
@[simp] theorem flushForSeed_seeded : s.flushForSeed.seeded = s.seeded := by
  unfold State.flushForSeed; split <;> rfl
@[simp] theorem flushForSeed_wstage : s.flushForSeed.wstage = s.wstage := by
  unfold State.flushForSeed; split <;> rfl
@[simp] theorem flushForSeed_cmdOp : s.flushForSeed.cmdOp = s.cmdOp := by
  unfold State.flushForSeed; split <;> rfl
@[simp] theorem flushForSeed_op0 : s.flushForSeed.op0 = s.op0 := by
  unfold State.flushForSeed; split <;> rfl
@[simp] theorem flushForSeed_op1 : s.flushForSeed.op1 = s.op1 := by
  unfold State.flushForSeed; split <;> rfl
@[simp] theorem flushForSeed_cont : s.flushForSeed.cont = s.cont := by
  unfold State.flushForSeed; split <;> rfl
@[simp] theorem flushForSeed_arg0 : s.flushForSeed.arg0 = s.arg0 := by
  unfold State.flushForSeed; split <;> rfl
@[simp] theorem flushForSeed_arg1 : s.flushForSeed.arg1 = s.arg1 := by
  unfold State.flushForSeed; split <;> rfl
@[simp] theorem flushForSeed_res : s.flushForSeed.res = s.res := by
  unfold State.flushForSeed; split <;> rfl
@[simp] theorem flushForSeed_done : s.flushForSeed.done = s.done := by
  unfold State.flushForSeed; split <;> rfl
@[simp] theorem flushForSeed_err : s.flushForSeed.err = s.err := by
  unfold State.flushForSeed; split <;> rfl
@[simp] theorem flushForSeed_refills : s.flushForSeed.refills = s.refills := by
  unfold State.flushForSeed; split <;> rfl
@[simp] theorem flushForSeed_hm : s.flushForSeed.hm = s.hm := by
  unfold State.flushForSeed; split <;> rfl
@[simp] theorem flushForSeed_bus : s.flushForSeed.bus = s.bus := by
  unfold State.flushForSeed; split <;> rfl
@[simp] theorem flushForSeed_rdata : s.flushForSeed.rdata = s.rdata := by
  unfold State.flushForSeed; split <;> rfl

/-- The canonical NaN is a NaN (43_distributions.md R208). -/
@[simp] theorem isNaN_canonicalNaN : isNaN canonicalNaN = true := by decide

end Sys2Proof.Machine
end

