-- ==== Sys2Proof/Laws/Memory.lean ====
section
/-! SUPPORT. Host memory: a read after a write, and that every memory operation keeps the canonical form. -/

namespace Sys2Proof.Machine

/-- A store is read back at its address. -/
@[simp] theorem Memory.read_write_same (m : List Host.Cell) (a : Nat) (v : Byte) :
    Memory.read (Memory.write m a v) a = some v := by
  induction m with
  | nil => simp [Memory.write, Memory.read]
  | cons c m ih =>
    obtain ⟨b, w⟩ := c
    by_cases h1 : a < b
    · simp [Memory.write, Memory.read, h1]
    · by_cases h2 : a = b
      · simp [Memory.write, Memory.read, h2]
      · simp [Memory.write, Memory.read, h1, h2, ih]

/-- A store leaves every other address alone. -/
theorem Memory.read_write_other (m : List Host.Cell) (a b : Nat) (v : Byte) (h : b ≠ a) :
    Memory.read (Memory.write m a v) b = Memory.read m b := by
  induction m with
  | nil => simp [Memory.write, Memory.read, h]
  | cons c m ih =>
    obtain ⟨k, w⟩ := c
    by_cases h1 : a < k
    · simp [Memory.write, Memory.read, h1, h]
    · by_cases h2 : a = k
      · subst h2; simp [Memory.write, Memory.read, h]
      · simp [Memory.write, Memory.read, h1, h2, ih]

/-- Every cell after a store is the stored one or an old one. -/
theorem Memory.mem_write {m : List Host.Cell} {a : Nat} {v : Byte} {c : Host.Cell}
    (h : c ∈ Memory.write m a v) : c = (a, v) ∨ c ∈ m := by
  induction m with
  | nil => simpa [Memory.write] using h
  | cons d m ih =>
    obtain ⟨k, w⟩ := d
    simp only [Memory.write] at h
    split at h
    · simpa using h
    · split at h
      · rcases List.mem_cons.1 h with h | h
        · exact .inl h
        · exact .inr (List.mem_cons_of_mem _ h)
      · rcases List.mem_cons.1 h with h | h
        · exact .inr (by simp [h])
        · exact (ih h).imp id (List.mem_cons_of_mem _)

/-- A store keeps the canonical form. -/
theorem Memory.wf_write {m : List Host.Cell} (a : Nat) (v : Byte) (h : Memory.wf m = true) :
    Memory.wf (Memory.write m a v) = true := by
  simp only [Memory.wf, decide_eq_true_eq] at *
  induction m with
  | nil => simp [Memory.write]
  | cons d m ih =>
    obtain ⟨k, w⟩ := d
    obtain ⟨hk, hm⟩ := List.pairwise_cons.1 h
    simp only [Memory.write]
    split
    case isTrue h1 =>
      refine List.pairwise_cons.2 ⟨fun c hc => ?_, h⟩
      rcases List.mem_cons.1 hc with rfl | hc
      · exact h1
      · exact Nat.lt_trans h1 (hk c hc)
    case isFalse h1 =>
      split
      case isTrue h2 => exact List.pairwise_cons.2 ⟨fun c hc => by simpa [h2] using hk c hc, hm⟩
      case isFalse h2 =>
        refine List.pairwise_cons.2 ⟨fun c hc => ?_, ih hm⟩
        rcases Memory.mem_write hc with rfl | hc
        · show k < a
          omega
        · exact hk c hc

/-- A run of stores keeps the canonical form. -/
theorem Memory.wf_writeList {m : List Host.Cell} (a : Nat) (vs : List Byte) (h : Memory.wf m = true) :
    Memory.wf (Memory.writeList m a vs) = true := by
  induction vs generalizing m a with
  | nil => exact h
  | cons v vs ih => exact ih _ (Memory.wf_write a v h)

/-- A run of stores within the address space keeps every address within it. -/
theorem Memory.bound_writeList {m : List Host.Cell} {a n : Nat} {vs : List Byte}
    (hm : ∀ c ∈ m, c.1 < n) (h : a + vs.length ≤ n) : ∀ c ∈ Memory.writeList m a vs, c.1 < n := by
  induction vs generalizing m a with
  | nil => exact hm
  | cons v vs ih =>
    simp only [List.length_cons] at h
    refine ih (fun c hc => ?_) (by omega)
    rcases Memory.mem_write hc with rfl | hc
    · show a < n
      omega
    · exact hm c hc

/-- A run of stores leaves every address outside it alone. -/
theorem Memory.read_writeList_outside (m : List Host.Cell) (a b : Nat) (vs : List Byte)
    (h : b < a ∨ a + vs.length ≤ b) : Memory.read (Memory.writeList m a vs) b = Memory.read m b := by
  induction vs generalizing m a with
  | nil => rfl
  | cons v vs ih =>
    simp only [List.length_cons] at h
    rw [Memory.writeList, ih _ _ (by omega), Memory.read_write_other _ _ _ _ (by omega)]

/-- A run of stores is read back byte by byte. -/
theorem Memory.read_writeList_inside (m : List Host.Cell) (a j : Nat) (vs : List Byte) (h : j < vs.length) :
    Memory.read (Memory.writeList m a vs) (a + j) = vs[j]? := by
  induction vs generalizing m a j with
  | nil => simp at h
  | cons v vs ih =>
    cases j with
    | zero =>
      rw [Memory.writeList, Memory.read_writeList_outside _ _ _ _ (by omega)]
      simp
    | succ j =>
      have := ih (Memory.write m a v) (a + 1) j (by simpa using h)
      rw [Memory.writeList, show a + (j + 1) = a + 1 + j by omega, this]
      simp

@[simp] theorem bufBytes_length (s : State) (k n : Nat) : (s.bufBytes k n).length = n := by
  simp [State.bufBytes]

theorem bufBytes_getElem? (s : State) {k n j : Nat} (h : j < n) : (s.bufBytes k n)[j]? = some (s.bufByte (k + j)) := by
  simp [State.bufBytes, h]

/-- What a copy leaves in host memory: the copied bytes in its range, the old bytes outside. -/
theorem read_copyOut (s : State) (dst k n a : Nat) :
    Memory.read (s.copyOut dst k n).hm a =
      if dst ≤ a ∧ a < dst + n then some (s.bufByte (k + (a - dst))) else Memory.read s.hm a := by
  rw [copyOut_hm]
  split
  case isTrue h =>
    have := Memory.read_writeList_inside s.hm dst (a - dst) (s.bufBytes k n) (by simpa using by omega)
    rw [show dst + (a - dst) = a by omega] at this
    rw [this, bufBytes_getElem? s (by omega)]
  case isFalse h => exact Memory.read_writeList_outside _ _ _ _ (by simpa using by omega)

end Sys2Proof.Machine
end

