-- ==== Sys2Proof/Laws/Draws.lean ====
section
/-! SUPPORT. Everything a draw can do, said once: what it leaves alone, the invariants it keeps, and how it ends
(spec 40_word_engine.md R103, R110 to R115). Later proofs cite `Draw.Ok` and unfold no draw. -/

namespace Sys2Proof.Machine

/-- The part of the invariants that draws can touch. -/
structure DrawInv (s : State) : Prop where
  cfgWf : s.cfg.wellFormed = true
  bufLen : s.buffer.length = s.cfg.words
  cursorLe : s.cursor ≤ s.cfg.words
  byteLegal : byteCacheLegal s.byteCache
  shortLegal : shortCacheLegal s.shortCache

/-- A draw took `s` to `t`: what it leaves alone and what it keeps. -/
structure DrawRel (s t : State) : Prop where
  cfg : t.cfg = s.cfg
  gaussSpare : t.gaussSpare = s.gaussSpare
  seeded : t.seeded = s.seeded
  wstage : t.wstage = s.wstage
  cmdOp : t.cmdOp = s.cmdOp
  op0 : t.op0 = s.op0
  op1 : t.op1 = s.op1
  cont : t.cont = s.cont
  arg0 : t.arg0 = s.arg0
  arg1 : t.arg1 = s.arg1
  res : t.res = s.res
  done : t.done = s.done
  err : t.err = s.err
  hm : t.hm = s.hm
  bus : t.bus = s.bus
  rdata : t.rdata = s.rdata
  inv : DrawInv s → DrawInv t
  refilling : s.refilling = false → t.refilling = false
  fillCount : s.fillCount = 0 → t.fillCount = 0
  well : s.cfg.provider ≠ .well512 → t.wstate = s.wstate ∧ t.windex = s.windex

theorem DrawRel.refl (s : State) : DrawRel s s := by
  constructor <;> try simp

theorem DrawRel.trans {s t u : State} (h : DrawRel s t) (k : DrawRel t u) : DrawRel s u where
  cfg := k.cfg.trans h.cfg
  gaussSpare := k.gaussSpare.trans h.gaussSpare
  seeded := k.seeded.trans h.seeded
  wstage := k.wstage.trans h.wstage
  cmdOp := k.cmdOp.trans h.cmdOp
  op0 := k.op0.trans h.op0
  op1 := k.op1.trans h.op1
  cont := k.cont.trans h.cont
  arg0 := k.arg0.trans h.arg0
  arg1 := k.arg1.trans h.arg1
  res := k.res.trans h.res
  done := k.done.trans h.done
  err := k.err.trans h.err
  hm := k.hm.trans h.hm
  bus := k.bus.trans h.bus
  rdata := k.rdata.trans h.rdata
  inv := k.inv ∘ h.inv
  refilling := k.refilling ∘ h.refilling
  fillCount := k.fillCount ∘ h.fillCount
  well hp :=
    have a := h.well hp
    have b := k.well (h.cfg ▸ hp)
    ⟨b.1.trans a.1, b.2.trans a.2⟩

/-- How a draw from `s` can end. -/
def Draw.Ok {α : Type} (s : State) : Draw α → Prop
  | .got _ t => DrawRel s t
  | .wait t => ∃ u, DrawRel s u ∧ t = u.startFill ∧ s.cfg.provider ≠ .well512
  | .abort e t => DrawRel s t ∧ e = .unseeded ∧ s.cfg.provider = .well512 ∧ s.seeded = false
  | .diverge => True

theorem Draw.Ok.from {α : Type} {s t : State} {d : Draw α} (h : DrawRel s t) (k : d.Ok t) : d.Ok s := by
  cases d with
  | got v u => exact h.trans k
  | wait u =>
    obtain ⟨w, hw, rfl, hp⟩ := k
    exact ⟨w, h.trans hw, rfl, h.cfg ▸ hp⟩
  | abort e u =>
    obtain ⟨hr, he, hp, hs⟩ := k
    exact ⟨h.trans hr, he, h.cfg ▸ hp, h.seeded ▸ hs⟩
  | diverge => trivial

theorem Draw.Ok.bind {α β : Type} {s : State} {d : Draw α} {f : α → State → Draw β} (h : d.Ok s)
    (k : ∀ v t, d = .got v t → (f v t).Ok t) : (d.bind f).Ok s := by
  cases d with
  | got v t => exact (k v t rfl).from h
  | wait t => exact h
  | abort e t => exact h
  | diverge => trivial

/-- The buffer after the internal fill has N words. -/
@[simp] theorem w512Generate_length (n : Nat) (w : Well) : (w512Generate n w).1.length = n := by
  induction n generalizing w with
  | zero => rfl
  | succ n ih => simp [w512Generate, ih]

theorem DrawInv.of_eq {s t : State} (h : DrawInv s) (hc : t.cfg = s.cfg) (hb : t.buffer.length = s.buffer.length)
    (hcur : t.cursor ≤ s.cfg.words) (h1 : byteCacheLegal t.byteCache) (h2 : shortCacheLegal t.shortCache) :
    DrawInv t where
  cfgWf := hc ▸ h.cfgWf
  bufLen := by rw [hb, hc, h.bufLen]
  cursorLe := hc ▸ hcur
  byteLegal := h1
  shortLegal := h2

theorem fillFromWell_refillDone_rel {s : State} (hp : s.cfg.provider = .well512) :
    DrawRel s s.fillFromWell.refillDone := by
  constructor <;> try simp [hp]
  intro h
  refine ⟨h.cfgWf, ?_, ?_, h.byteLegal, h.shortLegal⟩ <;> simp

theorem refill_ok (s : State) : (refill s).Ok s := by
  unfold refill
  cases hp : s.cfg.provider with
  | well512 =>
    cases hs : s.seeded with
    | true => exact fillFromWell_refillDone_rel hp
    | false => exact ⟨DrawRel.refl s, rfl, hp, hs⟩
  | extWord => exact ⟨s, DrawRel.refl s, rfl, by simp [hp]⟩
  | extByte => exact ⟨s, DrawRel.refl s, rfl, by simp [hp]⟩

theorem needWords_ok (n : Nat) (s : State) : (needWords n s).Ok s := by
  unfold needWords
  split
  · exact refill_ok s
  · exact DrawRel.refl s

/-- Taking words off the top of the buffer is a draw. -/
theorem takeWords_rel (s : State) (n : Nat) : DrawRel s { s with cursor := s.cursor - n } := by
  constructor <;> try simp
  exact fun h => h.of_eq rfl rfl (by have := h.cursorLe; simp; omega) h.byteLegal h.shortLegal

theorem drawU32_ok (s : State) : (drawU32 s).Ok s :=
  (needWords_ok 1 s).bind fun _ t _ => takeWords_rel t 1

theorem drawU64_ok (s : State) : (drawU64 s).Ok s :=
  (needWords_ok 2 s).bind fun _ t _ => takeWords_rel t 2

theorem toNat_or_sentinel (w : Word) (k : Nat) (h1 : 1 ≤ k) (h2 : k ≤ 32) :
    ((w >>> k) ||| (1#32 <<< (32 - k))).toNat = w.toNat / 2 ^ k + 2 ^ (32 - k) := by
  have hw := w.isLt
  have hlt : 2 ^ (32 - k) < 2 ^ 32 := Nat.pow_lt_pow_right (by omega) (by omega)
  have hpow : 2 ^ k * 2 ^ (32 - k) = 2 ^ 32 := by rw [← pow_add]; congr 1; omega
  have hq : w.toNat / 2 ^ k < 2 ^ (32 - k) := Nat.div_lt_of_lt_mul (by rw [hpow]; exact hw)
  rw [BitVec.toNat_or, BitVec.toNat_ushiftRight, BitVec.toNat_shiftLeft, Nat.shiftRight_eq_div_pow,
    Nat.shiftLeft_eq]
  simp only [BitVec.toNat_ofNat, Nat.reducePow, Nat.one_mod_eq_one.2 (by omega : (4294967296 : Nat) ≠ 1), one_mul]
  have ho := Nat.two_pow_add_eq_or_of_lt hq 1
  rw [mul_one] at ho
  rw [Nat.mod_eq_of_lt (by simpa using hlt), Nat.lor_comm, ← ho]
  omega

/-- The legality of each cache (10_state.md R27 to R29). -/
def cacheLegal : Cache → Word → Prop
  | .bit, _ => True
  | .byte, c => byteCacheLegal c
  | .short, c => shortCacheLegal c

/-- A fresh cache is legal (R112). -/
theorem cacheLegal_fresh (c : Cache) (w : Word) :
    cacheLegal c ((w >>> c.width) ||| (1#32 <<< (32 - c.width))) := by
  have hw := w.isLt
  cases c with
  | bit => trivial
  | byte =>
    have := toNat_or_sentinel w 8 (by omega) (by omega)
    refine .inr (.inr (.inr (.inr ?_)))
    simp only [Cache.width] at *
    omega
  | short =>
    have := toNat_or_sentinel w 16 (by omega) (by omega)
    refine .inr (.inr ?_)
    simp only [Cache.width] at *
    omega

/-- Shifting a field out of a cache that holds one leaves a legal cache (R112). -/
theorem cacheLegal_shift (c : Cache) (v : Word) (h : cacheLegal c v) (hk : 2 ^ c.width ≤ v.toNat) :
    cacheLegal c (v >>> c.width) := by
  cases c with
  | bit => trivial
  | byte =>
    have e : (v >>> 8).toNat = v.toNat / 256 := by simp [Nat.shiftRight_eq_div_pow]
    simp only [cacheLegal, byteCacheLegal, Cache.width] at *
    rcases h with rfl | rfl | h | h | h
    · simp at hk
    · simp at hk
    · refine .inr (.inl (BitVec.eq_of_toNat_eq ?_))
      rw [e]; simp; omega
    · exact .inr (.inr (.inl (by omega)))
    · exact .inr (.inr (.inr (.inl (by omega))))
  | short =>
    have e : (v >>> 16).toNat = v.toNat / 65536 := by simp [Nat.shiftRight_eq_div_pow]
    simp only [cacheLegal, shortCacheLegal, Cache.width] at *
    rcases h with rfl | rfl | h
    · simp at hk
    · simp at hk
    · refine .inr (.inl (BitVec.eq_of_toNat_eq ?_))
      rw [e]; simp; omega

theorem DrawInv.cacheLegal {s : State} (h : DrawInv s) (c : Cache) : cacheLegal c (s.cache c) := by
  cases c
  · trivial
  · exact h.byteLegal
  · exact h.shortLegal

/-- Writing a legal value to a cache is a draw. -/
theorem setCache_rel (s : State) (c : Cache) (v : Word) (h : DrawInv s → cacheLegal c v) :
    DrawRel s (s.setCache c v) := by
  constructor <;> try simp
  intro hi
  refine hi.of_eq (by simp) (by simp) (by simpa using hi.cursorLe) ?_ ?_
  · cases c
    · exact hi.byteLegal
    · exact h hi
    · exact hi.byteLegal
  · cases c
    · exact hi.shortLegal
    · exact hi.shortLegal
    · exact h hi

theorem drawSub_ok (c : Cache) (s : State) : (drawSub c s).Ok s := by
  unfold drawSub
  simp only
  split
  case isTrue h => exact setCache_rel s c _ fun hi => cacheLegal_shift c _ (hi.cacheLegal c) h
  case isFalse h => exact (drawU32_ok s).bind fun w t _ => setCache_rel t c _ fun _ => cacheLegal_fresh c w

theorem drawWidth_ok (w : DrawWidth) (s : State) : (drawWidth w s).Ok s := by
  cases w with
  | w8 => exact drawSub_ok .byte s
  | w16 => exact drawSub_ok .short s
  | w32 => exact (drawU32_ok s).bind fun _ t _ => DrawRel.refl t
  | w64 => exact (drawU64_ok s).bind fun _ t _ => DrawRel.refl t

theorem uniformDouble_ok (s : State) : (uniformDouble s).Ok s :=
  (drawU64_ok s).bind fun _ t _ => DrawRel.refl t

theorem uniformFloat_ok (s : State) : (uniformFloat s).Ok s :=
  (drawU32_ok s).bind fun _ t _ => DrawRel.refl t

/-- A loop of draws ends as a draw does, and with an accepted value (42_sampler.md R171). -/
theorem retry_ok {α β : Type} {draw : State → Draw α} (h : ∀ s, (draw s).Ok s) (accept : α → Option β) (n : Nat)
    (s : State) : (retry draw accept n s).Ok s := by
  induction n generalizing s with
  | zero => trivial
  | succ n ih =>
    have hs := h s
    unfold retry
    cases hd : draw s with
    | got x t =>
      rw [hd] at hs
      simp only
      cases accept x with
      | some y => exact hs
      | none => exact (ih t).from hs
    | wait t => rw [hd] at hs; exact hs
    | abort e t => rw [hd] at hs; exact hs
    | diverge => trivial

/-- What a loop of draws returns was accepted. -/
theorem retry_accepted {α β : Type} {draw : State → Draw α} {accept : α → Option β} {n : Nat} {s t : State} {y : β}
    (h : retry draw accept n s = .got y t) : ∃ x, accept x = some y := by
  induction n generalizing s with
  | zero => simp [retry] at h
  | succ n ih =>
    unfold retry at h
    cases hd : draw s with
    | got x u =>
      simp only [hd] at h
      cases ha : accept x with
      | some z =>
        simp only [ha] at h
        exact ⟨x, by rw [ha]; injection h with h1 h2; rw [h1]⟩
      | none =>
        simp only [ha] at h
        exact ih h
    | wait u => simp [hd] at h
    | abort e u => simp [hd] at h
    | diverge => simp [hd] at h

end Sys2Proof.Machine
end

