-- ==== Sys2Proof/Laws/Bodies.lean ====
section
/-! SUPPORT. Command bodies keep the invariants: from a running command's state, whatever a body answers satisfies
`State.Inv` (spec 10_state.md R50). One lemma per body; each rests on `Draw.Ok`. -/

namespace Sys2Proof.Machine

/-- The state inside a command body: the invariants hold, no refill is pending and STATUS is cleared. -/
structure RunInv (s : State) : Prop where
  draw : DrawInv s
  refilling : s.refilling = false
  fillCount : s.fillCount = 0
  spareCanon : isNaN s.gaussSpare = true → s.gaussSpare = canonicalNaN
  done : s.done = false
  err : s.err = .none
  hmWf : Memory.wf s.hm = true
  hmBound : ∀ c ∈ s.hm, c.1 < 2 ^ 32

/-- Every next state of an answer satisfies `P`. -/
def Answer.All (P : State → Prop) (a : Answer) : Prop := ∀ t, a = .next t → P t

theorem Answer.all_next {P : State → Prop} {t : State} (h : P t) : Answer.All P (.next t) := by
  intro u hu; injection hu with hu; exact hu ▸ h

theorem Answer.all_fault {P : State → Prop} (r : Fault) : Answer.All P (.fault r) := by intro u hu; cases hu

theorem Answer.all_refused {P : State → Prop} (r : Refusal) : Answer.All P (.refused r) := by intro u hu; cases hu

theorem RunInv.of_rel {s t : State} (h : RunInv s) (r : DrawRel s t) : RunInv t where
  draw := r.inv h.draw
  refilling := r.refilling h.refilling
  fillCount := r.fillCount h.fillCount
  spareCanon := by rw [r.gaussSpare]; exact h.spareCanon
  done := r.done.trans h.done
  err := r.err.trans h.err
  hmWf := by rw [r.hm]; exact h.hmWf
  hmBound := by rw [r.hm]; exact h.hmBound

theorem RunInv.complete {s : State} (h : RunInv s) (r : Option DWord) : (s.complete r).Inv where
  cfgWf := h.draw.cfgWf
  bufLen := h.draw.bufLen
  cursorLe := h.draw.cursorLe
  refillKind := by simp [h.refilling]
  refillCont := by simp [h.refilling]
  fillIdle := by simp [h.fillCount]
  fillBound := by simp [h.refilling]
  byteLegal := h.draw.byteLegal
  shortLegal := h.draw.shortLegal
  spareCanon := h.spareCanon
  errDone := by simp
  refillNotDone := by simp [h.refilling]
  hmWf := h.hmWf
  hmBound := h.hmBound
  frameOk := by simp

theorem RunInv.abort {s : State} (h : RunInv s) (b : Bool) (e : ErrCode) : (s.abort b e).Inv where
  cfgWf := h.draw.cfgWf
  bufLen := h.draw.bufLen
  cursorLe := by have := h.draw.cursorLe; cases b <;> simp [this]
  refillKind := by simp
  refillCont := by simp
  fillIdle := by simp
  fillBound := by simp
  byteLegal := h.draw.byteLegal
  shortLegal := h.draw.shortLegal
  spareCanon := h.spareCanon
  errDone := by simp
  refillNotDone := by simp
  hmWf := h.hmWf
  hmBound := h.hmBound
  frameOk := by simp

theorem words_pos {c : Config} (h : c.wellFormed = true) : 2 ≤ c.words ∧ c.words ≤ 2 ^ 29 := by
  simp only [Config.wellFormed, Bool.and_eq_true, decide_eq_true_eq] at h
  unfold Config.words
  omega

theorem fillUnits_pos {c : Config} (h : c.wellFormed = true) (hp : c.provider ≠ .well512) : 1 < fillUnits c := by
  have := words_pos h
  unfold fillUnits
  cases hc : c.provider <;> simp_all <;> omega

theorem RunInv.suspend {s : State} (h : RunInv s) (hp : s.cfg.provider ≠ .well512) {k : Frame} (hk : k.ok) :
    (s.startFill.suspend k).Inv where
  cfgWf := h.draw.cfgWf
  bufLen := h.draw.bufLen
  cursorLe := h.draw.cursorLe
  refillKind := fun _ => hp
  refillCont := by simp
  fillIdle := by simp
  fillBound := fun _ => by have := fillUnits_pos h.draw.cfgWf hp; simp; omega
  byteLegal := h.draw.byteLegal
  shortLegal := h.draw.shortLegal
  spareCanon := h.spareCanon
  errDone := by simp [h.err]
  refillNotDone := by simp [h.done]
  hmWf := h.hmWf
  hmBound := h.hmBound
  frameOk := by simp [hk]

theorem finish_inv {s : State} (h : RunInv s) (r : Option DWord) : Answer.All State.Inv (finish r s) :=
  Answer.all_next (h.complete r)

theorem raise_inv {s : State} (h : RunInv s) (e : ErrCode) : Answer.All State.Inv (raise e s) :=
  Answer.all_next (h.abort false e)

/-- A draw followed by the rest of a body: the rest need only be looked at where the draw returned. -/
theorem thenDo_inv {α : Type} {s : State} {d : Draw α} {k : Frame} {f : α → State → Answer} (h : RunInv s)
    (hd : d.Ok s) (hk : k.ok) (hf : ∀ v t, d = .got v t → RunInv t → Answer.All State.Inv (f v t)) :
    Answer.All State.Inv (d.thenDo k f) := by
  cases d with
  | got v t => exact hf v t rfl (h.of_rel hd)
  | wait t =>
    obtain ⟨u, hu, rfl, hp⟩ := hd
    exact Answer.all_next ((h.of_rel hu).suspend (hu.cfg ▸ hp) hk)
  | abort e t => exact Answer.all_next ((h.of_rel hd.1).abort true e)
  | diverge => exact Answer.all_fault _

/-- A draw whose value becomes the result. -/
theorem thenFinish_inv {α : Type} {s : State} {d : Draw α} {k : Frame} (f : α → Option DWord) (h : RunInv s)
    (hd : d.Ok s) (hk : k.ok) : Answer.All State.Inv (d.thenDo k fun v t => finish (f v) t) :=
  thenDo_inv h hd hk fun _ _ _ ht => finish_inv ht _

/-! ## The word engine -/

theorem copyOut_runInv {s : State} (h : RunInv s) {dst n cur : Nat} (k : Nat) (hd : dst + n ≤ 2 ^ 32)
    (hc : cur ≤ s.cfg.words) : RunInv { s.copyOut dst k n with cursor := cur } where
  draw := ⟨h.draw.cfgWf, h.draw.bufLen, hc, h.draw.byteLegal, h.draw.shortLegal⟩
  refilling := h.refilling
  fillCount := h.fillCount
  spareCanon := h.spareCanon
  done := h.done
  err := h.err
  hmWf := Memory.wf_writeList _ _ h.hmWf
  hmBound := Memory.bound_writeList h.hmBound (by simpa using hd)

theorem bytesLoop_inv (n : Nat) {dst count : Nat} {s : State} (h : RunInv s) (hr : dst + count ≤ 2 ^ 32) :
    Answer.All State.Inv (bytesLoop n dst count s) := by
  induction n generalizing dst count s with
  | zero => exact Answer.all_fault _
  | succ n ih =>
    have hcur := h.draw.cursorLe
    unfold bytesLoop
    simp only
    split
    case isTrue hlt =>
      have hrun := copyOut_runInv h (dst := dst) (n := 4 * s.cursor) (cur := 0) 0 (by omega) (by omega)
      have hok := refill_ok { s.copyOut dst 0 (4 * s.cursor) with cursor := 0 }
      cases hd : refill { s.copyOut dst 0 (4 * s.cursor) with cursor := 0 } with
      | got v t =>
        rw [hd] at hok
        exact ih (hrun.of_rel hok) (by omega)
      | wait t =>
        rw [hd] at hok
        obtain ⟨u, hu, rfl, hp⟩ := hok
        exact Answer.all_next ((hrun.of_rel hu).suspend (hu.cfg ▸ hp) (by simp only [Frame.ok]; omega))
      | abort e t =>
        rw [hd] at hok
        exact Answer.all_next ((hrun.of_rel hok.1).abort true e)
      | diverge => exact Answer.all_fault _
    case isFalse hge =>
      exact finish_inv (copyOut_runInv h _ hr (by omega)) _

theorem execBytes_inv {s : State} (h : RunInv s) : Answer.All State.Inv (execBytes s) := by
  unfold execBytes
  split
  · exact raise_inv h _
  · exact bytesLoop_inv _ h (by omega)

/-! ## The Well512 commands -/

theorem seedWith_runInv {s : State} (h : RunInv s) (ws : Vector Word 16) : RunInv (s.seedWith ws).flushForSeed := by
  have h' : RunInv (s.seedWith ws) := ⟨⟨h.draw.cfgWf, h.draw.bufLen, h.draw.cursorLe, h.draw.byteLegal,
    h.draw.shortLegal⟩, h.refilling, h.fillCount, h.spareCanon, h.done, h.err, h.hmWf, h.hmBound⟩
  by_cases hp : (s.seedWith ws).cfg.provider = .well512
  · rw [flushForSeed_well512 _ hp]
    exact ⟨⟨h.draw.cfgWf, h.draw.bufLen, Nat.zero_le _, .inl rfl, .inl rfl⟩, h.refilling, h.fillCount, fun _ => rfl,
      h.done, h.err, h.hmWf, h.hmBound⟩
  · rw [flushForSeed_external _ hp]
    exact h'

theorem execW512Next_inv {s : State} (h : RunInv s) : Answer.All State.Inv (execW512Next s) := by
  unfold execW512Next
  split
  · refine finish_inv ?_ _
    exact ⟨⟨h.draw.cfgWf, h.draw.bufLen, h.draw.cursorLe, h.draw.byteLegal, h.draw.shortLegal⟩, h.refilling,
      h.fillCount, h.spareCanon, h.done, h.err, h.hmWf, h.hmBound⟩
  · exact raise_inv h _

/-! ## The sampler -/

theorem sampleFrom_inv {s : State} (h : RunInv s) {p : SamplePlan} {start : Int} {t : IntType}
    (hk : (Frame.sample p start t).ok) : Answer.All State.Inv (sampleFrom p start t s) :=
  thenFinish_inv _ h (retry_ok (drawWidth_ok _) _ _ _) hk

/-- The plan of SampleMax: its count is mx + 1 and at most usable (42_sampler.md R171, R172). -/
theorem samplePlan_spec {mx d : Nat} (hd : d = 32 ∨ d = 64) (h : mx < 2 ^ d) :
    (samplePlan mx d).count = mx + 1 ∧ mx + 1 ≤ (samplePlan mx d).usable := by
  unfold samplePlan
  split
  case isTrue hm => rcases hd with rfl | rfl <;> simp only at * <;> omega
  case isFalse hm =>
    refine ⟨rfl, ?_⟩
    have hle : mx + 1 ≤ 2 ^ (chooseWidth (mx + 1)).bits := by
      unfold chooseWidth
      split
      · simp only [DrawWidth.bits]; omega
      · split
        · simp only [DrawWidth.bits]; omega
        · split
          · simp only [DrawWidth.bits]; omega
          · simp only [DrawWidth.bits]
            rcases hd with rfl | rfl <;> omega
    have := Nat.div_pos hle (Nat.succ_pos mx)
    exact Nat.le_mul_of_pos_left _ this

theorem IntType.domain_cases (t : IntType) : t.domain = 32 ∨ t.domain = 64 := by cases t <;> simp [IntType.domain]

/-- Every operand lies in its type (42_sampler.md section 2). -/
theorem IntType.read_bounds (t : IntType) (x : DWord) : t.least ≤ t.read x ∧ t.read x ≤ t.greatest := by
  have hx := x.isLt
  have h32 := (x.extractLsb' 0 32).isLt
  cases t with
  | u32 => simp only [IntType.least, IntType.read, opU32, IntType.greatest]; omega
  | s32 =>
    simp only [IntType.least, IntType.read, opS32, IntType.greatest]
    rw [BitVec.toInt_eq_toNat_cond]
    split <;> omega
  | u64 => simp only [IntType.least, IntType.read, opU64, IntType.greatest]; omega
  | s64 =>
    simp only [IntType.least, IntType.read, opS64, IntType.greatest]
    rw [BitVec.toInt_eq_toNat_cond]
    split <;> omega

theorem sampleMax_inv {s : State} (h : RunInv s) {mx : Nat} {start : Int} {t : IntType} (hmx : mx < 2 ^ t.domain)
    (hlo : t.least ≤ start) (hhi : start + mx ≤ t.greatest) : Answer.All State.Inv (sampleMax mx start t s) := by
  have hp := samplePlan_spec t.domain_cases hmx
  refine sampleFrom_inv h ⟨by omega, by omega, hlo, ?_⟩
  rw [hp.1]
  push_cast
  omega

theorem rndCount_inv {s : State} (h : RunInv s) (t : IntType) : Answer.All State.Inv (rndCount t s) := by
  have hb := t.read_bounds s.op0
  unfold rndCount
  simp only
  split
  · exact raise_inv h _
  · refine sampleMax_inv h ?_ ?_ ?_ <;>
      cases t <;> simp only [IntType.domain, IntType.least, IntType.greatest] at * <;> omega

theorem rndRange_inv {s : State} (h : RunInv s) (t : IntType) : Answer.All State.Inv (rndRange t s) := by
  have hb := t.read_bounds s.op0
  have hc := t.read_bounds s.op1
  unfold rndRange
  simp only
  split
  · exact raise_inv h _
  · refine sampleMax_inv h ?_ ?_ ?_ <;>
      cases t <;> simp only [IntType.domain, IntType.least, IntType.greatest] at * <;> omega

theorem rndStartCount_inv {s : State} (h : RunInv s) (t : IntType) : Answer.All State.Inv (rndStartCount t s) := by
  have hb := t.read_bounds s.op0
  have hc := t.read_bounds s.op1
  unfold rndStartCount
  simp only
  split
  · exact raise_inv h _
  · split
    · exact raise_inv h _
    · refine sampleMax_inv h ?_ ?_ ?_ <;>
        cases t <;> simp only [IntType.domain, IntType.least, IntType.greatest] at * <;> omega

/-! ## The distributions -/

@[simp] theorem canonical_canonicalNaN : canonical canonicalNaN = canonicalNaN := by decide

/-- A canonicalised value that is a NaN is the canonical NaN (43_distributions.md R208). -/
theorem canonical_nan {x : F64} (h : isNaN (canonical x) = true) : canonical x = canonicalNaN := by
  unfold canonical at *
  split
  · rfl
  · split at h
    · contradiction
    · contradiction

theorem setSpare_runInv {s : State} (h : RunInv s) (g : F64) : RunInv (s.setSpare g) :=
  ⟨⟨h.draw.cfgWf, h.draw.bufLen, h.draw.cursorLe, h.draw.byteLegal, h.draw.shortLegal⟩, h.refilling, h.fillCount,
    canonical_nan, h.done, h.err, h.hmWf, h.hmBound⟩

theorem gaussPair_inv {s : State} (h : RunInv s) (u v : F64) (post : GaussPost) :
    Answer.All State.Inv (gaussPair u v post s) :=
  finish_inv (setSpare_runInv h _) _

theorem gaussFromV_inv {s : State} (h : RunInv s) (u : F64) (post : GaussPost) :
    Answer.All State.Inv (gaussFromV u post s) :=
  thenDo_inv h (uniformDouble_ok s) trivial fun v _ _ ht => gaussPair_inv ht u v post

theorem gaussFromU_inv {s : State} (h : RunInv s) (post : GaussPost) : Answer.All State.Inv (gaussFromU post s) :=
  thenDo_inv h (uniformDouble_ok s) trivial fun u _ _ ht => gaussFromV_inv ht u post

theorem gauss_inv {s : State} (h : RunInv s) (post : GaussPost) : Answer.All State.Inv (gauss post s) := by
  unfold gauss
  split
  · refine finish_inv ?_ _
    exact ⟨⟨h.draw.cfgWf, h.draw.bufLen, h.draw.cursorLe, h.draw.byteLegal, h.draw.shortLegal⟩,
      h.refilling, h.fillCount, fun _ => rfl, h.done, h.err, h.hmWf, h.hmBound⟩
  · exact gaussFromU_inv h post

theorem expoFrom_inv {s : State} (h : RunInv s) (post : ExpoPost) : Answer.All State.Inv (expoFrom post s) :=
  thenFinish_inv _ h (uniformDouble_ok s) trivial

theorem udblSlenFrom_inv {s : State} (h : RunInv s) (start len : F64) :
    Answer.All State.Inv (udblSlenFrom start len s) :=
  thenFinish_inv _ h (uniformDouble_ok s) trivial

theorem udblRangeFrom_inv {s : State} (h : RunInv s) (start len stop : F64) :
    Answer.All State.Inv (udblRangeFrom start len stop s) :=
  thenFinish_inv _ h (retry_ok uniformDouble_ok _ _ _) trivial

theorem binomFrom_inv {left k : Nat} {p : F64} {s : State} (h : RunInv s) (hk : left + k < 2 ^ 31) :
    Answer.All State.Inv (binomFrom left k p s) := by
  induction left generalizing k s with
  | zero => exact finish_inv h _
  | succ left ih =>
    refine thenDo_inv h (uniformDouble_ok s) hk fun u t _ ht => ih ht ?_
    split <;> omega

theorem execBinom_inv {s : State} (h : RunInv s) : Answer.All State.Inv (execBinom s) := by
  have hb := IntType.read_bounds .s32 s.op0
  simp only [IntType.read, IntType.least, IntType.greatest] at hb
  unfold execBinom
  simp only
  split
  · exact raise_inv h _
  · split
    · exact raise_inv h _
    · exact binomFrom_inv h (by omega)

theorem execUdblRange_inv {s : State} (h : RunInv s) : Answer.All State.Inv (execUdblRange s) := by
  unfold execUdblRange
  simp only
  split
  · exact raise_inv h _
  · split
    · exact raise_inv h _
    · exact udblRangeFrom_inv h _ _ _

theorem execUdblSlen_inv {s : State} (h : RunInv s) : Answer.All State.Inv (execUdblSlen s) := by
  unfold execUdblSlen
  simp only
  split
  · exact raise_inv h _
  · exact udblSlenFrom_inv h _ _

/-! ## Every command and every frame -/

/-- Whatever a command answers from a running state satisfies the invariants. -/
theorem exec_inv (i : Instr) {s : State} (h : RunInv s) : Answer.All State.Inv (exec i s) := by
  have lim32 : ∀ x : DWord, opU32 x < 2 ^ 32 := fun x => (x.extractLsb' 0 32).isLt
  have lim64 : ∀ x : DWord, opU64 x < 2 ^ 64 := fun x => x.isLt
  cases i with
  | int32 => exact thenFinish_inv _ h (drawU32_ok s) trivial
  | uint32 => exact thenFinish_inv _ h (drawU32_ok s) trivial
  | int64 => exact thenFinish_inv _ h (drawU64_ok s) trivial
  | uint64 => exact thenFinish_inv _ h (drawU64_ok s) trivial
  | bool => exact thenFinish_inv _ h (drawSub_ok _ s) trivial
  | byte => exact thenFinish_inv _ h (drawSub_ok _ s) trivial
  | uint16 => exact thenFinish_inv _ h (drawSub_ok _ s) trivial
  | bytes => exact execBytes_inv h
  | refill => exact thenFinish_inv (fun _ => none) h (refill_ok s) trivial
  | w512Seed64 => exact finish_inv (seedWith_runInv h _) _
  | w512Load => exact finish_inv (seedWith_runInv h _) _
  | w512Next => exact execW512Next_inv h
  | smpl32 =>
    have := lim32 s.op0
    exact sampleMax_inv h (by simpa [IntType.domain] using this) (by simp [IntType.least])
      (by simp only [IntType.greatest]; omega)
  | smpl64 =>
    have := lim64 s.op0
    exact sampleMax_inv h (by simpa [IntType.domain] using this) (by simp [IntType.least])
      (by simp only [IntType.greatest]; omega)
  | rndcntU32 => exact rndCount_inv h _
  | rndcntS32 => exact rndCount_inv h _
  | rndcntU64 => exact rndCount_inv h _
  | rndcntS64 => exact rndCount_inv h _
  | rndrngU32 => exact rndRange_inv h _
  | rndrngS32 => exact rndRange_inv h _
  | rndrngU64 => exact rndRange_inv h _
  | rndrngS64 => exact rndRange_inv h _
  | rndscU32 => exact rndStartCount_inv h _
  | rndscS32 => exact rndStartCount_inv h _
  | rndscU64 => exact rndStartCount_inv h _
  | rndscS64 => exact rndStartCount_inv h _
  | udbl => exact thenFinish_inv _ h (uniformDouble_ok s) trivial
  | uflt => exact thenFinish_inv _ h (uniformFloat_ok s) trivial
  | udblRange => exact execUdblRange_inv h
  | udblSlen => exact execUdblSlen_inv h
  | gauss => exact gauss_inv h _
  | gaussMs => exact gauss_inv h _
  | expo => exact expoFrom_inv h _
  | expoMean => exact expoFrom_inv h _
  | expoRate => exact expoFrom_inv h _
  | binom => exact execBinom_inv h
  | poisson => exact raise_inv h _

/-- Whatever a resumed body answers satisfies the invariants. -/
theorem resume_inv (k : Frame) (hk : k.ok) {s : State} (h : RunInv s) : Answer.All State.Inv (resume k s) := by
  cases k with
  | int32 => exact exec_inv .int32 h
  | uint32 => exact exec_inv .uint32 h
  | int64 => exact exec_inv .int64 h
  | uint64 => exact exec_inv .uint64 h
  | bool => exact exec_inv .bool h
  | byte => exact exec_inv .byte h
  | uint16 => exact exec_inv .uint16 h
  | bytes dst count => exact bytesLoop_inv _ h hk
  | refill => exact finish_inv h _
  | sample p start t => exact sampleFrom_inv h hk
  | udbl => exact exec_inv .udbl h
  | uflt => exact exec_inv .uflt h
  | udblRange start len stop => exact udblRangeFrom_inv h _ _ _
  | udblSlen start len => exact udblSlenFrom_inv h _ _
  | gaussU post => exact gaussFromU_inv h post
  | gaussV u post => exact gaussFromV_inv h u post
  | expo post => exact expoFrom_inv h post
  | binom left n p => exact binomFrom_inv h hk

end Sys2Proof.Machine
end

