-- ==== Sys2Proof/Laws/Divergence.lean ====
section
/-! SUPPORT. The loops of draws (spec 42_sampler.md R171; 43_distributions.md R205) and their bound: under an external
provider a loop always ends within its step, and a loop that has not ended after `State.loopBound` rounds never ends
(42_sampler.md R188; 70_reset_and_hazards.md R285). -/

namespace Sys2Proof.Machine

/-! ## More rounds change nothing once a loop has ended -/

/-- The loop has drawn and rejected `n` values in a row. -/
def Rejects {α β : Type} (draw : State → Draw α) (accept : α → Option β) (n : Nat) (s : State) : Prop :=
  retry draw accept n s = .diverge

/-- The state after one drawn and rejected value. -/
def rejectStep {α β : Type} (draw : State → Draw α) (accept : α → Option β) (s : State) : Option State :=
  match draw s with
  | .got x t => if (accept x).isNone then some t else none
  | _ => none

variable {α β : Type} {draw : State → Draw α} {accept : α → Option β}

theorem retry_succ_of_some {s t : State} (h : rejectStep draw accept s = some t) (n : Nat) :
    retry draw accept (n + 1) s = retry draw accept n t := by
  unfold rejectStep at h
  conv_lhs => rw [retry]
  cases hd : draw s with
  | got x u =>
    simp only [hd] at h ⊢
    cases ha : accept x with
    | none => simp [ha] at h; simp [h]
    | some y => simp [ha] at h
  | wait u => simp [hd] at h
  | abort e u => simp [hd] at h
  | diverge => simp [hd] at h

theorem retry_succ_of_none {s : State} (hnd : draw s ≠ .diverge) (h : rejectStep draw accept s = none) (n m : Nat) :
    retry draw accept (n + 1) s = retry draw accept (m + 1) s ∧ retry draw accept (n + 1) s ≠ .diverge := by
  unfold rejectStep at h
  simp only [retry]
  cases hd : draw s with
  | got x u =>
    simp only [hd] at h ⊢
    cases ha : accept x with
    | none => simp [ha] at h
    | some y => simp
  | wait u => simp
  | abort e u => simp
  | diverge => exact absurd hd hnd

/-- A loop that has ended within `n` rounds ends the same way within more. -/
theorem retry_mono (hnd : ∀ s, draw s ≠ .diverge) {n m : Nat} (h : n ≤ m) {s : State}
    (hr : retry draw accept n s ≠ .diverge) : retry draw accept m s = retry draw accept n s := by
  induction n generalizing m s with
  | zero => exact absurd rfl hr
  | succ n ih =>
    obtain ⟨m, rfl⟩ : ∃ k, m = k + 1 := ⟨m - 1, by omega⟩
    cases hs : rejectStep draw accept s with
    | none => exact (retry_succ_of_none (hnd s) hs m n).1
    | some t =>
      rw [retry_succ_of_some hs] at hr ⊢
      rw [retry_succ_of_some hs]
      exact ih (by omega) hr

theorem Draw.bind_got_ne_diverge {γ δ : Type} {d : Draw γ} (h : d ≠ .diverge) (f : γ → δ) (g : γ → State → State) :
    d.bind (fun v t => .got (f v) (g v t)) ≠ .diverge := by
  cases d <;> simp_all [Draw.bind]

theorem needWords_ne_diverge (n : Nat) (s : State) : needWords n s ≠ .diverge := by
  unfold needWords refill
  split
  · cases s.cfg.provider with
    | well512 => cases s.seeded <;> simp
    | extWord => simp
    | extByte => simp
  · simp

theorem drawU32_ne_diverge (s : State) : drawU32 s ≠ .diverge := by
  have h := needWords_ne_diverge 1 s
  unfold drawU32
  cases hd : needWords 1 s <;> simp_all [Draw.bind]

theorem drawU64_ne_diverge (s : State) : drawU64 s ≠ .diverge := by
  have h := needWords_ne_diverge 2 s
  unfold drawU64
  cases hd : needWords 2 s <;> simp_all [Draw.bind]

theorem drawSub_ne_diverge (c : Cache) (s : State) : drawSub c s ≠ .diverge := by
  unfold drawSub
  simp only
  split
  · simp
  · exact Draw.bind_got_ne_diverge (drawU32_ne_diverge s) (fun w => w.toNat % 2 ^ c.width)
      fun w s => s.setCache c ((w >>> c.width) ||| (1#32 <<< (32 - c.width)))

/-- One raw draw always ends. -/
theorem drawWidth_ne_diverge (w : DrawWidth) (s : State) : drawWidth w s ≠ .diverge := by
  cases w with
  | w8 => exact drawSub_ne_diverge _ s
  | w16 => exact drawSub_ne_diverge _ s
  | w32 => exact Draw.bind_got_ne_diverge (drawU32_ne_diverge s) (fun x => x.toNat) fun _ s => s
  | w64 => exact Draw.bind_got_ne_diverge (drawU64_ne_diverge s) (fun x => x.toNat) fun _ s => s

theorem uniformDouble_ne_diverge (s : State) : uniformDouble s ≠ .diverge :=
  Draw.bind_got_ne_diverge (drawU64_ne_diverge s) (fun x => uniformDoubleBits (x.toNat % 2 ^ 53)) fun _ s => s

/-! ## Under an external provider every draw uses up the buffer or a cache -/

/-- The fields cached in a byte or halfword cache. -/
def cachedFields (c : Word) : Nat :=
  (if 2 ^ 8 ≤ c.toNat then 1 else 0) + (if 2 ^ 16 ≤ c.toNat then 1 else 0) + (if 2 ^ 24 ≤ c.toNat then 1 else 0)

/-- What is left to draw before the next refill. -/
def State.supply (s : State) : Nat := 4 * s.cursor + cachedFields s.byteCache + cachedFields s.shortCache

theorem cachedFields_shift8 {c : Word} (h : 2 ^ 8 ≤ c.toNat) : cachedFields (c >>> 8) + 1 = cachedFields c := by
  have e : (c >>> 8).toNat = c.toNat / 256 := by simp [Nat.shiftRight_eq_div_pow]
  have := c.isLt
  unfold cachedFields
  rw [e]
  split_ifs <;> omega

theorem cachedFields_shift16 {c : Word} (h : 2 ^ 16 ≤ c.toNat) : cachedFields (c >>> 16) < cachedFields c := by
  have e : (c >>> 16).toNat = c.toNat / 65536 := by simp [Nat.shiftRight_eq_div_pow]
  have := c.isLt
  unfold cachedFields
  rw [e]
  split_ifs <;> omega

theorem cachedFields_le (c : Word) : cachedFields c ≤ 3 := by
  unfold cachedFields
  split <;> split <;> split <;> omega

theorem needWords_external {n : Nat} {s t : State} (hp : s.cfg.provider ≠ .well512)
    (h : needWords n s = .got () t) : t = s ∧ n ≤ s.cursor := by
  unfold needWords refill at h
  split at h
  · cases hc : s.cfg.provider <;> simp_all
  · injection h with _ h
    exact ⟨h.symm, by omega⟩

theorem drawU32_external {s t : State} {w : Word} (hp : s.cfg.provider ≠ .well512) (h : drawU32 s = .got w t) :
    1 ≤ s.cursor ∧ t = { s with cursor := s.cursor - 1 } := by
  unfold drawU32 at h
  cases hn : needWords 1 s with
  | got v u =>
    obtain ⟨rfl, hc⟩ := needWords_external hp hn
    simp only [hn, Draw.bind] at h
    injection h with _ h
    exact ⟨hc, h.symm⟩
  | wait u => simp [hn, Draw.bind] at h
  | abort e u => simp [hn, Draw.bind] at h
  | diverge => simp [hn, Draw.bind] at h

theorem drawU64_external {s t : State} {x : DWord} (hp : s.cfg.provider ≠ .well512) (h : drawU64 s = .got x t) :
    2 ≤ s.cursor ∧ t = { s with cursor := s.cursor - 2 } := by
  unfold drawU64 at h
  cases hn : needWords 2 s with
  | got v u =>
    obtain ⟨rfl, hc⟩ := needWords_external hp hn
    simp only [hn, Draw.bind] at h
    injection h with _ h
    exact ⟨hc, h.symm⟩
  | wait u => simp [hn, Draw.bind] at h
  | abort e u => simp [hn, Draw.bind] at h
  | diverge => simp [hn, Draw.bind] at h

theorem Draw.bind_eq_got {γ δ : Type} {d : Draw γ} {f : γ → State → Draw δ} {y : δ} {u : State}
    (h : d.bind f = .got y u) : ∃ x t, d = .got x t ∧ f x t = .got y u := by
  cases d with
  | got x t => exact ⟨x, t, rfl, h⟩
  | wait t => simp [Draw.bind] at h
  | abort e t => simp [Draw.bind] at h
  | diverge => simp [Draw.bind] at h

theorem drawSub_supply {c : Cache} (hc : c ≠ .bit) {s t : State} {x : Nat} (hp : s.cfg.provider ≠ .well512)
    (h : drawSub c s = .got x t) : t.supply < s.supply := by
  unfold drawSub at h
  simp only at h
  split at h
  case isTrue hk =>
    injection h with _ h
    subst h
    cases c with
    | bit => exact absurd rfl hc
    | byte =>
      have := cachedFields_shift8 hk
      simp only [State.supply, setCache_byte_byteCache, setCache_byte_shortCache, setCache_cursor, Cache.width,
        cache_byte] at *
      omega
    | short =>
      have := cachedFields_shift16 hk
      simp only [State.supply, setCache_short_byteCache, setCache_short_shortCache, setCache_cursor, Cache.width,
        cache_short] at *
      omega
  case isFalse hk =>
    obtain ⟨w, u, hu, h⟩ := Draw.bind_eq_got h
    obtain ⟨hcur, rfl⟩ := drawU32_external hp hu
    injection h with _ h
    subst h
    have hb := cachedFields_le (w >>> 8 ||| 1#32 <<< (32 - 8))
    have hs := cachedFields_le (w >>> 16 ||| 1#32 <<< (32 - 16))
    cases c with
    | bit => exact absurd rfl hc
    | byte =>
      simp only [State.supply, setCache_byte_byteCache, setCache_byte_shortCache, setCache_cursor, Cache.width]
      omega
    | short =>
      simp only [State.supply, setCache_short_byteCache, setCache_short_shortCache, setCache_cursor, Cache.width]
      omega

theorem drawWidth_supply {w : DrawWidth} {s t : State} {x : Nat} (hp : s.cfg.provider ≠ .well512)
    (h : drawWidth w s = .got x t) : t.supply < s.supply := by
  cases w with
  | w8 => exact drawSub_supply (by simp) hp h
  | w16 => exact drawSub_supply (by simp) hp h
  | w32 =>
    obtain ⟨y, u, hu, h⟩ := Draw.bind_eq_got h
    obtain ⟨hc, rfl⟩ := drawU32_external hp hu
    injection h with _ h
    subst h
    simp only [State.supply]
    omega
  | w64 =>
    obtain ⟨y, u, hu, h⟩ := Draw.bind_eq_got h
    obtain ⟨hc, rfl⟩ := drawU64_external hp hu
    injection h with _ h
    subst h
    simp only [State.supply]
    omega

theorem uniformDouble_supply {s t : State} {x : F64} (hp : s.cfg.provider ≠ .well512)
    (h : uniformDouble s = .got x t) : t.supply < s.supply := by
  obtain ⟨y, u, hu, h⟩ := Draw.bind_eq_got h
  obtain ⟨hc, rfl⟩ := drawU64_external hp hu
  injection h with _ h
  subst h
  simp only [State.supply]
  omega

/-- A loop whose draws use up a supply ends. -/
theorem retry_ends (hnd : ∀ s, draw s ≠ .diverge) (hok : ∀ s, (draw s).Ok s)
    (hsup : ∀ {s t : State} {x : α}, s.cfg.provider ≠ .well512 → draw s = .got x t → t.supply < s.supply) {n : Nat}
    {s : State} (hp : s.cfg.provider ≠ .well512) (hn : s.supply < n) : retry draw accept n s ≠ .diverge := by
  induction n generalizing s with
  | zero => omega
  | succ n ih =>
    cases hs : rejectStep draw accept s with
    | none => exact (retry_succ_of_none (hnd s) hs n n).2
    | some t =>
      rw [retry_succ_of_some hs]
      unfold rejectStep at hs
      have ho := hok s
      cases hd : draw s with
      | got x u =>
        rw [hd] at ho hs
        simp only at hs
        split at hs
        · injection hs with hs
          subst hs
          have := hsup hp hd
          exact ih (by rw [ho.cfg]; exact hp) (by omega)
        · simp at hs
      | wait u => simp [hd] at hs
      | abort e u => simp [hd] at hs
      | diverge => simp [hd] at hs

theorem supply_lt_loopBound {s : State} (h : DrawInv s) : s.supply < s.loopBound := by
  have hc := h.cursorLe
  have hb := cachedFields_le s.byteCache
  have hs := cachedFields_le s.shortCache
  have hp : 16 * 1 ≤ 16 * (2 ^ 32) ^ (s.cfg.words + 18) := Nat.mul_le_mul_left _ (Nat.one_le_pow _ _ (by omega))
  have : (s.cfg.words + 1) * 16 ≤ (s.cfg.words + 1) * (16 * (2 ^ 32) ^ (s.cfg.words + 18)) :=
    Nat.mul_le_mul_left _ hp
  unfold State.supply State.loopBound
  omega

/-! ## The bound is exact: a loop that outlives it never ends -/

/-- What a draw reads and writes: it depends on nothing else of the state. -/
structure DrawCore where
  cfg : Config
  seeded : Bool
  buffer : List Word
  cursor : Nat
  byteCache : Word
  shortCache : Word
  well : Well

/-- The draw core of a state. -/
def State.core (s : State) : DrawCore := ⟨s.cfg, s.seeded, s.buffer, s.cursor, s.byteCache, s.shortCache, s.well⟩

/-- Two draws end alike: the same value and the same draw core, or both without a value. -/
def Draw.Alike {γ : Type} : Draw γ → Draw γ → Prop
  | .got x s, .got y t => x = y ∧ s.core = t.core
  | .got _ _, _ => False
  | _, .got _ _ => False
  | _, _ => True

theorem Draw.Alike.bind {γ δ : Type} {d e : Draw γ} {f : γ → State → Draw δ} (h : d.Alike e)
    (k : ∀ x s t, s.core = t.core → (f x s).Alike (f x t)) : (d.bind f).Alike (e.bind f) := by
  cases d <;> cases e <;> simp_all [Draw.Alike, Draw.bind]

theorem core_fields {s t : State} (h : s.core = t.core) :
    s.cfg = t.cfg ∧ s.seeded = t.seeded ∧ s.buffer = t.buffer ∧ s.cursor = t.cursor ∧ s.byteCache = t.byteCache ∧
      s.shortCache = t.shortCache ∧ s.well = t.well := by
  simpa [State.core] using h

theorem well_eq_iff {s t : State} : s.well = t.well ↔ s.wstate = t.wstate ∧ s.windex = t.windex := by
  simp [State.well]

theorem refill_alike {s t : State} (h : s.core = t.core) : (refill s).Alike (refill t) := by
  obtain ⟨hc, hs, hb, hcur, hbc, hsc, hw⟩ := core_fields h
  rw [well_eq_iff] at hw
  unfold refill
  rw [hc, hs]
  cases t.cfg.provider with
  | well512 =>
    cases t.seeded with
    | true =>
      refine ⟨rfl, ?_⟩
      simp only [State.core, refillDone_cfg, fillFromWell_cfg, refillDone_seeded, fillFromWell_seeded, refillDone_buffer,
        fillFromWell_buffer, refillDone_cursor, refillDone_byteCache, fillFromWell_byteCache, refillDone_shortCache,
        fillFromWell_shortCache, State.well, refillDone_wstate, refillDone_windex, fillFromWell_wstate,
        fillFromWell_windex, hc, hs, hbc, hsc, hw.1, hw.2]
    | false => trivial
  | extWord => trivial
  | extByte => trivial

theorem needWords_alike (n : Nat) {s t : State} (h : s.core = t.core) : (needWords n s).Alike (needWords n t) := by
  obtain ⟨_, _, _, hcur, _⟩ := core_fields h
  unfold needWords
  rw [hcur]
  split
  · exact refill_alike h
  · exact ⟨rfl, h⟩

theorem drawU32_alike {s t : State} (h : s.core = t.core) : (drawU32 s).Alike (drawU32 t) :=
  (needWords_alike 1 h).bind fun _ s t h => by
    obtain ⟨hc, hs, hb, hcur, hbc, hsc, hw⟩ := core_fields h
    rw [well_eq_iff] at hw
    simp [Draw.Alike, State.core, State.word, State.well, hc, hs, hb, hcur, hbc, hsc, hw]

theorem drawU64_alike {s t : State} (h : s.core = t.core) : (drawU64 s).Alike (drawU64 t) :=
  (needWords_alike 2 h).bind fun _ s t h => by
    obtain ⟨hc, hs, hb, hcur, hbc, hsc, hw⟩ := core_fields h
    rw [well_eq_iff] at hw
    simp [Draw.Alike, State.core, State.word, State.well, hc, hs, hb, hcur, hbc, hsc, hw]

theorem setCache_core {c : Cache} (hc : c ≠ .bit) {s t : State} (h : s.core = t.core) (v : Word) :
    (s.setCache c v).core = (t.setCache c v).core := by
  obtain ⟨h1, h2, h3, h4, h5, h6, h7⟩ := core_fields h
  rw [well_eq_iff] at h7
  cases c <;> simp_all [State.core, State.well]

theorem drawSub_alike {c : Cache} (hc : c ≠ .bit) {s t : State} (h : s.core = t.core) :
    (drawSub c s).Alike (drawSub c t) := by
  have hv : s.cache c = t.cache c := by
    obtain ⟨_, _, _, _, h5, h6, _⟩ := core_fields h
    cases c <;> simp_all
  unfold drawSub
  simp only [hv]
  split
  · exact ⟨rfl, setCache_core hc h _⟩
  · exact (drawU32_alike h).bind fun w s t h => ⟨rfl, setCache_core hc h _⟩

theorem drawWidth_alike (w : DrawWidth) {s t : State} (h : s.core = t.core) :
    (drawWidth w s).Alike (drawWidth w t) := by
  cases w with
  | w8 => exact drawSub_alike (by simp) h
  | w16 => exact drawSub_alike (by simp) h
  | w32 => exact (drawU32_alike h).bind fun _ _ _ h => ⟨rfl, h⟩
  | w64 => exact (drawU64_alike h).bind fun _ _ _ h => ⟨rfl, h⟩

theorem uniformDouble_alike {s t : State} (h : s.core = t.core) : (uniformDouble s).Alike (uniformDouble t) :=
  (drawU64_alike h).bind fun _ _ _ h => ⟨rfl, h⟩

/-- The states a loop passes through, one per rejected draw, while it lasts. -/
def rejectIter (draw : State → Draw α) (accept : α → Option β) : Nat → State → Option State
  | 0, s => some s
  | n + 1, s => (rejectIter draw accept n s).bind (rejectStep draw accept)

theorem rejectIter_succ' (n : Nat) (s : State) :
    rejectIter draw accept (n + 1) s = (rejectStep draw accept s).bind (rejectIter draw accept n) := by
  induction n generalizing s with
  | zero => simp [rejectIter]
  | succ n ih =>
    rw [rejectIter, ih]
    cases rejectStep draw accept s with
    | none => rfl
    | some t => simp [rejectIter]

theorem rejectIter_add (n m : Nat) (s : State) :
    rejectIter draw accept (n + m) s = (rejectIter draw accept n s).bind (rejectIter draw accept m) := by
  induction m with
  | zero => cases rejectIter draw accept n s <;> simp [rejectIter]
  | succ m ih =>
    rw [← Nat.add_assoc, rejectIter, ih]
    cases rejectIter draw accept n s <;> simp [rejectIter]

theorem rejects_iff (hnd : ∀ s, draw s ≠ .diverge) (n : Nat) (s : State) :
    Rejects draw accept n s ↔ (rejectIter draw accept n s).isSome := by
  induction n generalizing s with
  | zero => simp [Rejects, retry, rejectIter]
  | succ n ih =>
    rw [rejectIter_succ', Rejects]
    cases hs : rejectStep draw accept s with
    | none => simpa using (retry_succ_of_none (hnd s) hs n n).2
    | some t => rw [retry_succ_of_some hs]; exact ih t

theorem rejectIter_rel (hok : ∀ s, (draw s).Ok s) {n : Nat} {s t : State}
    (h : rejectIter draw accept n s = some t) : DrawRel s t := by
  induction n generalizing t with
  | zero => injection h with h; exact h ▸ DrawRel.refl s
  | succ n ih =>
    rw [rejectIter] at h
    cases hn : rejectIter draw accept n s with
    | none => simp [hn] at h
    | some u =>
      simp only [hn, Option.bind_some] at h
      refine (ih hn).trans ?_
      have ho := hok u
      unfold rejectStep at h
      cases hd : draw u with
      | got x v =>
        rw [hd] at ho h
        simp only at h
        split at h
        · injection h with h; exact h ▸ ho
        · simp at h
      | wait v => simp [hd] at h
      | abort e v => simp [hd] at h
      | diverge => simp [hd] at h

theorem rejectStep_core (hal : ∀ {s t : State}, s.core = t.core → (draw s).Alike (draw t)) {s t u : State}
    (h : s.core = t.core) (hs : rejectStep draw accept s = some u) :
    ∃ v, rejectStep draw accept t = some v ∧ u.core = v.core := by
  have ha := hal h
  unfold rejectStep at *
  cases hd : draw s with
  | got x a =>
    rw [hd] at ha hs
    cases he : draw t with
    | got y b =>
      rw [he] at ha
      obtain ⟨rfl, hcore⟩ := ha
      simp only at hs ⊢
      split at hs
      case isTrue hx => injection hs with hs; exact ⟨b, by simp [hx], hs ▸ hcore⟩
      case isFalse hx => simp at hs
    | wait b => rw [he] at ha; exact ha.elim
    | abort e b => rw [he] at ha; exact ha.elim
    | diverge => rw [he] at ha; exact ha.elim
  | wait a => simp [hd] at hs
  | abort e a => simp [hd] at hs
  | diverge => simp [hd] at hs

theorem rejectIter_core (hal : ∀ {s t : State}, s.core = t.core → (draw s).Alike (draw t)) {n : Nat} {s t : State}
    (h : s.core = t.core) (hs : (rejectIter draw accept n s).isSome) : (rejectIter draw accept n t).isSome := by
  induction n generalizing s t with
  | zero => rfl
  | succ n ih =>
    rw [rejectIter_succ'] at hs ⊢
    cases hn : rejectStep draw accept s with
    | none => simp [hn] at hs
    | some u =>
      obtain ⟨v, hv, hcore⟩ := rejectStep_core hal h hn
      rw [hv]
      exact ih hcore (by simpa [hn] using hs)

/-- A loop that comes back to a draw core it has been in never ends. -/
theorem rejects_forever_of_repeat (hal : ∀ {s t : State}, s.core = t.core → (draw s).Alike (draw t)) {s a b : State}
    {i j : Nat} (hij : i < j) (ha : rejectIter draw accept i s = some a) (hb : rejectIter draw accept j s = some b)
    (hc : a.core = b.core) (n : Nat) : (rejectIter draw accept n s).isSome := by
  induction n using Nat.strong_induction_on with
  | _ n ih =>
    rcases Nat.lt_or_ge n j with hn | hn
    · by_contra hcon
      have : rejectIter draw accept j s = none := by
        rw [show j = n + (j - n) by omega, rejectIter_add]
        simp [Option.not_isSome_iff_eq_none.1 hcon]
      simp [this] at hb
    · have h1 := ih (i + (n - j)) (by omega)
      rw [rejectIter_add, ha] at h1
      rw [show n = j + (n - j) by omega, rejectIter_add, hb]
      exact rejectIter_core hal hc h1

/-- The finitely many draw cores of an instance, given its parameters and `seeded`. -/
abbrev CoreCode (n : Nat) : Type :=
  List.Vector (BitVec 32) n × List.Vector (BitVec 32) 16 × Fin 16 × Fin (n + 1) × BitVec 32 × BitVec 32

theorem card_bitVec32 : Fintype.card (BitVec 32) = 2 ^ 32 := by
  rw [Fintype.card_congr (BitVec.equivFin (m := 32)).toEquiv, Fintype.card_fin]

theorem card_coreCode (n : Nat) : Fintype.card (CoreCode n) = (n + 1) * (16 * (2 ^ 32) ^ (n + 18)) := by
  simp only [CoreCode, Fintype.card_prod, card_vector, card_bitVec32, Fintype.card_fin]
  generalize (2 ^ 32 : Nat) = b
  ring

/-- The code of a state whose buffer has N words and whose cursor is at most N. -/
def State.coreCode (s : State) (n : Nat) (h : s.buffer.length = n ∧ s.cursor ≤ n) : CoreCode n :=
  (⟨s.buffer, h.1⟩, ⟨s.wstate.toList, by simp⟩, s.windex, ⟨s.cursor, by omega⟩, s.byteCache, s.shortCache)

theorem core_eq_of_code {s t : State} {n : Nat} {hs : s.buffer.length = n ∧ s.cursor ≤ n}
    {ht : t.buffer.length = n ∧ t.cursor ≤ n} (hc : s.cfg = t.cfg) (hd : s.seeded = t.seeded)
    (h : s.coreCode n hs = t.coreCode n ht) : s.core = t.core := by
  have h1 : s.buffer = t.buffer := congrArg (fun c => c.1.val) h
  have h2 : s.wstate.toList = t.wstate.toList := congrArg (fun c => c.2.1.val) h
  have h3 : s.windex = t.windex := congrArg (fun c => c.2.2.1) h
  have h4 : s.cursor = t.cursor := congrArg (fun c => c.2.2.2.1.val) h
  have h5 : s.byteCache = t.byteCache := congrArg (fun c => c.2.2.2.2.1) h
  have h6 : s.shortCache = t.shortCache := congrArg (fun c => c.2.2.2.2.2) h
  simp only [State.core, State.well, hc, hd, h1, Vector.toList_inj.1 h2, h3, h4, h5, h6]

/-- A loop that has not ended after `State.loopBound` rounds never ends. -/
theorem retry_diverges_forever (hnd : ∀ s, draw s ≠ .diverge) (hok : ∀ s, (draw s).Ok s)
    (hal : ∀ {s t : State}, s.core = t.core → (draw s).Alike (draw t)) {s : State} (hi : DrawInv s)
    (h : retry draw accept s.loopBound s = .diverge) (n : Nat) : retry draw accept n s = .diverge := by
  have hall : ∀ i : Fin s.loopBound, ∃ t, rejectIter draw accept i.val s = some t := by
    intro i
    have h' : (rejectIter draw accept s.loopBound s).isSome := (rejects_iff hnd _ _).1 h
    rw [show s.loopBound = i.val + (s.loopBound - i.val) by omega, rejectIter_add] at h'
    cases hx : rejectIter draw accept i.val s with
    | none => simp [hx] at h'
    | some t => exact ⟨t, rfl⟩
  choose f hf using hall
  have hrel : ∀ i, DrawRel s (f i) := fun i => rejectIter_rel hok (hf i)
  have hdi : ∀ i, DrawInv (f i) := fun i => (hrel i).inv hi
  have hcfg : ∀ i, (f i).cfg = s.cfg := fun i => (hrel i).cfg
  have hsz : ∀ i, (f i).buffer.length = s.cfg.words ∧ (f i).cursor ≤ s.cfg.words := fun i => by
    have h1 := (hdi i).bufLen
    have h2 := (hdi i).cursorLe
    rw [hcfg i] at h1 h2
    exact ⟨h1, h2⟩
  obtain ⟨x, y, hne, hxy⟩ := Fintype.exists_ne_map_eq_of_card_lt
    (fun i : Fin s.loopBound => (f i).coreCode s.cfg.words (hsz i))
    (by rw [card_coreCode, Fintype.card_fin]; unfold State.loopBound; omega)
  have hcore : (f x).core = (f y).core :=
    core_eq_of_code ((hcfg x).trans (hcfg y).symm) ((hrel x).seeded.trans (hrel y).seeded.symm) hxy
  refine (rejects_iff hnd n s).2 ?_
  rcases Nat.lt_or_gt_of_ne (fun h => hne (Fin.ext h)) with hlt | hlt
  · exact rejects_forever_of_repeat hal hlt (hf x) (hf y) hcore n
  · exact rejects_forever_of_repeat hal hlt (hf y) (hf x) hcore.symm n

end Sys2Proof.Machine
end

