-- ==== Sys2Proof/Laws/Float.lean ====
section
/-! SUPPORT. Rounding (spec 43_distributions.md R200; 00_scope.md R15): the one lemma about `FloatFormat.round`,
`round_roundsTo`, with the values of packed patterns, the integer square root and the comparison key beside it. -/

namespace Sys2Proof.Machine

/-- `n` is the integer nearest to `x`, the even one of two. -/
def IsNearestInt (n : Nat) (x : ℝ) : Prop :=
  |(n : ℝ) - x| ≤ 1 / 2 ∧ (|(n : ℝ) - x| = 1 / 2 → n % 2 = 0)

theorem IsNearestInt.le_of_ne {n : Nat} {x : ℝ} (h : IsNearestInt n x) {j : Int} (hj : j ≠ (n : Int)) :
    1 / 2 ≤ |(j : ℝ) - x| := by
  have h1 : (1 : ℝ) ≤ |(j : ℝ) - n| := by
    have : (1 : Int) ≤ |j - n| := Int.one_le_abs (sub_ne_zero.mpr hj)
    exact_mod_cast this
  have h2 : |(j : ℝ) - n| ≤ |(j : ℝ) - x| + |(n : ℝ) - x| := by
    have := abs_sub_le (j : ℝ) x n
    rwa [abs_sub_comm x] at this
  linarith [h.1]

theorem IsNearestInt.nearest {n : Nat} {x : ℝ} (h : IsNearestInt n x) (j : Int) :
    |(n : ℝ) - x| ≤ |(j : ℝ) - x| := by
  by_cases hj : j = n
  · subst hj; simp
  · exact h.1.trans (h.le_of_ne hj)

theorem IsNearestInt.tie {n : Nat} {x : ℝ} (h : IsNearestInt n x) (j : Int) (e : |(n : ℝ) - x| = |(j : ℝ) - x|) :
    j = n ∨ n % 2 = 0 := by
  by_cases hj : j = n
  · exact .inl hj
  · exact .inr (h.2 (le_antisymm h.1 (e ▸ h.le_of_ne hj)))

/-- `roundShift` gives the integer nearest to the number it stands for, δ being what the sticky bit says of it. -/
theorem roundShift_nearest {m d : Nat} {sticky : Bool} {δ : ℝ} (h0 : 0 ≤ δ) (h1 : δ < 1)
    (hs : sticky = true ↔ 0 < δ) (hd : sticky = true → 1 ≤ d) :
    IsNearestInt (roundShift m d sticky) (((m : ℝ) + δ) / 2 ^ d) := by
  have hm : (m : ℝ) = 2 ^ d * (m / 2 ^ d : Nat) + (m % 2 ^ d : Nat) := by
    exact_mod_cast (Nat.div_add_mod m (2 ^ d)).symm
  have hlt : m % 2 ^ d < 2 ^ d := Nat.mod_lt _ (by positivity)
  have hP : (0 : ℝ) < 2 ^ d := by positivity
  generalize hq : m / 2 ^ d = q at *
  generalize hr : m % 2 ^ d = r at *
  have hltR : (r : ℝ) + 1 ≤ 2 ^ d := by exact_mod_cast hlt
  have hx : ((m : ℝ) + δ) / 2 ^ d = q + (r + δ) / 2 ^ d := by rw [hm]; field_simp; ring
  -- the two tests, on reals
  have hgt : 2 ^ d < 2 * r + (if sticky then 1 else 0) ↔ (2 : ℝ) ^ d < 2 * (r + δ) := by
    cases hst : sticky
    · have : δ = 0 := le_antisymm (not_lt.mp fun h => by simp [hst, h] at hs) h0
      simp only [this]
      norm_num
      constructor <;> intro h <;> exact_mod_cast h
    · have hδ : 0 < δ := hs.mp hst
      obtain ⟨d', rfl⟩ : ∃ d', d = d' + 1 := ⟨d - 1, by have := hd hst; omega⟩
      simp only [if_true]
      constructor
      · intro h
        have : 2 ^ d' ≤ r := by rw [pow_succ] at h; omega
        have : (2 : ℝ) ^ d' ≤ r := by exact_mod_cast this
        rw [pow_succ]; linarith
      · intro h
        have : (2 : ℝ) ^ d' < r + 1 := by rw [pow_succ] at h; linarith
        have : 2 ^ d' < r + 1 := by exact_mod_cast this
        rw [pow_succ]; omega
  have heq : 2 * r + (if sticky then 1 else 0) = 2 ^ d → 2 * ((r : ℝ) + δ) = 2 ^ d := by
    cases hst : sticky
    · have : δ = 0 := le_antisymm (not_lt.mp fun h => by simp [hst, h] at hs) h0
      simp only [this]
      intro h
      norm_num at h ⊢
      exact_mod_cast h
    · obtain ⟨d', rfl⟩ : ∃ d', d = d' + 1 := ⟨d - 1, by have := hd hst; omega⟩
      simp only [if_true, pow_succ]
      omega
  have heq' : 2 * ((r : ℝ) + δ) = 2 ^ d → 2 * r + (if sticky then 1 else 0) = 2 ^ d := by
    intro h
    cases hst : sticky
    · have : δ = 0 := le_antisymm (not_lt.mp fun h => by simp [hst, h] at hs) h0
      simp only [this] at h
      norm_num at h ⊢
      exact_mod_cast h
    · exfalso
      have hδ := hs.mp hst
      obtain ⟨d', rfl⟩ : ∃ d', d = d' + 1 := ⟨d - 1, by have := hd hst; omega⟩
      have e : (2 : ℝ) ^ d' = r + δ := by rw [pow_succ] at h; linarith
      have a : (r : ℝ) < 2 ^ d' := by linarith
      have b : (2 : ℝ) ^ d' < r + 1 := by linarith
      have a' : r < 2 ^ d' := by exact_mod_cast a
      have b' : 2 ^ d' < r + 1 := by exact_mod_cast b
      omega
  unfold roundShift
  simp only [hq, hr]
  rw [hx]
  generalize (2 * r + if sticky = true then 1 else 0) = R at *
  have ht0 : 0 ≤ ((r : ℝ) + δ) / 2 ^ d := by positivity
  split_ifs with hc
  · have hge : (2 : ℝ) ^ d ≤ 2 * (r + δ) := by
      rcases hc with h | h
      · exact (hgt.mp h).le
      · exact (heq h.1).ge
    have h2 : 1 / 2 ≤ ((r : ℝ) + δ) / 2 ^ d := by rw [div_le_div_iff₀ (by norm_num) hP]; linarith
    have h3 : ((r : ℝ) + δ) / 2 ^ d < 1 := by rw [div_lt_one hP]; linarith
    rw [IsNearestInt, Nat.cast_succ]
    refine ⟨abs_le.mpr ⟨by linarith, by linarith⟩, fun h => ?_⟩
    have : ((r : ℝ) + δ) / 2 ^ d = 1 / 2 := by
      rw [abs_of_nonneg (by linarith)] at h; linarith
    rw [div_eq_div_iff hP.ne' (by norm_num)] at this
    have hh := heq' (by linarith)
    rcases hc with h | h
    · omega
    · omega
  · push Not at hc
    have hle : 2 * ((r : ℝ) + δ) ≤ 2 ^ d := by
      rw [← not_lt, ← hgt]; omega
    have h2 : ((r : ℝ) + δ) / 2 ^ d ≤ 1 / 2 := by rw [div_le_div_iff₀ hP (by norm_num)]; linarith
    refine ⟨abs_le.mpr ⟨by linarith, by linarith⟩, fun h => ?_⟩
    have : ((r : ℝ) + δ) / 2 ^ d = 1 / 2 := by
      rw [abs_of_nonpos (by linarith)] at h; linarith
    rw [div_eq_div_iff hP.ne' (by norm_num)] at this
    have hh := heq' (by linarith)
    have := hc.2 hh
    omega


/-! ## Patterns and their values -/

theorem fpack_toNat (sg : Bool) {n : Nat} (h : n < 2 ^ 63) :
    (fpack sg n).toNat = (if sg then 2 ^ 63 else 0) + n := by
  unfold fpack
  rw [BitVec.toNat_ofNat]
  apply Nat.mod_eq_of_lt
  cases sg <;> simp <;> omega

theorem fsign_fpack (sg : Bool) {n : Nat} (h : n < 2 ^ 63) : fsign (fpack sg n) = sg := by
  have := fpack_toNat sg h
  unfold fsign
  rw [BitVec.getLsbD, this, Nat.testBit_eq_decide_div_mod_eq]
  cases sg <;> simp <;> omega

theorem fexp_fpack (sg : Bool) {n : Nat} (h : n < 2 ^ 63) : fexp (fpack sg n) = n / 2 ^ 52 := by
  unfold fexp
  rw [fpack_toNat sg h]
  cases sg <;> simp <;> omega

theorem ffrac_fpack (sg : Bool) {n : Nat} (h : n < 2 ^ 63) : ffrac (fpack sg n) = n % 2 ^ 52 := by
  unfold ffrac
  rw [fpack_toNat sg h]
  cases sg <;> simp <;> omega

/-- The value of a packed pattern: `n` units of 2^(k − 1074). `n = 2^53` is the next binade's first pattern. -/
theorem frat_fpack (sg : Bool) {n k : Nat} (hn : n ≤ 2 ^ 53) (hk : k = 0 ∨ 2 ^ 52 ≤ n)
    (h : n + k * 2 ^ 52 < 2047 * 2 ^ 52) :
    frat (fpack sg (n + k * 2 ^ 52)) = (if sg then -1 else 1) * (n * 2 ^ ((k : Int) - 1074)) := by
  have h63 : n + k * 2 ^ 52 < 2 ^ 63 := by omega
  unfold frat fmant fscale
  rw [fsign_fpack sg h63, fexp_fpack sg h63, ffrac_fpack sg h63, mul_assoc]
  congr 1
  by_cases hlt : n < 2 ^ 52
  · obtain rfl : k = 0 := by omega
    have : n / 2 ^ 52 = 0 := by omega
    simp only [Nat.zero_mul, Nat.add_zero, this]
    rw [Nat.mod_eq_of_lt hlt]
    norm_num
  · by_cases htop : n = 2 ^ 53
    · subst htop
      have e1 : (2 ^ 53 + k * 2 ^ 52) / 2 ^ 52 = k + 2 := by omega
      have e2 : (2 ^ 53 + k * 2 ^ 52) % 2 ^ 52 = 0 := by omega
      rw [e1, e2]
      rw [if_neg (by omega), max_eq_left (by omega)]
      have : ((k + 2 : Nat) : Int) - 1075 = ((k : Int) - 1074) + 1 := by push_cast; ring
      rw [this, zpow_add₀ (by norm_num)]
      push_cast; ring
    · have e1 : (n + k * 2 ^ 52) / 2 ^ 52 = k + 1 := by omega
      have e2 : (n + k * 2 ^ 52) % 2 ^ 52 = n - 2 ^ 52 := by omega
      rw [e1, e2, if_neg (by omega), max_eq_left (by omega), Nat.sub_add_cancel (by omega)]
      congr 2
      push_cast; ring

theorem fexp_lt (c : F64) : fexp c < 2 ^ 11 := Nat.mod_lt _ (by norm_num)

theorem ffrac_lt (c : F64) : ffrac c < 2 ^ 52 := Nat.mod_lt _ (by norm_num)

theorem fmant_lt (c : F64) : fmant c < 2 ^ 53 := by
  have := ffrac_lt c
  unfold fmant
  split <;> omega

theorem isFinite_iff {c : F64} : isFinite c = true ↔ fexp c ≠ 2047 := by simp [isFinite]

/-- A value on a coarser grid than its own lies below the grid's normal range; otherwise it is a grid point. -/
theorem frat_grid (c : F64) (q : Int) :
    (∃ j : Int, (frat c : ℝ) = j * 2 ^ q) ∨ |(frat c : ℝ)| < 2 ^ (52 : Int) * 2 ^ q := by
  by_cases h : q ≤ fscale c
  · left
    refine ⟨(if fsign c then -1 else 1) * fmant c * 2 ^ (fscale c - q).toNat, ?_⟩
    have e : fscale c = ((fscale c - q).toNat : Int) + q := by omega
    unfold frat
    conv_lhs => rw [e]
    push_cast
    rw [zpow_add₀ (by norm_num : (2 : ℝ) ≠ 0), zpow_natCast]
    split <;> push_cast <;> ring
  · right
    have hm : (fmant c : ℝ) < 2 ^ (53 : Int) := by exact_mod_cast fmant_lt c
    have e : |(frat c : ℝ)| = fmant c * 2 ^ fscale c := by
      unfold frat
      push_cast
      rw [abs_mul, abs_mul]
      have : |((if fsign c then (-1 : ℚ) else 1 : ℚ) : ℝ)| = 1 := by split <;> simp
      rw [this, one_mul, abs_of_nonneg (by positivity), abs_of_nonneg (by positivity)]
    rw [e]
    calc (fmant c : ℝ) * 2 ^ fscale c < 2 ^ (53 : Int) * 2 ^ fscale c := by
          apply mul_lt_mul_of_pos_right hm (by positivity)
      _ ≤ 2 ^ (53 : Int) * 2 ^ (q - 1) := by
          apply mul_le_mul_of_nonneg_left _ (by positivity)
          exact zpow_le_zpow_right₀ (by norm_num) (by omega)
      _ = 2 ^ (52 : Int) * 2 ^ q := by
          rw [← zpow_add₀ (by norm_num), ← zpow_add₀ (by norm_num)]; congr 1; ring


theorem fscale_ge (c : F64) : -1074 ≤ fscale c := by unfold fscale; omega

theorem frat_grid_or_small (c : F64) (q : Int) :
    (∃ j : Int, (frat c : ℝ) = j * 2 ^ q) ∨ (-1074 < q ∧ |(frat c : ℝ)| < 2 ^ (52 : Int) * 2 ^ q) := by
  rcases frat_grid c q with h | h
  · exact .inl h
  · by_cases hq : q ≤ -1074
    · left
      refine ⟨(if fsign c then -1 else 1) * fmant c * 2 ^ (fscale c - q).toNat, ?_⟩
      have e : fscale c = ((fscale c - q).toNat : Int) + q := by have := fscale_ge c; omega
      unfold frat
      conv_lhs => rw [e]
      push_cast
      rw [zpow_add₀ (by norm_num : (2 : ℝ) ≠ 0), zpow_natCast]
      split <;> push_cast <;> ring
    · exact .inr ⟨by omega, h⟩

/-- Among numbers on the grid of spacing 2^q, or below its normal range, the rounded one is nearest. -/
theorem grid_nearest {v : ℝ} {q : Int} {n : Nat} (hx : IsNearestInt n (v / 2 ^ q))
    (hlow : q = -1074 ∨ 2 ^ (52 : Int) * 2 ^ q ≤ v) {y : ℝ}
    (hy : (∃ j : Int, y = j * 2 ^ q) ∨ (-1074 < q ∧ |y| < 2 ^ (52 : Int) * 2 ^ q)) :
    |n * 2 ^ q - v| ≤ |y - v| ∧ (|n * 2 ^ q - v| = |y - v| → y = n * 2 ^ q ∨ n % 2 = 0) := by
  have hP : (0 : ℝ) < 2 ^ q := by positivity
  have sc : ∀ z : ℝ, |z * 2 ^ q - v| = |z - v / 2 ^ q| * 2 ^ q := by
    intro z
    rw [← abs_of_pos hP, ← abs_mul, abs_of_pos hP]
    congr 1
    field_simp
  rcases hy with ⟨j, rfl⟩ | ⟨hq, hy⟩
  · rw [sc, sc]
    refine ⟨mul_le_mul_of_nonneg_right (hx.nearest j) hP.le, fun h => ?_⟩
    rcases hx.tie j (mul_right_cancel₀ hP.ne' h) with rfl | h
    · left; simp
    · exact .inr h
  · have hv : 2 ^ (52 : Int) * 2 ^ q ≤ v := by
      rcases hlow with h | h
      · omega
      · exact h
    have hlt : |n * 2 ^ q - v| < |y - v| := by
      have h1 := hx.nearest (2 ^ 52)
      have h2 := mul_le_mul_of_nonneg_right h1 hP.le
      rw [← sc, ← sc] at h2
      rw [Int.cast_pow, Int.cast_ofNat] at h2
      have hy' := abs_lt.mp hy
      have hz : (2 : ℝ) ^ (52 : Int) = 2 ^ 52 := by norm_cast
      rw [hz] at *
      rw [abs_of_nonpos (by linarith : (2 : ℝ) ^ 52 * 2 ^ q - v ≤ 0)] at h2
      rw [abs_of_nonpos (by linarith : y - v ≤ 0)]
      linarith
    exact ⟨hlt.le, fun h => absurd h hlt.ne⟩

theorem below_overflow {T : ℝ} (h : 0 < T) : 2 ^ 53 * T ≤ 2 ^ 54 * T - T := by
  norm_num
  linarith

/-- `FloatFormat.round` rounds to nearest with ties to even, overflow included (43_distributions.md R200 items 2, 4, 5). -/
theorem round_roundsTo {v : ℝ} {m : Nat} {e : Int} {sticky : Bool} (sg : Bool) (hm : 0 < m)
    (h1 : (m : ℝ) * 2 ^ e ≤ v) (h2 : v < (m + 1) * 2 ^ e) (hs : sticky = true ↔ (m : ℝ) * 2 ^ e < v)
    (hp : sticky = true → 53 ≤ Nat.log2 m) :
    roundsTo (if sg then -v else v) (fpack sg (binary64.round m e sticky)) := by
  have hE : (0 : ℝ) < 2 ^ e := by positivity
  have hv0 : 0 < v := lt_of_lt_of_le (by positivity) h1
  have hlm1 : 2 ^ Nat.log2 m ≤ m := Nat.log2_self_le hm.ne'
  have hlm2 : m < 2 ^ (Nat.log2 m + 1) := Nat.lt_log2_self
  have hmin : binary64.minExp = -1074 := by decide
  have hinf : binary64.infBits = 2047 * 2 ^ 52 := by decide
  have hmant : binary64.mant = 52 := rfl
  obtain ⟨q, hq⟩ : ∃ q : Int, q = max ((Nat.log2 m : Int) + e - 52) (-1074) := ⟨_, rfl⟩
  have hQ : (0 : ℝ) < 2 ^ q := by positivity
  obtain ⟨n, hn⟩ : ∃ n, n = if q ≤ e then m * 2 ^ (e - q).toNat else roundShift m (q - e).toNat sticky := ⟨_, rfl⟩
  have hround : binary64.round m e sticky = min (n + (q + 1074).toNat * 2 ^ 52) (2047 * 2 ^ 52) := by
    unfold FloatFormat.round
    rw [if_neg hm.ne', hmin, hinf, hmant, hn, hq]
    simp
  -- the scaled value
  have hnear : IsNearestInt n (v / 2 ^ q) := by
    by_cases hle : q ≤ e
    · have hst : ¬(m : ℝ) * 2 ^ e < v := fun h => by
        have := hp (hs.mpr h)
        omega
      have hv : v = m * 2 ^ e := le_antisymm (not_lt.mp hst) h1
      have : v / 2 ^ q = n := by
        rw [hn, if_pos hle, hv]
        have he : e = ((e - q).toNat : Int) + q := by omega
        conv_lhs => rw [he]
        rw [zpow_add₀ (by norm_num), zpow_natCast]
        push_cast
        field_simp
      rw [this]
      simp [IsNearestInt]
    · rw [hn, if_neg hle]
      have key : v / 2 ^ q = ((m : ℝ) + (v / 2 ^ e - m)) / 2 ^ (q - e).toNat := by
        have he : q = ((q - e).toNat : Int) + e := by omega
        conv_lhs => rw [he]
        rw [zpow_add₀ (by norm_num), zpow_natCast]
        field_simp
        ring
      rw [key]
      apply roundShift_nearest
      · rw [sub_nonneg, le_div_iff₀ hE]; exact h1
      · rw [sub_lt_iff_lt_add', div_lt_iff₀ hE]; linarith
      · rw [hs, sub_pos, lt_div_iff₀ hE]
      · intro _; omega
  -- bounds
  have hmR1 : (2 : ℝ) ^ (Nat.log2 m : Int) ≤ m := by rw [zpow_natCast]; exact_mod_cast hlm1
  have hmR2 : (m : ℝ) + 1 ≤ 2 ^ ((Nat.log2 m : Int) + 1) := by
    have : m + 1 ≤ 2 ^ (Nat.log2 m + 1) := hlm2
    have h : ((Nat.log2 m : Int) + 1) = ((Nat.log2 m + 1 : Nat) : Int) := by push_cast; ring
    rw [h, zpow_natCast]; exact_mod_cast this
  have hvlo : (2 : ℝ) ^ ((Nat.log2 m : Int) + e) ≤ v := by
    rw [zpow_add₀ (by norm_num)]
    exact le_trans (mul_le_mul_of_nonneg_right hmR1 hE.le) h1
  have hvhi : v < (2 : ℝ) ^ ((Nat.log2 m : Int) + 1 + e) := by
    rw [zpow_add₀ (by norm_num)]
    exact lt_of_lt_of_le h2 (mul_le_mul_of_nonneg_right hmR2 hE.le)
  have hlow : q = -1074 ∨ 2 ^ (52 : Int) * 2 ^ q ≤ v := by
    by_cases h : q = -1074
    · exact .inl h
    · right
      have : (52 : Int) + q = (Nat.log2 m : Int) + e := by omega
      rw [← zpow_add₀ (by norm_num), this]
      exact hvlo
  have hhi : v < 2 ^ (53 : Int) * 2 ^ q := by
    rw [← zpow_add₀ (by norm_num)]
    exact lt_of_lt_of_le hvhi (zpow_le_zpow_right₀ (by norm_num) (by omega))
  obtain ⟨k, hk⟩ : ∃ k : Nat, (k : Int) = q + 1074 := ⟨(q + 1074).toNat, by omega⟩
  have hkq : (q + 1074).toNat = k := by omega
  have hqk : q = (k : Int) - 1074 := by omega
  rw [hkq] at hround
  have hab := abs_le.mp hnear.1
  have hx53 : v / 2 ^ q < 2 ^ (53 : Int) := by rwa [div_lt_iff₀ hQ]
  have hz53 : (2 : ℝ) ^ (53 : Int) = 2 ^ 53 := by norm_cast
  have hz52 : (2 : ℝ) ^ (52 : Int) = 2 ^ 52 := by norm_cast
  have hn53 : n ≤ 2 ^ 53 := by
    have : (n : ℝ) < 2 ^ 53 + 1 := by rw [hz53] at hx53; linarith [hab.2]
    have : n < 2 ^ 53 + 1 := by exact_mod_cast this
    omega
  have hn52 : k = 0 ∨ 2 ^ 52 ≤ n := by
    rcases hlow with h | h
    · left; omega
    · right
      have hx : (2 : ℝ) ^ 52 ≤ v / 2 ^ q := by rw [le_div_iff₀ hQ, ← hz52]; exact h
      have : (2 : ℝ) ^ 52 < n + 1 := by linarith [hab.1]
      have : 2 ^ 52 < n + 1 := by exact_mod_cast this
      omega
  have habs : |(if sg then -v else v)| = v := by
    cases sg
    · simp [abs_of_pos hv0]
    · simp [abs_of_pos hv0]
  have p1024 : (2 : ℝ) ^ 1024 = 2 ^ 54 * 2 ^ 970 := by rw [← pow_add]
  have p971 : (2 : ℝ) ^ 971 = 2 * 2 ^ 970 := by rw [← pow_succ']
  have p970 : (0 : ℝ) < 2 ^ 970 := by positivity
  -- no overflow exactly below the rounding bound
  have hov : n + k * 2 ^ 52 < 2047 * 2 ^ 52 ↔ v < 2 ^ 1024 - 2 ^ 970 := by
    rcases lt_trichotomy k 2045 with hlt | rfl | hgt
    · constructor
      · intro _
        calc v < 2 ^ (53 : Int) * 2 ^ q := hhi
          _ ≤ 2 ^ (53 : Int) * 2 ^ (970 : Int) := by
            apply mul_le_mul_of_nonneg_left _ (by positivity)
            exact zpow_le_zpow_right₀ (by norm_num) (by omega)
          _ ≤ 2 ^ 1024 - 2 ^ 970 := by
            rw [p1024, hz53, show (2 : ℝ) ^ (970 : Int) = 2 ^ 970 by exact zpow_natCast 2 970]
            exact below_overflow p970
      · intro _; omega
    · have hq971 : q = 971 := by omega
      have h971 : (2 : ℝ) ^ q = 2 ^ 971 := by rw [hq971]; exact zpow_natCast 2 971
      rw [h971] at hnear hx53 hab
      have hP : (0 : ℝ) < 2 ^ 971 := by positivity
      constructor
      · intro h
        have hn' : n + 1 ≤ 2 ^ 53 := by omega
        have hnR : (n : ℝ) + 1 ≤ 2 ^ 53 := by exact_mod_cast hn'
        by_contra hge
        push Not at hge
        have hxge : (2 : ℝ) ^ 53 - 1 / 2 ≤ v / 2 ^ 971 := by
          rw [le_div_iff₀ hP]
          refine le_trans (le_of_eq ?_) hge
          rw [p1024, p971]
          ring
        have e1 : (n : ℝ) - v / 2 ^ 971 = -(1 / 2) := by linarith [hab.1]
        have e2 : n % 2 = 0 := hnear.2 (by rw [e1]; norm_num)
        have e3 : (n : ℝ) + 1 = 2 ^ 53 := by linarith
        have e4 : n + 1 = 2 ^ 53 := by exact_mod_cast e3
        omega
      · intro h
        have hxlt : v / 2 ^ 971 < (2 : ℝ) ^ 53 - 1 / 2 := by
          rw [div_lt_iff₀ hP]
          refine lt_of_lt_of_le h (le_of_eq ?_)
          rw [p1024, p971]
          ring
        have : (n : ℝ) < 2 ^ 53 := by linarith [hab.2]
        have : n < 2 ^ 53 := by exact_mod_cast this
        omega
    · constructor
      · intro h; omega
      · intro h
        exfalso
        rcases hlow with h' | h'
        · omega
        · have : (2 : ℝ) ^ (52 : Int) * 2 ^ (972 : Int) ≤ 2 ^ (52 : Int) * 2 ^ q := by
            apply mul_le_mul_of_nonneg_left _ (by positivity)
            exact zpow_le_zpow_right₀ (by norm_num) (by omega)
          have h3 : (2 : ℝ) ^ (52 : Int) * 2 ^ (972 : Int) = 2 ^ 1024 := by
            rw [← zpow_add₀ (by norm_num)]; exact zpow_natCast 2 1024
          have h4 := this.trans h'
          rw [h3] at h4
          exact absurd h (not_lt.mpr ((sub_le_self _ p970.le).trans h4))
  unfold roundsTo
  rw [habs]
  by_cases hfin : v < 2 ^ 1024 - 2 ^ 970
  · rw [if_pos hfin]
    have hlt := hov.mpr hfin
    rw [min_eq_left (by omega)] at hround
    rw [hround]
    have h63 : n + k * 2 ^ 52 < 2 ^ 63 := by omega
    have hval : (frat (fpack sg (n + k * 2 ^ 52)) : ℝ) = (if sg then -1 else 1) * (n * 2 ^ q) := by
      rw [frat_fpack sg hn53 hn52 hlt, hqk]; push_cast; split <;> simp
    have hfr : ffrac (fpack sg (n + k * 2 ^ 52)) % 2 = n % 2 := by
      rw [ffrac_fpack sg h63]; omega
    have key : ∀ c : F64, |(frat (fpack sg (n + k * 2 ^ 52)) : ℝ) - (if sg then -v else v)| = |n * 2 ^ q - v| ∧
        |(frat c : ℝ) - (if sg then -v else v)| = |(if sg then -1 else 1) * (frat c : ℝ) - v| := by
      intro c
      rw [hval]
      cases sg
      · simp
      · simp only [if_true]
        constructor
        · rw [← abs_neg]; congr 1; ring
        · rw [← abs_neg]; congr 1; ring
    have hgrid : ∀ c : F64, (∃ j : Int, (if sg then -1 else 1) * (frat c : ℝ) = j * 2 ^ q) ∨
        (-1074 < q ∧ |(if sg then -1 else 1) * (frat c : ℝ)| < 2 ^ (52 : Int) * 2 ^ q) := by
      intro c
      rcases frat_grid_or_small c q with ⟨j, hj⟩ | h
      · left
        cases sg
        · exact ⟨j, by simpa using hj⟩
        · exact ⟨-j, by simp [hj]⟩
      · right
        cases sg
        · simpa using h
        · simpa using h
    refine ⟨?_, fun c _ => ?_, fun c _ => ?_⟩
    · rw [isFinite_iff, fexp_fpack sg h63]; omega
    · rw [(key c).1, (key c).2]
      exact (grid_nearest hnear hlow (hgrid c)).1
    · rw [(key c).1, (key c).2, hfr]
      intro h
      rcases (grid_nearest hnear hlow (hgrid c)).2 h with h | h
      · left
        have : (frat c : ℝ) = frat (fpack sg (n + k * 2 ^ 52)) := by
          rw [hval]
          cases sg
          · simpa using h
          · simp only [if_true] at h ⊢; linarith
        exact_mod_cast this
      · exact .inr h
  · rw [if_neg hfin]
    have hge : 2047 * 2 ^ 52 ≤ n + k * 2 ^ 52 := by
      by_contra h
      exact hfin (hov.mp (by omega))
    rw [min_eq_right hge] at hround
    rw [hround]
    have h63 : 2047 * 2 ^ 52 < 2 ^ 63 := by norm_num
    constructor
    · rw [isInf, fexp_fpack sg h63, ffrac_fpack sg h63]; decide
    · rw [fsign_fpack sg h63]
      cases sg
      · simp [hv0.le]
      · simp [hv0]


/-! ## Rounding with zero, exact results -/

theorem roundsTo_zero {r : F64} (h : isFinite r = true) (hz : frat r = 0) : roundsTo 0 r := by
  unfold roundsTo
  have : (0 : ℝ) < 2 ^ 1024 - 2 ^ 970 := by
    have p1024 : (2 : ℝ) ^ 1024 = 2 ^ 54 * 2 ^ 970 := by rw [← pow_add]
    have p970 : (0 : ℝ) < 2 ^ 970 := by positivity
    rw [p1024]
    exact lt_of_lt_of_le (by positivity) (below_overflow p970)
  rw [abs_zero, if_pos this]
  refine ⟨h, fun c _ => ?_, fun c _ e => .inl ?_⟩
  · simp [hz]
  · rw [hz] at e ⊢
    have : (frat c : ℝ) = 0 := by simpa using e.symm
    exact_mod_cast this

theorem frat_zero (sg : Bool) : isFinite (fpack sg 0) = true ∧ frat (fpack sg 0) = 0 := by
  have h := frat_fpack sg (n := 0) (k := 0) (by norm_num) (.inl rfl) (by norm_num)
  refine ⟨?_, by simpa using h⟩
  rw [isFinite_iff, fexp_fpack sg (by norm_num)]
  norm_num

/-- `round_roundsTo` with zero included. -/
theorem round_roundsTo_of_zero {v : ℝ} {m : Nat} {e : Int} {sticky : Bool} (sg : Bool)
    (h0 : m = 0 → v = 0)
    (h1 : (m : ℝ) * 2 ^ e ≤ v) (h2 : v < (m + 1) * 2 ^ e) (hs : sticky = true ↔ (m : ℝ) * 2 ^ e < v)
    (hp : sticky = true → 53 ≤ Nat.log2 m) :
    roundsTo (if sg then -v else v) (fpack sg (binary64.round m e sticky)) := by
  by_cases hm : m = 0
  · have : v = 0 := h0 hm
    subst this hm
    have : binary64.round 0 e sticky = 0 := by simp [FloatFormat.round]
    rw [this]
    have hz := frat_zero sg
    cases sg <;> simpa using roundsTo_zero hz.1 hz.2
  · exact round_roundsTo sg (Nat.pos_of_ne_zero hm) h1 h2 hs hp

/-- The exact case. -/
theorem round_exact (sg : Bool) (m : Nat) (e : Int) :
    roundsTo (if sg then -(m * 2 ^ e : ℝ) else m * 2 ^ e) (fpack sg (binary64.round m e false)) := by
  have hE : (0 : ℝ) < 2 ^ e := by positivity
  apply round_roundsTo_of_zero
  · rintro rfl; simp
  · exact le_refl _
  · linarith
  · simp
  · simp

theorem finite_flags {a : F64} (h : isFinite a = true) : isNaN a = false ∧ isInf a = false := by
  simp only [isFinite, isNaN, isInf] at *
  simp_all

theorem inf_flags {a : F64} (h : isInf a = true) : isNaN a = false ∧ isFinite a = false := by
  simp only [isFinite, isNaN, isInf] at *
  simp_all

/-- Only the zeros have significand 0. -/
theorem frat_eq_zero_iff (a : F64) : frat a = 0 ↔ fmant a = 0 := by
  unfold frat
  rw [mul_eq_zero, mul_eq_zero, Nat.cast_eq_zero]
  have h1 : ¬((if fsign a then -1 else 1 : ℚ) = 0) := by split <;> norm_num
  have h2 : ¬((2 : ℚ) ^ fscale a = 0) := by positivity
  tauto

/-- The sign of a value that is not zero is its sign bit. -/
theorem frat_neg_iff {a : F64} (h : frat a ≠ 0) : frat a < 0 ↔ fsign a = true := by
  have hm : (0 : ℚ) < fmant a := by exact_mod_cast Nat.pos_of_ne_zero fun e => h ((frat_eq_zero_iff a).2 e)
  have hp : (0 : ℚ) < fmant a * 2 ^ fscale a := by positivity
  unfold frat
  cases fsign a
  · simpa using hp.le
  · simpa using hp

/-- Magnitude bits up to those of infinity are no NaN. -/
theorem isNaN_fpack (sg : Bool) {n : Nat} (h : n ≤ 2047 * 2 ^ 52) : isNaN (fpack sg n) = false := by
  rw [isNaN, fexp_fpack sg (by omega), ffrac_fpack sg (by omega)]
  simp only [Bool.and_eq_false_imp, decide_eq_true_eq, decide_eq_false_iff_not]
  omega

theorem isInf_finf (sg : Bool) : isInf (finf sg) = true := by cases sg <;> decide +kernel

theorem fsign_finf (sg : Bool) : fsign (finf sg) = sg := fsign_fpack sg (by norm_num)

/-- Rounding never gives more than infinity. -/
theorem round_le (m : Nat) (e : Int) (sticky : Bool) : binary64.round m e sticky ≤ 2047 * 2 ^ 52 := by
  have hinf : binary64.infBits = 2047 * 2 ^ 52 := by decide
  unfold FloatFormat.round
  split
  · exact Nat.zero_le _
  · exact hinf ▸ Nat.min_le_right _ _

/-- A finite value on the grid of a smaller exponent. -/
theorem frat_signedScaled (a : F64) {e : Int} (h : e ≤ fscale a) :
    (frat a : ℝ) = (signedScaled (fsign a) (fmant a) (fscale a - e).toNat : ℝ) * 2 ^ e := by
  have he : fscale a = ((fscale a - e).toNat : Int) + e := by omega
  unfold frat signedScaled
  conv_lhs => rw [he]
  push_cast
  rw [zpow_add₀ (by norm_num : (2 : ℝ) ≠ 0), zpow_natCast]
  cases fsign a <;> simp <;> ring

/-! ## Negation, square root, comparison -/

theorem fneg_parts (b : F64) : fsign (fneg b) = !fsign b ∧ fexp (fneg b) = fexp b ∧ ffrac (fneg b) = ffrac b := by
  have hx : (fneg b).toNat = b.toNat ^^^ 2 ^ 63 := by simp [fneg]
  have hb := b.isLt
  refine ⟨?_, ?_, ?_⟩
  · simp [fsign, fneg]
  · unfold fexp
    rw [hx, ← Nat.shiftRight_eq_div_pow, ← Nat.shiftRight_eq_div_pow, Nat.shiftRight_xor_distrib, Nat.xor_mod_two_pow]
    norm_num [Nat.shiftRight_eq_div_pow]
  · unfold ffrac
    rw [hx, Nat.xor_mod_two_pow]
    norm_num

/-- Negation is exact (43_distributions.md R200 item 7). -/
theorem fneg_value (b : F64) : frat (fneg b) = -frat b := by
  obtain ⟨h1, h2, h3⟩ := fneg_parts b
  simp only [frat, fmant, fscale, h1, h2, h3]
  cases fsign b <;> simp <;> split <;> ring

/-- `isqrt` is the integer square root. -/
theorem isqrt_eq (k : Nat) : ∀ n, n < 4 ^ k → isqrt k n = Nat.sqrt n := by
  induction k with
  | zero => intro n h; simp only [pow_zero, Nat.lt_one_iff] at h; subst h; rfl
  | succ k ih =>
    intro n h
    have hq : n / 4 < 4 ^ k := by rw [pow_succ] at h; omega
    simp only [isqrt, ih _ hq]
    have h1 := Nat.sqrt_le (n / 4)
    have h3 := Nat.lt_succ_sqrt (n / 4)
    generalize Nat.sqrt (n / 4) = r at *
    simp only [Nat.succ_eq_add_one] at h3
    have hd := Nat.div_add_mod n 4
    have hm := Nat.mod_lt n (show 0 < 4 by norm_num)
    split_ifs with ht
    · rw [Nat.eq_sqrt]
      refine ⟨ht, ?_⟩
      nlinarith
    · rw [Nat.eq_sqrt]
      constructor
      · have : 4 * (r * r) ≤ n := by omega
        simp only [Nat.add_sub_cancel]; linarith
      · simp only [Nat.add_sub_cancel]; omega

/-- The value of magnitude bits. -/
def magValue (n : Nat) : ℚ :=
  (if n / 2 ^ 52 = 0 then n % 2 ^ 52 else n % 2 ^ 52 + 2 ^ 52 : Nat) * 2 ^ (((max (n / 2 ^ 52) 1 : Nat) : Int) - 1075)

/-- Larger magnitude bits have the larger value. -/
theorem magValue_strictMono : StrictMono magValue := by
  apply strictMono_nat_of_lt_succ
  intro n
  unfold magValue
  have hP : ∀ z : Int, (0 : ℚ) < 2 ^ z := fun z => by positivity
  by_cases h : n % 2 ^ 52 = 2 ^ 52 - 1
  · have h1 : (n + 1) / 2 ^ 52 = n / 2 ^ 52 + 1 := by omega
    have h2 : (n + 1) % 2 ^ 52 = 0 := by omega
    rw [h1, h2, if_neg (Nat.succ_ne_zero _), max_eq_left (by omega : 1 ≤ n / 2 ^ 52 + 1), h]
    split_ifs with h0
    · rw [h0]
      norm_num
    · rw [max_eq_left (by omega)]
      have : ((n / 2 ^ 52 + 1 : Nat) : Int) - 1075 = ((n / 2 ^ 52 : Nat) : Int) - 1075 + 1 := by push_cast; ring
      rw [this, zpow_add₀ (by norm_num)]
      have := hP (((n / 2 ^ 52 : Nat) : Int) - 1075)
      generalize (2 : ℚ) ^ (((n / 2 ^ 52 : Nat) : Int) - 1075) = t at *
      norm_num
      linarith
  · have h1 : (n + 1) / 2 ^ 52 = n / 2 ^ 52 := by omega
    have h2 : (n + 1) % 2 ^ 52 = n % 2 ^ 52 + 1 := by omega
    rw [h1, h2]
    apply mul_lt_mul_of_pos_right _ (hP _)
    split_ifs <;> (push_cast; linarith)

theorem magValue_zero : magValue 0 = 0 := by simp [magValue]

theorem frat_eq_mag (x : F64) : frat x = (if fsign x then -1 else 1) * magValue (x.toNat % 2 ^ 63) := by
  have h1 : x.toNat % 2 ^ 63 / 2 ^ 52 = fexp x := by unfold fexp; omega
  have h2 : x.toNat % 2 ^ 63 % 2 ^ 52 = ffrac x := by unfold ffrac; omega
  unfold magValue frat
  rw [h1, h2, mul_assoc]
  rfl

/-- The comparison key orders patterns as their values. -/
theorem forder_lt_iff (a b : F64) : forder a < forder b ↔ frat a < frat b := by
  rw [frat_eq_mag, frat_eq_mag]
  unfold forder
  generalize a.toNat % 2 ^ 63 = m
  generalize b.toNat % 2 ^ 63 = n
  have hm : 0 ≤ magValue m := by rw [← magValue_zero]; exact magValue_strictMono.monotone (Nat.zero_le _)
  have hn : 0 ≤ magValue n := by rw [← magValue_zero]; exact magValue_strictMono.monotone (Nat.zero_le _)
  have hm0 : 0 < m ↔ 0 < magValue m := by rw [← magValue_zero]; exact magValue_strictMono.lt_iff_lt.symm
  have hn0 : 0 < n ↔ 0 < magValue n := by rw [← magValue_zero]; exact magValue_strictMono.lt_iff_lt.symm
  cases fsign a <;> cases fsign b <;> simp only [Bool.false_eq_true, if_false, if_true, one_mul, neg_one_mul]
  · rw [Nat.cast_lt, magValue_strictMono.lt_iff_lt]
  · constructor
    · intro h; omega
    · intro h; linarith
  · constructor
    · intro h
      by_cases h' : 0 < m
      · linarith [hm0.mp h']
      · linarith [hn0.mp (by omega)]
    · intro h
      by_contra hc
      have h1 : ¬ 0 < m := by omega
      have h2 : ¬ 0 < n := by omega
      rw [hm0] at h1
      rw [hn0] at h2
      linarith
  · rw [neg_lt_neg_iff, neg_lt_neg_iff, Nat.cast_lt, magValue_strictMono.lt_iff_lt]

end Sys2Proof.Machine
end

