-- ==== Sys2Proof/Laws/Frames.lean ====
section
/-! SUPPORT. What a command body can change and how it can end, said once: `exec_ended` and `resume_ended`. Later proofs
about frames, errors and completion cite these two and unfold no body (spec 10_state.md R22 to R31; 40_word_engine.md
R100 to R103; 60_exceptions.md R241). -/

namespace Sys2Proof.Machine

/-- The elements a body may write beside cursor, buffer and the Well512 state of an internal refill. -/
structure May where
  bit   : Bool := false
  byte  : Bool := false
  short : Bool := false
  spare : Bool := false
  hm    : Bool := false
  well  : Bool := false
  res   : Bool := true

/-- A body took `s` to `t` on the way to its end, writing only what `m` allows. -/
structure Touch (m : May) (s t : State) : Prop where
  cfg : t.cfg = s.cfg
  seeded : t.seeded = s.seeded
  wstage : t.wstage = s.wstage
  cmdOp : t.cmdOp = s.cmdOp
  op0 : t.op0 = s.op0
  op1 : t.op1 = s.op1
  cont : t.cont = s.cont
  arg0 : t.arg0 = s.arg0
  arg1 : t.arg1 = s.arg1
  res : t.res = s.res
  done : t.done = s.done
  err : t.err = s.err
  bus : t.bus = s.bus
  rdata : t.rdata = s.rdata
  bit : m.bit = false → t.bitCache = s.bitCache
  byte : m.byte = false → t.byteCache = s.byteCache
  short : m.short = false → t.shortCache = s.shortCache
  spare : m.spare = false → t.gaussSpare = s.gaussSpare
  hm : m.hm = false → t.hm = s.hm
  well : m.well = false → s.cfg.provider ≠ .well512 → t.wstate = s.wstate ∧ t.windex = s.windex
  fill : s.cfg.provider ≠ .well512 → t.buffer = s.buffer ∧ t.refills = s.refills

theorem Touch.refl (m : May) (s : State) : Touch m s s := by constructor <;> simp

theorem Touch.trans {m : May} {s t u : State} (h : Touch m s t) (k : Touch m t u) : Touch m s u where
  cfg := k.cfg.trans h.cfg
  seeded := k.seeded.trans h.seeded
  wstage := k.wstage.trans h.wstage
  cmdOp := k.cmdOp.trans h.cmdOp
  op0 := k.op0.trans h.op0
  op1 := k.op1.trans h.op1
  cont := k.cont.trans h.cont
  arg0 := k.arg0.trans h.arg0
  arg1 := k.arg1.trans h.arg1
  res := k.res.trans h.res
  done := k.done.trans h.done
  err := k.err.trans h.err
  bus := k.bus.trans h.bus
  rdata := k.rdata.trans h.rdata
  bit hm := (k.bit hm).trans (h.bit hm)
  byte hm := (k.byte hm).trans (h.byte hm)
  short hm := (k.short hm).trans (h.short hm)
  spare hm := (k.spare hm).trans (h.spare hm)
  hm hm := (k.hm hm).trans (h.hm hm)
  well hm hp :=
    have a := h.well hm hp
    have b := k.well hm (h.cfg ▸ hp)
    ⟨b.1.trans a.1, b.2.trans a.2⟩
  fill hp :=
    have a := h.fill hp
    have b := k.fill (h.cfg ▸ hp)
    ⟨b.1.trans a.1, b.2.trans a.2⟩

/-- How a draw from `s` can end, with what it may write. -/
def Draw.Touches {α : Type} (m : May) (s : State) : Draw α → Prop
  | .got _ t => Touch m s t
  | .wait t => ∃ u, Touch m s u ∧ t = u.startFill ∧ s.cfg.provider ≠ .well512
  | .abort e t => Touch m s t ∧ e = .unseeded ∧ s.cfg.provider = .well512 ∧ s.seeded = false
  | .diverge => True

theorem Draw.Touches.from {α : Type} {m : May} {s t : State} {d : Draw α} (h : Touch m s t) (k : d.Touches m t) :
    d.Touches m s := by
  cases d with
  | got v u => exact h.trans k
  | wait u =>
    obtain ⟨w, hw, rfl, hp⟩ := k
    exact ⟨w, h.trans hw, rfl, h.cfg ▸ hp⟩
  | abort e u =>
    obtain ⟨hu, he, hp, hs⟩ := k
    exact ⟨h.trans hu, he, h.cfg ▸ hp, h.seeded ▸ hs⟩
  | diverge => trivial

theorem Draw.Touches.bind {α β : Type} {m : May} {s : State} {d : Draw α} {f : α → State → Draw β}
    (h : d.Touches m s) (k : ∀ v t, d = .got v t → (f v t).Touches m t) : (d.bind f).Touches m s := by
  cases d with
  | got v t => exact (k v t rfl).from h
  | wait t => exact h
  | abort e t => exact h
  | diverge => trivial

theorem refill_touches (m : May) (s : State) : (refill s).Touches m s := by
  unfold refill
  cases hp : s.cfg.provider with
  | well512 =>
    cases hs : s.seeded with
    | true => simp only [if_true, Draw.Touches]; constructor <;> simp [hp]
    | false => exact ⟨Touch.refl m s, rfl, hp, hs⟩
  | extWord => exact ⟨s, Touch.refl m s, rfl, by simp [hp]⟩
  | extByte => exact ⟨s, Touch.refl m s, rfl, by simp [hp]⟩

theorem needWords_touches (m : May) (n : Nat) (s : State) : (needWords n s).Touches m s := by
  unfold needWords
  split
  · exact refill_touches m s
  · exact Touch.refl m s

/-- Moving the cursor writes nothing else. -/
theorem cursor_touch (m : May) (s : State) (n : Nat) : Touch m s { s with cursor := n } := by constructor <;> simp

theorem drawU32_touches (m : May) (s : State) : (drawU32 s).Touches m s :=
  (needWords_touches m 1 s).bind fun _ t _ => cursor_touch m t _

theorem drawU64_touches (m : May) (s : State) : (drawU64 s).Touches m s :=
  (needWords_touches m 2 s).bind fun _ t _ => cursor_touch m t _

/-- `m` lets the cache be written. -/
def May.cache (m : May) : Cache → Bool
  | .bit => m.bit
  | .byte => m.byte
  | .short => m.short

theorem setCache_touch {m : May} {c : Cache} (h : m.cache c = true) (s : State) (v : Word) :
    Touch m s (s.setCache c v) := by
  cases c <;> simp only [May.cache] at h <;> constructor <;> simp [State.setCache, h]

theorem drawSub_touches {m : May} {c : Cache} (h : m.cache c = true) (s : State) : (drawSub c s).Touches m s := by
  unfold drawSub
  simp only
  split
  · exact setCache_touch h s _
  · exact (drawU32_touches m s).bind fun _ t _ => setCache_touch h t _

theorem drawWidth_touches {m : May} (h1 : m.byte = true) (h2 : m.short = true) (w : DrawWidth) (s : State) :
    (drawWidth w s).Touches m s := by
  cases w with
  | w8 => exact drawSub_touches (c := .byte) h1 s
  | w16 => exact drawSub_touches (c := .short) h2 s
  | w32 => exact (drawU32_touches m s).bind fun _ t _ => Touch.refl m t
  | w64 => exact (drawU64_touches m s).bind fun _ t _ => Touch.refl m t

theorem uniformDouble_touches (m : May) (s : State) : (uniformDouble s).Touches m s :=
  (drawU64_touches m s).bind fun _ t _ => Touch.refl m t

theorem uniformFloat_touches (m : May) (s : State) : (uniformFloat s).Touches m s :=
  (drawU32_touches m s).bind fun _ t _ => Touch.refl m t

theorem retry_touches {α β : Type} {m : May} {draw : State → Draw α} (h : ∀ s, (draw s).Touches m s)
    (accept : α → Option β) (n : Nat) (s : State) : (retry draw accept n s).Touches m s := by
  induction n generalizing s with
  | zero => trivial
  | succ n ih =>
    have hs := h s
    unfold retry
    cases hd : draw s with
    | got x t =>
      rw [hd] at hs
      simp only
      cases accept x with
      | some y => exact hs
      | none => exact (ih t).from hs
    | wait t => rw [hd] at hs; exact hs
    | abort e t => rw [hd] at hs; exact hs
    | diverge => trivial

/-- How a body that starts at `s` can end: complete, wait for the external provider, abort in a refill, raise one of the
errors `errs`, or run for ever. -/
inductive Ended (m : May) (errs : ErrCode → Prop) (s : State) : Answer → Prop where
  | done {u : State} (r : Option DWord) (h : Touch m s u) (hr : m.res = false → r = none) :
      Ended m errs s (.next (u.complete r))
  | waits {u : State} (k : Frame) (h : Touch m s u) (hp : s.cfg.provider ≠ .well512) :
      Ended m errs s (.next (u.startFill.suspend k))
  | unseeded {u : State} (h : Touch m s u) (hp : s.cfg.provider = .well512) (hs : s.seeded = false) :
      Ended m errs s (.next (u.abort true .unseeded))
  | raised (e : ErrCode) (h : errs e) : Ended m errs s (.next (s.abort false e))
  | diverges : Ended m errs s (.fault .diverges)

/-- A body that goes on from a state it has already reached, and raises nothing more of its own. -/
theorem Ended.from {m : May} {errs : ErrCode → Prop} {s t : State} {a : Answer} (h : Touch m s t)
    (k : Ended m (fun _ => False) t a) : Ended m errs s a := by
  cases k with
  | done r h' hr => exact .done r (h.trans h') hr
  | waits f h' hp => exact .waits f (h.trans h') (h.cfg ▸ hp)
  | unseeded h' hp hs => exact .unseeded (h.trans h') (h.cfg ▸ hp) (h.seeded ▸ hs)
  | raised e h' => exact h'.elim
  | diverges => exact .diverges

theorem finish_ended {m : May} {errs : ErrCode → Prop} (s : State) (r : Option DWord) (hr : m.res = false → r = none) :
    Ended m errs s (finish r s) :=
  .done r (Touch.refl m s) hr

theorem raise_ended {m : May} {errs : ErrCode → Prop} (s : State) {e : ErrCode} (h : errs e) :
    Ended m errs s (raise e s) :=
  .raised e h

/-- A draw followed by the rest of a body. -/
theorem thenDo_ended {α : Type} {m : May} {errs : ErrCode → Prop} {s : State} {d : Draw α} {k : Frame}
    {f : α → State → Answer} (hd : d.Touches m s)
    (hf : ∀ v t, d = .got v t → Touch m s t → Ended m (fun _ => False) t (f v t)) : Ended m errs s (d.thenDo k f) := by
  cases d with
  | got v t => exact (hf v t rfl hd).from hd
  | wait t =>
    obtain ⟨u, hu, rfl, hp⟩ := hd
    exact .waits k hu hp
  | abort e t =>
    obtain ⟨hu, rfl, hp, hs⟩ := hd
    exact .unseeded hu hp hs
  | diverge => exact .diverges

/-- A draw whose value becomes the result. -/
theorem thenFinish_ended {α : Type} {m : May} {errs : ErrCode → Prop} {s : State} {d : Draw α} {k : Frame}
    (f : α → Option DWord) (hd : d.Touches m s) (hr : m.res = true) :
    Ended m errs s (d.thenDo k fun v t => finish (f v) t) :=
  thenDo_ended hd fun _ t _ _ => finish_ended t _ (by simp [hr])

/-! ## Each body -/

theorem copyOut_touch {m : May} (h : m.hm = true) (s : State) (dst k n cur : Nat) :
    Touch m s { s.copyOut dst k n with cursor := cur } := by
  constructor <;> simp [h]

theorem bytesLoop_ended {m : May} (hm : m.hm = true) (n : Nat) (dst count : Nat) (s : State) :
    Ended m (fun _ => False) s (bytesLoop n dst count s) := by
  induction n generalizing dst count s with
  | zero => exact .diverges
  | succ n ih =>
    unfold bytesLoop
    simp only
    split
    case isTrue hlt =>
      have h1 : Touch m s { s.copyOut dst 0 (4 * s.cursor) with cursor := 0 } := copyOut_touch hm s _ _ _ _
      have hok := refill_touches m { s.copyOut dst 0 (4 * s.cursor) with cursor := 0 }
      cases hd : refill { s.copyOut dst 0 (4 * s.cursor) with cursor := 0 } with
      | got v t =>
        rw [hd] at hok
        exact (ih (dst + 4 * s.cursor) (count - 4 * s.cursor) t).from (h1.trans hok)
      | wait t =>
        rw [hd] at hok
        obtain ⟨u, hu, rfl, hp⟩ := hok
        exact .waits _ (h1.trans hu) hp
      | abort e t =>
        rw [hd] at hok
        obtain ⟨hu, rfl, hp, hs⟩ := hok
        exact .unseeded (h1.trans hu) hp hs
      | diverge => exact .diverges
    case isFalse hge => exact .done none (copyOut_touch hm s _ _ _ _) fun _ => rfl

/-- BYTES stores within its range only: at the end, at an abort and where it waits. -/
theorem bytesLoop_outside {n dst count : Nat} {s t : State} (h : bytesLoop n dst count s = .next t) {a : Nat}
    (ha : a < dst ∨ dst + count ≤ a) : Memory.read t.hm a = Memory.read s.hm a := by
  induction n generalizing dst count s with
  | zero => cases h
  | succ n ih =>
    unfold bytesLoop at h
    simp only at h
    split at h
    case isTrue hlt =>
      obtain ⟨u, hu⟩ : ∃ u, u = { s.copyOut dst 0 (4 * s.cursor) with cursor := 0 } := ⟨_, rfl⟩
      have h1 : Memory.read u.hm a = Memory.read s.hm a := by
        rw [hu]
        exact (read_copyOut s dst 0 (4 * s.cursor) a).trans (if_neg (by omega))
      have hr := refill_touches {} u
      rw [← hu] at h
      cases hd : refill u with
      | got v w =>
        rw [hd] at h hr
        exact (ih h (by omega)).trans (by rw [hr.hm rfl, h1])
      | wait w =>
        rw [hd] at h hr
        obtain ⟨x, hx, rfl, -⟩ := hr
        cases h
        exact (congrArg (Memory.read · a) (hx.hm rfl)).trans h1
      | abort e w =>
        rw [hd] at h hr
        cases h
        exact (congrArg (Memory.read · a) (hr.1.hm rfl)).trans h1
      | diverge => rw [hd] at h; cases h
    case isFalse hge =>
      cases h
      exact (read_copyOut s dst (4 * s.cursor - count) count a).trans (if_neg (by omega))

theorem sampleFrom_ended {m : May} {errs : ErrCode → Prop} (h1 : m.byte = true) (h2 : m.short = true)
    (h3 : m.res = true) (p : SamplePlan) (start : Int) (t : IntType) (s : State) :
    Ended m errs s (sampleFrom p start t s) :=
  thenFinish_ended _ (retry_touches (fun s => drawWidth_touches h1 h2 _ s) _ _ _) h3

theorem setSpare_touch {m : May} (h : m.spare = true) (s : State) (g : F64) : Touch m s (s.setSpare g) := by
  constructor <;> simp [h]

theorem gaussFromV_ended {m : May} {errs : ErrCode → Prop} (h : m.spare = true) (hr : m.res = true) (u : F64)
    (post : GaussPost) (s : State) : Ended m errs s (gaussFromV u post s) :=
  thenDo_ended (uniformDouble_touches m s) fun _ t _ _ => .done _ (setSpare_touch h t _) (by simp [hr])

theorem gaussFromU_ended {m : May} {errs : ErrCode → Prop} (h : m.spare = true) (hr : m.res = true) (post : GaussPost)
    (s : State) : Ended m errs s (gaussFromU post s) :=
  thenDo_ended (uniformDouble_touches m s) fun _ t _ _ => gaussFromV_ended h hr _ post t

theorem gauss_ended {m : May} {errs : ErrCode → Prop} (h : m.spare = true) (hr : m.res = true) (post : GaussPost)
    (s : State) : Ended m errs s (gauss post s) := by
  unfold gauss
  split
  · exact .done _ (by constructor <;> simp [h]) (by simp [hr])
  · exact gaussFromU_ended h hr post s

theorem expoFrom_ended {m : May} {errs : ErrCode → Prop} (hr : m.res = true) (post : ExpoPost) (s : State) :
    Ended m errs s (expoFrom post s) :=
  thenFinish_ended _ (uniformDouble_touches m s) hr

theorem udblSlenFrom_ended {m : May} {errs : ErrCode → Prop} (hr : m.res = true) (start len : F64) (s : State) :
    Ended m errs s (udblSlenFrom start len s) :=
  thenFinish_ended _ (uniformDouble_touches m s) hr

theorem udblRangeFrom_ended {m : May} {errs : ErrCode → Prop} (hr : m.res = true) (start len stop : F64) (s : State) :
    Ended m errs s (udblRangeFrom start len stop s) :=
  thenFinish_ended _ (retry_touches (fun s => uniformDouble_touches m s) _ _ _) hr

theorem binomFrom_ended {m : May} {errs : ErrCode → Prop} (hr : m.res = true) (left k : Nat) (p : F64) (s : State) :
    Ended m errs s (binomFrom left k p s) := by
  induction left generalizing k s errs with
  | zero => exact finish_ended s _ (by simp [hr])
  | succ left ih => exact thenDo_ended (uniformDouble_touches m s) fun _ t _ _ => ih _ t

/-! ## Every command and every frame -/

/-- What each command may write. -/
def May.ofInstr (i : Instr) : May where
  bit := decide (i = .bool)
  byte := decide (i = .byte) || (samplerArgs i State.reset).isSome
  short := decide (i = .uint16) || (samplerArgs i State.reset).isSome
  spare := decide (i = .gauss ∨ i = .gaussMs)
  hm := decide (i = .bytes)
  well := decide (i = .w512Next)
  res := hasResult i

/-- The errors a command raises outside a refill (60_exceptions.md R240). -/
def ownErrors (i : Instr) (s : State) (e : ErrCode) : Prop :=
  (e = .argRange ∧ argError i s) ∨ (e = .unsupported ∧ i = .poisson) ∨
    (e = .unseeded ∧ i = .w512Next ∧ s.seeded = false)

theorem rndCount_ended {m : May} {errs : ErrCode → Prop} (h1 : m.byte = true) (h2 : m.short = true)
    (h3 : m.res = true) (t : IntType) (s : State) (he : t.read s.op0 < 1 → errs .argRange) :
    Ended m errs s (rndCount t s) := by
  unfold rndCount
  simp only
  split
  case isTrue h => exact raise_ended s (he h)
  case isFalse => exact sampleFrom_ended h1 h2 h3 _ _ _ s

theorem rndRange_ended {m : May} {errs : ErrCode → Prop} (h1 : m.byte = true) (h2 : m.short = true)
    (h3 : m.res = true) (t : IntType) (s : State) (he : t.read s.op1 < t.read s.op0 → errs .argRange) :
    Ended m errs s (rndRange t s) := by
  unfold rndRange
  simp only
  split
  case isTrue h => exact raise_ended s (he h)
  case isFalse => exact sampleFrom_ended h1 h2 h3 _ _ _ s

theorem rndStartCount_ended {m : May} {errs : ErrCode → Prop} (h1 : m.byte = true) (h2 : m.short = true)
    (h3 : m.res = true) (t : IntType) (s : State)
    (he : t.read s.op1 < 1 ∨ t.greatest < t.read s.op0 + t.read s.op1 → errs .argRange) :
    Ended m errs s (rndStartCount t s) := by
  unfold rndStartCount
  simp only
  split
  case isTrue h => exact raise_ended s (he (.inl h))
  case isFalse =>
    split
    case isTrue h => exact raise_ended s (he (.inr h))
    case isFalse => exact sampleFrom_ended h1 h2 h3 _ _ _ s

/-- How every command ends and what it may write, seeding apart. -/
theorem exec_ended (i : Instr) (s : State) (h1 : i ≠ .w512Seed64) (h2 : i ≠ .w512Load) :
    Ended (May.ofInstr i) (ownErrors i s) s (exec i s) := by
  cases i with
  | int32 => exact thenFinish_ended _ (drawU32_touches _ s) rfl
  | uint32 => exact thenFinish_ended _ (drawU32_touches _ s) rfl
  | int64 => exact thenFinish_ended _ (drawU64_touches _ s) rfl
  | uint64 => exact thenFinish_ended _ (drawU64_touches _ s) rfl
  | bool => exact thenFinish_ended _ (drawSub_touches rfl s) rfl
  | byte => exact thenFinish_ended _ (drawSub_touches rfl s) rfl
  | uint16 => exact thenFinish_ended _ (drawSub_touches rfl s) rfl
  | bytes =>
    show Ended _ _ s (execBytes s)
    unfold execBytes
    split
    case isTrue h => exact raise_ended s (.inl ⟨rfl, h⟩)
    case isFalse => exact (bytesLoop_ended rfl _ _ _ s).from (Touch.refl _ s)
  | refill => exact thenDo_ended (refill_touches _ s) fun _ t _ _ => finish_ended t _ fun _ => rfl
  | w512Seed64 => exact absurd rfl h1
  | w512Load => exact absurd rfl h2
  | w512Next =>
    show Ended _ _ s (execW512Next s)
    unfold execW512Next
    split
    case isTrue h =>
      refine .done _ ?_ (by simp [May.ofInstr, hasResult])
      constructor <;> simp [May.ofInstr]
    case isFalse h => exact raise_ended s (.inr (.inr ⟨rfl, rfl, by simpa using h⟩))
  | smpl32 => exact sampleFrom_ended rfl rfl rfl _ _ _ s
  | smpl64 => exact sampleFrom_ended rfl rfl rfl _ _ _ s
  | rndcntU32 =>
    exact rndCount_ended rfl rfl rfl _ s fun h => .inl ⟨rfl, by simp only [IntType.read] at h; simp only [argError]; omega⟩
  | rndcntS32 => exact rndCount_ended rfl rfl rfl _ s fun h => .inl ⟨rfl, h⟩
  | rndcntU64 =>
    exact rndCount_ended rfl rfl rfl _ s fun h => .inl ⟨rfl, by simp only [IntType.read] at h; simp only [argError]; omega⟩
  | rndcntS64 => exact rndCount_ended rfl rfl rfl _ s fun h => .inl ⟨rfl, h⟩
  | rndrngU32 =>
    exact rndRange_ended rfl rfl rfl _ s fun h => .inl ⟨rfl, by simp only [IntType.read] at h; simp only [argError]; omega⟩
  | rndrngS32 => exact rndRange_ended rfl rfl rfl _ s fun h => .inl ⟨rfl, h⟩
  | rndrngU64 =>
    exact rndRange_ended rfl rfl rfl _ s fun h => .inl ⟨rfl, by simp only [IntType.read] at h; simp only [argError]; omega⟩
  | rndrngS64 => exact rndRange_ended rfl rfl rfl _ s fun h => .inl ⟨rfl, h⟩
  | rndscU32 =>
    refine rndStartCount_ended rfl rfl rfl _ s fun h => .inl ⟨rfl, ?_⟩
    simp only [IntType.read, IntType.greatest] at h
    simp only [argError]
    omega
  | rndscS32 => exact rndStartCount_ended rfl rfl rfl _ s fun h => .inl ⟨rfl, h⟩
  | rndscU64 =>
    refine rndStartCount_ended rfl rfl rfl _ s fun h => .inl ⟨rfl, ?_⟩
    simp only [IntType.read, IntType.greatest] at h
    simp only [argError]
    omega
  | rndscS64 => exact rndStartCount_ended rfl rfl rfl _ s fun h => .inl ⟨rfl, h⟩
  | udbl => exact thenFinish_ended _ (uniformDouble_touches _ s) rfl
  | uflt => exact thenFinish_ended _ (uniformFloat_touches _ s) rfl
  | udblRange =>
    show Ended _ _ s (execUdblRange s)
    unfold execUdblRange
    simp only
    split
    case isTrue h => exact raise_ended s (.inl ⟨rfl, .inl fun ⟨a, b, c⟩ => by rw [a, b, c] at h; simp at h⟩)
    case isFalse =>
      split
      case isTrue h => exact raise_ended s (.inl ⟨rfl, .inr (by simpa using h)⟩)
      case isFalse => exact udblRangeFrom_ended rfl _ _ _ s
  | udblSlen =>
    show Ended _ _ s (execUdblSlen s)
    unfold execUdblSlen
    simp only
    split
    case isTrue h => exact raise_ended s (.inl ⟨rfl, fun ⟨a, b, c⟩ => by rw [a, b, c] at h; simp at h⟩)
    case isFalse => exact udblSlenFrom_ended rfl _ _ s
  | gauss => exact gauss_ended rfl rfl _ s
  | gaussMs => exact gauss_ended rfl rfl _ s
  | expo => exact expoFrom_ended rfl _ s
  | expoMean => exact expoFrom_ended rfl _ s
  | expoRate => exact expoFrom_ended rfl _ s
  | binom =>
    show Ended _ _ s (execBinom s)
    unfold execBinom
    simp only
    split
    case isTrue h => exact raise_ended s (.inl ⟨rfl, .inl h⟩)
    case isFalse =>
      split
      case isTrue h => exact raise_ended s (.inl ⟨rfl, .inr fun ⟨a, b⟩ => by rw [oneF64, a, b] at h; simp at h⟩)
      case isFalse => exact binomFrom_ended rfl _ _ _ s
  | poisson => exact raise_ended s (.inr (.inl ⟨rfl, rfl⟩))

/-- What the rest of a suspended body may write. -/
def May.ofFrame : Frame → May
  | .bool => { bit := true }
  | .byte => { byte := true }
  | .uint16 => { short := true }
  | .bytes _ _ => { hm := true, res := false }
  | .refill => { res := false }
  | .sample _ _ _ => { byte := true, short := true }
  | .gaussU _ => { spare := true }
  | .gaussV _ _ => { spare := true }
  | _ => {}

/-- How the rest of every suspended body ends and what it may write. It raises no error of its own. -/
theorem resume_ended (k : Frame) (s : State) : Ended (May.ofFrame k) (fun _ => False) s (resume k s) := by
  cases k with
  | int32 => exact thenFinish_ended _ (drawU32_touches _ s) rfl
  | uint32 => exact thenFinish_ended _ (drawU32_touches _ s) rfl
  | int64 => exact thenFinish_ended _ (drawU64_touches _ s) rfl
  | uint64 => exact thenFinish_ended _ (drawU64_touches _ s) rfl
  | bool => exact thenFinish_ended _ (drawSub_touches rfl s) rfl
  | byte => exact thenFinish_ended _ (drawSub_touches rfl s) rfl
  | uint16 => exact thenFinish_ended _ (drawSub_touches rfl s) rfl
  | bytes dst count => exact bytesLoop_ended rfl _ _ _ s
  | refill => exact finish_ended s _ fun _ => rfl
  | sample p start t => exact sampleFrom_ended rfl rfl rfl _ _ _ s
  | udbl => exact thenFinish_ended _ (uniformDouble_touches _ s) rfl
  | uflt => exact thenFinish_ended _ (uniformFloat_touches _ s) rfl
  | udblRange start len stop => exact udblRangeFrom_ended rfl _ _ _ s
  | udblSlen start len => exact udblSlenFrom_ended rfl _ _ s
  | gaussU post => exact gaussFromU_ended rfl rfl _ s
  | gaussV u post => exact gaussFromV_ended rfl rfl _ _ s
  | expo post => exact expoFrom_ended rfl _ s
  | binom left n p => exact binomFrom_ended rfl _ _ _ s

end Sys2Proof.Machine
end

