-- ==== Sys2Proof/Laws/Ready.lean ====
section
/-! SUPPORT. What a draw answers where it needs no refill (spec 40_word_engine.md R110 to R115), where it needs one
(R103), and what a loop of draws answers after a run of rejected values (42_sampler.md R171). -/

namespace Sys2Proof.Machine

/-! ## Draws that need no refill -/

theorem drawU32_ready {s : State} (h : 1 ≤ s.cursor) :
    drawU32 s = .got (s.word (s.cursor - 1)) { s with cursor := s.cursor - 1 } := by
  unfold drawU32 needWords
  rw [if_neg (by omega)]
  rfl

theorem drawU64_ready {s : State} (h : 2 ≤ s.cursor) :
    drawU64 s = .got (s.word (s.cursor - 2) ++ s.word (s.cursor - 1)) { s with cursor := s.cursor - 2 } := by
  unfold drawU64 needWords
  rw [if_neg (by omega)]
  rfl

theorem drawSub_cached {c : Cache} {s : State} (h : 2 ^ c.width ≤ (s.cache c).toNat) :
    drawSub c s = .got ((s.cache c).toNat % 2 ^ c.width) (s.setCache c (s.cache c >>> c.width)) := by
  unfold drawSub
  simp only
  rw [if_pos h]

theorem drawSub_fresh {c : Cache} {s : State} (h : (s.cache c).toNat < 2 ^ c.width) (hc : 1 ≤ s.cursor) :
    drawSub c s = .got ((s.word (s.cursor - 1)).toNat % 2 ^ c.width)
      (({ s with cursor := s.cursor - 1 } : State).setCache c
        ((s.word (s.cursor - 1) >>> c.width) ||| (1#32 <<< (32 - c.width)))) := by
  unfold drawSub
  simp only
  rw [if_neg (by omega), drawU32_ready hc]
  rfl

theorem uniformDouble_ready {s : State} (h : 2 ≤ s.cursor) :
    uniformDouble s = .got (s.uniformAt (s.cursor - 2)) { s with cursor := s.cursor - 2 } := by
  unfold uniformDouble
  rw [drawU64_ready h]
  simp only [Draw.bind, State.uniformAt]
  rw [show s.cursor - 2 + 1 = s.cursor - 1 by omega]

/-- `DrawWidth.raw` is the model's raw draw where that needs no refill. -/
theorem drawWidth_ready {w : DrawWidth} {s : State} (h : w.ready s) : drawWidth w s = .got (w.raw s).1 (w.raw s).2 := by
  cases w with
  | w8 =>
    simp only [DrawWidth.ready, DrawWidth.raw, drawWidth] at *
    by_cases hc : 2 ^ 8 ≤ s.byteCache.toNat
    · rw [if_pos hc, drawSub_cached (c := .byte) hc]; rfl
    · rw [if_neg hc, drawSub_fresh (c := .byte) (Nat.lt_of_not_le hc) (h.resolve_left hc)]; rfl
  | w16 =>
    simp only [DrawWidth.ready, DrawWidth.raw, drawWidth] at *
    by_cases hc : 2 ^ 16 ≤ s.shortCache.toNat
    · rw [if_pos hc, drawSub_cached (c := .short) hc]; rfl
    · rw [if_neg hc, drawSub_fresh (c := .short) (Nat.lt_of_not_le hc) (h.resolve_left hc)]; rfl
  | w32 => simp only [drawWidth]; rw [drawU32_ready h]; rfl
  | w64 => simp only [drawWidth]; rw [drawU64_ready h]; rfl

/-! ## Draws that need a refill -/

/-- How a draw that needs a refill goes on, by provider: it waits, it is the draw on the refilled buffer, or it aborts
with UNSEEDED. -/
structure DrawRefills {α : Type} (d : State → Draw α) (s : State) : Prop where
  external : s.cfg.provider ≠ .well512 → d s = .wait s.startFill
  internal : s.cfg.provider = .well512 → s.seeded = true → d s = d s.fillFromWell.refillDone
  unseeded : s.cfg.provider = .well512 → s.seeded = false → d s = .abort .unseeded s

theorem refill_external {s : State} (h : s.cfg.provider ≠ .well512) : refill s = .wait s.startFill := by
  unfold refill
  cases hp : s.cfg.provider <;> simp_all

theorem refill_internal {s : State} (h : s.cfg.provider = .well512) (hs : s.seeded = true) :
    refill s = .got () s.fillFromWell.refillDone := by
  unfold refill
  rw [h]
  simp only
  rw [if_pos hs]

theorem refill_unseeded {s : State} (h : s.cfg.provider = .well512) (hs : s.seeded = false) :
    refill s = .abort .unseeded s := by
  unfold refill
  rw [h]
  simp only
  rw [if_neg (by simp [hs])]

theorem needWords_refills {n : Nat} {s : State} (hw : n ≤ s.cfg.words) (h : s.cursor < n) :
    DrawRefills (needWords n) s where
  external hp := by unfold needWords; rw [if_pos h, refill_external hp]
  internal hp hs := by
    unfold needWords
    rw [if_pos h, refill_internal hp hs, if_neg (by show ¬s.cfg.words < n; omega)]
  unseeded hp hs := by unfold needWords; rw [if_pos h, refill_unseeded hp hs]

theorem DrawRefills.bind {α β : Type} {d : State → Draw α} {f : α → State → Draw β} {s : State}
    (h : DrawRefills d s) : DrawRefills (fun s => (d s).bind f) s where
  external hp := by simp only [h.external hp]; rfl
  internal hp hs := by simp only [h.internal hp hs]
  unseeded hp hs := by simp only [h.unseeded hp hs]; rfl

theorem drawU32_refills {s : State} (hw : 1 ≤ s.cfg.words) (h : s.cursor < 1) : DrawRefills drawU32 s :=
  (needWords_refills hw h).bind

theorem drawU64_refills {s : State} (hw : 2 ≤ s.cfg.words) (h : s.cursor < 2) : DrawRefills drawU64 s :=
  (needWords_refills hw h).bind

theorem uniformDouble_refills {s : State} (hw : 2 ≤ s.cfg.words) (h : s.cursor < 2) : DrawRefills uniformDouble s :=
  (drawU64_refills hw h).bind

theorem uniformFloat_refills {s : State} (hw : 1 ≤ s.cfg.words) (h : s.cursor < 1) : DrawRefills uniformFloat s :=
  (drawU32_refills hw h).bind

theorem drawSub_refills {c : Cache} {s : State} (hw : 1 ≤ s.cfg.words) (hc : (s.cache c).toNat < 2 ^ c.width)
    (h : s.cursor < 1) : DrawRefills (drawSub c) s := by
  have e : ∀ t : State, (t.cache c).toNat < 2 ^ c.width → drawSub c t = (drawU32 t).bind fun w s =>
      .got (w.toNat % 2 ^ c.width) (s.setCache c ((w >>> c.width) ||| (1#32 <<< (32 - c.width)))) := by
    intro t ht
    unfold drawSub
    simp only
    rw [if_neg (by omega)]
  have r := (drawU32_refills hw h).bind (f := fun (w : Word) (s : State) =>
      Draw.got (w.toNat % 2 ^ c.width) (s.setCache c ((w >>> c.width) ||| (1#32 <<< (32 - c.width)))))
  have hc' : ((s.fillFromWell.refillDone).cache c).toNat < 2 ^ c.width := by cases c <;> exact hc
  exact ⟨fun hp => (e s hc).trans (r.external hp),
    fun hp hs => (e s hc).trans ((r.internal hp hs).trans (e _ hc').symm),
    fun hp hs => (e s hc).trans (r.unseeded hp hs)⟩

theorem drawWidth_refills {w : DrawWidth} {s : State} (hw : 2 ≤ s.cfg.words) (h : ¬w.ready s) :
    DrawRefills (drawWidth w) s := by
  cases w <;> simp only [DrawWidth.ready, not_or] at h
  · exact drawSub_refills (c := .byte) (by omega) (Nat.lt_of_not_le h.1) (by omega)
  · exact drawSub_refills (c := .short) (by omega) (Nat.lt_of_not_le h.1) (by omega)
  · exact (drawU32_refills (by omega) (by omega)).bind
  · exact (drawU64_refills hw (by omega)).bind

/-! ## Loops of draws -/

theorem loopBound_succ (s : State) : ∃ k, s.loopBound = k + 1 := ⟨_, rfl⟩

theorem loopBound_congr {s t : State} (h : t.cfg = s.cfg) : t.loopBound = s.loopBound := by
  unfold State.loopBound
  rw [h]

theorem retry_refills {α β : Type} {d : State → Draw α} {acc : α → Option β} {s : State} (h : DrawRefills d s) :
    DrawRefills (fun s => retry d acc s.loopBound s) s := by
  obtain ⟨k, hk⟩ := loopBound_succ s
  have hl : (s.fillFromWell.refillDone).loopBound = s.loopBound := loopBound_congr rfl
  refine ⟨fun hp => ?_, fun hp hs => ?_, fun hp hs => ?_⟩
  · rw [hk]; simp only [retry]; rw [h.external hp]
  · rw [hl, hk]; simp only [retry]; rw [h.internal hp hs]
  · rw [hk]; simp only [retry]; rw [h.unseeded hp hs]

/-- A loop with rounds enough for its first accepted draw ends with that draw. -/
theorem retry_run {α β : Type} {draw : State → Draw α} {accept : α → Option β} (n : Nat) (f : Nat → State)
    (x : Nat → α) {y : β} (m : Nat) (hd : ∀ j ≤ n, draw (f j) = .got (x j) (f (j + 1)))
    (hrej : ∀ j < n, accept (x j) = none) (hacc : accept (x n) = some y) (hm : n + 1 ≤ m) :
    retry draw accept m (f 0) = .got y (f (n + 1)) := by
  induction n generalizing f x m with
  | zero =>
    obtain ⟨m, rfl⟩ : ∃ k, m = k + 1 := ⟨m - 1, by omega⟩
    simp only [retry, hd 0 (by omega), hacc]
  | succ n ih =>
    obtain ⟨m, rfl⟩ : ∃ k, m = k + 1 := ⟨m - 1, by omega⟩
    simp only [retry, hd 0 (by omega), hrej 0 (by omega)]
    exact ih (fun j => f (j + 1)) (fun j => x (j + 1)) m (fun j hj => hd (j + 1) (by omega))
      (fun j hj => hrej (j + 1) (by omega)) hacc (by omega)

/-- The bound of a loop never cuts a run of draws short that reaches an accepted one. -/
theorem retry_bound {α β : Type} {draw : State → Draw α} {accept : α → Option β} (hnd : ∀ s, draw s ≠ .diverge)
    (hok : ∀ s, (draw s).Ok s) (hal : ∀ {s t : State}, s.core = t.core → (draw s).Alike (draw t)) {s : State}
    (hi : DrawInv s) (n : Nat) (f : Nat → State) (x : Nat → α) {y : β} (h0 : f 0 = s)
    (hd : ∀ j ≤ n, draw (f j) = .got (x j) (f (j + 1))) (hrej : ∀ j < n, accept (x j) = none)
    (hacc : accept (x n) = some y) : retry draw accept s.loopBound s = .got y (f (n + 1)) := by
  have h1 : ∀ m, n + 1 ≤ m → retry draw accept m s = .got y (f (n + 1)) := fun m hm =>
    h0 ▸ retry_run n f x m hd hrej hacc hm
  by_cases hdv : retry draw accept s.loopBound s = .diverge
  · have := retry_diverges_forever hnd hok hal hi hdv (n + 1)
    rw [h1 _ le_rfl] at this
    cases this
  · rcases le_total s.loopBound (n + 1) with hle | hle
    · rw [← retry_mono hnd hle hdv]; exact h1 _ le_rfl
    · exact h1 _ hle

/-! ## The plan of SampleMax -/

theorem DrawWidth.bits_inj {v w : DrawWidth} (h : v.bits = w.bits) : v = w := by
  cases v <;> cases w <;> simp_all [DrawWidth.bits]

theorem leastWidth_unique {mx : Nat} {v w : DrawWidth} (h1 : leastWidth mx v) (h2 : leastWidth mx w) : v = w :=
  DrawWidth.bits_inj (le_antisymm (h1.2 _ h2.1) (h2.2 _ h1.1))

theorem chooseWidth_least {mx : Nat} (h : mx < 2 ^ 64) : leastWidth mx (chooseWidth (mx + 1)) := by
  unfold chooseWidth
  split_ifs <;> refine ⟨by simp only [DrawWidth.bits]; omega, ?_⟩ <;> intro v hv <;> cases v <;>
    simp only [DrawWidth.bits] at * <;> omega

/-- The special case of R171 is the general case at count = 2^D (42_sampler.md R172 item 4). -/
theorem samplePlan_eq {mx d : Nat} (hd : d = 32 ∨ d = 64) :
    samplePlan mx d = ⟨chooseWidth (mx + 1), usableDraws mx (chooseWidth (mx + 1)), mx + 1⟩ := by
  unfold samplePlan usableDraws
  split
  case isTrue he => rcases hd with rfl | rfl <;> subst he <;> simp [chooseWidth, DrawWidth.bits]
  case isFalse => rfl

end Sys2Proof.Machine
end

