-- ==== Sys2Proof/Laws/Streams.lean ====
section
/-! SUPPORT. Two states of one stream draw alike (spec 41_well512.md R164): under PROVIDER_KIND = WELL512 a draw reads
nothing of the state but what `State.SameStream` compares. -/

namespace Sys2Proof.Machine

/-- Two states of one stream, of a proper instance with the internal provider. -/
structure InStep (s t : State) : Prop where
  prov : s.cfg.provider = .well512
  wf : s.cfg.wellFormed = true
  same : s.SameStream t

/-- Two draws end alike, on states of one stream. -/
def Draw.InStep {α : Type} : Draw α → Draw α → Prop
  | .got x s, .got y t => x = y ∧ Machine.InStep s t
  | .abort e s, .abort e' t => e = e' ∧ e ≠ .none ∧ Machine.InStep s t
  | .diverge, .diverge => True
  | _, _ => False

theorem Draw.InStep.bind {γ δ : Type} {d e : Draw γ} {f : γ → State → Draw δ} (h : d.InStep e)
    (k : ∀ x s t, d = .got x s → e = .got x t → Machine.InStep s t → (f x s).InStep (f x t)) :
    (d.bind f).InStep (e.bind f) := by
  cases d <;> cases e <;> simp only [Draw.InStep, Draw.bind] at * <;> try trivial
  obtain ⟨rfl, h⟩ := h
  exact k _ _ _ rfl rfl h

theorem InStep.well_eq {s t : State} (h : InStep s t) : s.well = t.well := by
  simp [State.well, h.same.wstate, h.same.windex]

theorem refill_inStep {s t : State} (h : InStep s t) : (refill s).InStep (refill t) := by
  have hp := h.prov
  have hp' : t.cfg.provider = .well512 := h.same.cfg ▸ hp
  unfold refill
  rw [hp, hp']
  simp only
  rw [← h.same.seeded]
  cases hs : s.seeded with
  | true =>
    refine ⟨rfl, ?_, ?_, ?_⟩
    · simpa using hp
    · simpa using h.wf
    · have hw := h.well_eq
      constructor <;> simp [State.refillDone, State.fillFromWell, State.setWell, State.word, hw, h.same.cfg,
        h.same.bitCache, h.same.byteCache, h.same.shortCache, h.same.gaussSpare, h.same.seeded]
  | false => exact ⟨rfl, by simp, h⟩

theorem needWords_inStep (n : Nat) {s t : State} (h : InStep s t) : (needWords n s).InStep (needWords n t) := by
  unfold needWords
  rw [h.same.cursor]
  split
  · exact refill_inStep h
  · exact ⟨rfl, h⟩

theorem needWords_got {n : Nat} {s t : State} (hw : n ≤ s.cfg.words) (h : needWords n s = .got () t) :
    n ≤ t.cursor := by
  unfold needWords refill at h
  split at h
  · cases hc : s.cfg.provider <;> rw [hc] at h
    · cases hs : s.seeded <;> rw [hs] at h <;> simp at h
      subst h
      simpa using hw
    · simp at h
    · simp at h
  · injection h with _ h
    subst h
    omega

theorem InStep.take {s t : State} (h : InStep s t) (n : Nat) :
    InStep { s with cursor := s.cursor - n } { t with cursor := t.cursor - n } := by
  refine ⟨h.prov, h.wf, ?_⟩
  obtain ⟨h1, h2, h3, h4, h5, h6, h7, h8, h9, h10⟩ := h.same
  exact ⟨h1, by simp [h2], fun k hk => h3 k (by simp at hk; omega), h4, h5, h6, h7, h8, h9, h10⟩

theorem drawU32_inStep {s t : State} (h : InStep s t) : (drawU32 s).InStep (drawU32 t) :=
  (needWords_inStep 1 h).bind fun x a b ha hb hl => by
    have := needWords_got (by have := words_pos h.wf; omega) ha
    refine ⟨?_, hl.take 1⟩
    rw [← hl.same.cursor]
    exact hl.same.words _ (by omega)

theorem drawU64_inStep {s t : State} (h : InStep s t) : (drawU64 s).InStep (drawU64 t) :=
  (needWords_inStep 2 h).bind fun x a b ha hb hl => by
    have := needWords_got (by have := words_pos h.wf; omega) ha
    refine ⟨?_, hl.take 2⟩
    rw [← hl.same.cursor]
    rw [hl.same.words _ (by omega : a.cursor - 2 < a.cursor), hl.same.words _ (by omega : a.cursor - 1 < a.cursor)]

theorem InStep.setCache {s t : State} (h : InStep s t) (c : Cache) (v : Word) :
    InStep (s.setCache c v) (t.setCache c v) := by
  have hp := h.prov
  have hw := h.wf
  obtain ⟨h1, h2, h3, h4, h5, h6, h7, h8, h9, h10⟩ := h.same
  cases c <;> exact ⟨hp, hw, ⟨h1, h2, h3, by simp [h4], by simp [h5], by simp [h6], h7, h8, h9, h10⟩⟩

theorem drawSub_inStep (c : Cache) {s t : State} (h : InStep s t) : (drawSub c s).InStep (drawSub c t) := by
  have hv : s.cache c = t.cache c := by
    cases c
    · exact h.same.bitCache
    · exact h.same.byteCache
    · exact h.same.shortCache
  unfold drawSub
  simp only [hv]
  split
  · exact ⟨rfl, h.setCache c _⟩
  · exact (drawU32_inStep h).bind fun w a b _ _ hl => ⟨rfl, hl.setCache c _⟩

theorem drawWidth_inStep (w : DrawWidth) {s t : State} (h : InStep s t) : (drawWidth w s).InStep (drawWidth w t) := by
  cases w with
  | w8 => exact drawSub_inStep _ h
  | w16 => exact drawSub_inStep _ h
  | w32 => exact (drawU32_inStep h).bind fun _ _ _ _ _ h => ⟨rfl, h⟩
  | w64 => exact (drawU64_inStep h).bind fun _ _ _ _ _ h => ⟨rfl, h⟩

theorem uniformDouble_inStep {s t : State} (h : InStep s t) : (uniformDouble s).InStep (uniformDouble t) :=
  (drawU64_inStep h).bind fun _ _ _ _ _ h => ⟨rfl, h⟩

theorem uniformFloat_inStep {s t : State} (h : InStep s t) : (uniformFloat s).InStep (uniformFloat t) :=
  (drawU32_inStep h).bind fun _ _ _ _ _ h => ⟨rfl, h⟩

theorem retry_inStep {α β : Type} {draw : State → Draw α}
    (hd : ∀ {s t}, InStep s t → (draw s).InStep (draw t)) (accept : α → Option β) (n : Nat) {s t : State}
    (h : InStep s t) : (retry draw accept n s).InStep (retry draw accept n t) := by
  induction n generalizing s t with
  | zero => trivial
  | succ n ih =>
    have := hd h
    unfold retry
    cases h1 : draw s <;> cases h2 : draw t <;> rw [h1, h2] at this <;> simp only [Draw.InStep] at this ⊢
    · obtain ⟨rfl, hl⟩ := this
      cases accept _ with
      | none => exact ih hl
      | some y => exact ⟨rfl, hl⟩
    · exact this

end Sys2Proof.Machine
end

