-- ==== Sys2Proof/Laws/Oracle.lean ====
section
/-! SUPPORT. Bodies under an external provider against the same bodies under a seeded Well512 unit (spec
40_word_engine.md R106): `FollowsUnit` for draws, `EndsAsUnit` for bodies, with one lemma for each way a body is put
together. -/

namespace Sys2Proof.Machine

/-- The instance with the internal provider at unit `w`, with `c` for cont: a suspension leaves its frame in cont, an
internal refill does not. -/
def State.asInternal (s : State) (w : Well) (c : Cont) : State := { s.withUnit w with cont := c }

/-- The fill that unit `w` gives, and the unit after it. -/
def unitFill (s : State) (w : Well) : List Word × Well := w512Generate s.cfg.words w

/-- The unit after `n` refills. -/
def unitAfter (words : Nat) : Nat → Well → Well
  | 0, w => w
  | n + 1, w => unitAfter words n (w512Generate words w).2

/-- What no body changes under an external provider: the parameters and the Well512 unit. -/
structure KeepsUnit (s t : State) : Prop where
  cfg : t.cfg = s.cfg
  wstate : t.wstate = s.wstate
  windex : t.windex = s.windex
  seeded : t.seeded = s.seeded

theorem KeepsUnit.refl (s : State) : KeepsUnit s s := ⟨rfl, rfl, rfl, rfl⟩

theorem KeepsUnit.trans {s t u : State} (h : KeepsUnit s t) (k : KeepsUnit t u) : KeepsUnit s u :=
  ⟨k.cfg.trans h.cfg, k.wstate.trans h.wstate, k.windex.trans h.windex, k.seeded.trans h.seeded⟩

/-- A state of an instance with an external provider. -/
def External (s : State) : Prop := s.cfg.provider ≠ .well512 ∧ 2 ≤ s.cfg.words

theorem External.keeps {s t : State} (h : External s) (k : KeepsUnit s t) : External t := by
  unfold External
  rw [k.cfg]
  exact h

/-- The external state after a suspension in `s` has got its fill from unit `w`. -/
def State.afterFill (s : State) (k : Frame) (w : Well) : State := (s.startFill.suspend k).filledWith (unitFill s w).1

/-! ## Draws -/

/-- A draw gives the same value and state under the external provider, at once or after one fill, as under the unit. -/
def FollowsUnit {α : Type} (d : State → Draw α) : Prop :=
  ∀ (s : State) (w : Well) (c : Cont), External s →
    (∃ x t, d s = .got x t ∧ d (s.asInternal w c) = .got x (t.asInternal w c) ∧ KeepsUnit s t ∧
      t.refills = s.refills) ∨
      (d s = .wait s.startFill ∧ ∀ k, ∃ x t, d (s.afterFill k w) = .got x t ∧ KeepsUnit s t ∧
        t.refills = s.refills + 1 ∧ d (s.asInternal w c) = .got x (t.asInternal (unitFill s w).2 c))

theorem needWords_follows (n : Nat) (hn : n ≤ 2) : FollowsUnit (needWords n) := by
  intro s w c hs
  have hw := hs.2
  by_cases h : s.cursor < n
  · right
    refine ⟨by unfold needWords; rw [if_pos h, refill_external hs.1], fun k =>
      ⟨(), s.afterFill k w, ?_, ⟨rfl, rfl, rfl, rfl⟩, rfl, ?_⟩⟩
    · unfold needWords; rw [if_neg (by show ¬s.cfg.words < n; omega)]
    · unfold needWords; rw [if_pos (by exact h), refill_internal rfl rfl]; rfl
  · left
    refine ⟨(), s, ?_, ?_, KeepsUnit.refl s, rfl⟩
    · unfold needWords; rw [if_neg h]
    · unfold needWords; rw [if_neg (by exact h)]

theorem FollowsUnit.map {α β : Type} {d : State → Draw α} (h : FollowsUnit d) (g : State → α → β)
    (m : State → α → State) (hg : ∀ s x w c, g (s.asInternal w c) x = g s x)
    (hm : ∀ s x w c, m (s.asInternal w c) x = (m s x).asInternal w c) (hk : ∀ s x, KeepsUnit s (m s x))
    (hr : ∀ s x, (m s x).refills = s.refills) : FollowsUnit fun s => (d s).bind fun x s => .got (g s x) (m s x) := by
  intro s w c hs
  rcases h s w c hs with ⟨x, t, h1, h2, h3, h4⟩ | ⟨h1, h2⟩
  · left
    refine ⟨g t x, m t x, by simp only [h1]; rfl, ?_, h3.trans (hk _ _), (hr _ _).trans h4⟩
    simp only [h2, Draw.bind, hg, hm]
  · right
    refine ⟨by simp only [h1]; rfl, fun k => ?_⟩
    obtain ⟨x, t, e1, e2, e3, e4⟩ := h2 k
    refine ⟨g t x, m t x, by simp only [e1]; rfl, e2.trans (hk _ _), (hr _ _).trans e3, ?_⟩
    simp only [e4, Draw.bind, hg, hm]

/-- `FollowsUnit.map` where only the value changes. -/
theorem FollowsUnit.value {α β : Type} {d : State → Draw α} (h : FollowsUnit d) (g : α → β) :
    FollowsUnit fun s => (d s).bind fun x s => .got (g x) s :=
  h.map (fun _ x => g x) (fun s _ => s) (fun _ _ _ _ => rfl) (fun _ _ _ _ => rfl) (fun s _ => KeepsUnit.refl s)
    fun _ _ => rfl

theorem drawU32_follows : FollowsUnit drawU32 :=
  (needWords_follows 1 (by omega)).map (fun s _ => s.word (s.cursor - 1)) (fun s _ => { s with cursor := s.cursor - 1 })
    (fun _ _ _ _ => rfl) (fun _ _ _ _ => rfl) (fun _ _ => ⟨rfl, rfl, rfl, rfl⟩) fun _ _ => rfl

theorem drawU64_follows : FollowsUnit drawU64 :=
  (needWords_follows 2 (by omega)).map (fun s _ => s.word (s.cursor - 2) ++ s.word (s.cursor - 1))
    (fun s _ => { s with cursor := s.cursor - 2 }) (fun _ _ _ _ => rfl) (fun _ _ _ _ => rfl)
    (fun _ _ => ⟨rfl, rfl, rfl, rfl⟩) fun _ _ => rfl

theorem uniformDouble_follows : FollowsUnit uniformDouble :=
  drawU64_follows.value fun x => uniformDoubleBits (x.toNat % 2 ^ 53)

theorem uniformFloat_follows : FollowsUnit uniformFloat :=
  drawU32_follows.value fun x => uniformFloatBits (x.toNat % 2 ^ 24)

theorem drawSub_follows (q : Cache) : FollowsUnit (drawSub q) := by
  intro s w c hs
  have hcache : ∀ t : State, (t.asInternal w c).cache q = t.cache q := fun t => by cases q <;> rfl
  by_cases h : 2 ^ q.width ≤ (s.cache q).toNat
  · left
    refine ⟨_, _, drawSub_cached h, ?_, ?_, ?_⟩
    · rw [drawSub_cached (by rw [hcache]; exact h)]
      cases q <;> rfl
    · cases q <;> exact ⟨rfl, rfl, rfl, rfl⟩
    · cases q <;> rfl
  · have e : ∀ t : State, ¬2 ^ q.width ≤ (t.cache q).toNat → drawSub q t = (drawU32 t).bind fun w s =>
        .got (w.toNat % 2 ^ q.width) (s.setCache q ((w >>> q.width) ||| (1#32 <<< (32 - q.width)))) := by
      intro t ht
      unfold drawSub
      simp only
      rw [if_neg ht]
    have hf := drawU32_follows.map (fun _ (x : Word) => x.toNat % 2 ^ q.width)
      (fun s x => s.setCache q ((x >>> q.width) ||| (1#32 <<< (32 - q.width)))) (fun _ _ _ _ => rfl)
      (fun _ _ _ _ => by cases q <;> rfl) (fun _ _ => by cases q <;> exact ⟨rfl, rfl, rfl, rfl⟩)
      fun _ _ => by cases q <;> rfl
    have h' : ¬2 ^ q.width ≤ ((s.asInternal w c).cache q).toNat := by rw [hcache]; exact h
    rcases hf s w c hs with ⟨x, t, h1, h2, h3⟩ | ⟨h1, h2⟩
    · exact .inl ⟨x, t, (e s h).trans h1, (e _ h').trans h2, h3⟩
    · refine .inr ⟨(e s h).trans h1, fun k => ?_⟩
      obtain ⟨x, t, e1, e2, e3, e4⟩ := h2 k
      have h'' : ¬2 ^ q.width ≤ ((s.afterFill k w).cache q).toNat := by cases q <;> exact h
      exact ⟨x, t, (e _ h'').trans e1, e2, e3, (e _ h').trans e4⟩

theorem drawWidth_follows (d : DrawWidth) : FollowsUnit (drawWidth d) := by
  cases d with
  | w8 => exact drawSub_follows _
  | w16 => exact drawSub_follows _
  | w32 => exact drawU32_follows.value fun x => x.toNat
  | w64 => exact drawU64_follows.value fun x => x.toNat

/-! ## Bodies -/

/-- With its suspensions answered by the unit's fills, the answer `a` of the external instance comes to `u`, which the
internal instance reached. -/
def Reaches (s : State) (w : Well) (a : Answer) (u : State) : Prop :=
  ∃ n t, answerFills (unitFills s.cfg.words n w) a = .next t ∧
    u = t.asInternal (unitAfter s.cfg.words n w) .idle ∧ KeepsUnit s t ∧ t.refills = s.refills + BitVec.ofNat 32 n ∧
      t.cont = .idle ∧ t.done = true

/-- A body that ends under the unit ends so under the external provider. -/
def EndsAsUnit (B : State → Answer) (s : State) (w : Well) (c : Cont) : Prop :=
  ∀ u, B (s.asInternal w c) = .next u → Reaches s w (B s) u

theorem endsAsUnit_finish (r : Option DWord) (s : State) (w : Well) (c : Cont) : EndsAsUnit (finish r) s w c := by
  intro u hu
  injection hu with hu
  exact ⟨0, s.complete r, rfl, hu.symm, ⟨rfl, rfl, rfl, rfl⟩, by simp, rfl, rfl⟩

theorem endsAsUnit_raise (e : ErrCode) (s : State) (w : Well) (c : Cont) : EndsAsUnit (raise e) s w c := by
  intro u hu
  injection hu with hu
  exact ⟨0, s.abort false e, rfl, hu.symm, ⟨rfl, rfl, rfl, rfl⟩, by simp, rfl, rfl⟩

theorem refills_succ (r : Word) (n : Nat) : r + 1 + BitVec.ofNat 32 n = r + BitVec.ofNat 32 (n + 1) := by
  rw [BitVec.add_assoc]
  congr 1
  apply BitVec.eq_of_toNat_eq
  simp [Nat.add_comm]

/-- What a later state reaches, the state itself reaches with the same answer. -/
theorem Reaches.of_keeps {s t u : State} {w : Well} {a : Answer} (hk : KeepsUnit s t) (hr : t.refills = s.refills)
    (h : Reaches t w a u) : Reaches s w a u := by
  obtain ⟨n, v, e1, e2, e3, e4, e5⟩ := h
  rw [hk.cfg] at e1 e2
  exact ⟨n, v, e1, e2, hk.trans e3, by rw [e4, hr], e5⟩

/-- One fill, then the rest. -/
theorem Reaches.of_fill {s s1 t u : State} {w : Well} {k : Frame} (hk : KeepsUnit s s1)
    (ht : KeepsUnit s t) (htr : t.refills = s.refills + 1)
    (h : Reaches t (unitFill s w).2 (resume k (s1.afterFill k w)) u) :
    Reaches s w (.next (s1.startFill.suspend k)) u := by
  obtain ⟨n, v, e1, e2, e3, e4, e5⟩ := h
  rw [ht.cfg] at e1 e2
  refine ⟨n + 1, v, ?_, e2, ht.trans e3, by rw [e4, htr, refills_succ], e5⟩
  have : (s1.startFill.suspend k).filledWith (w512Generate s.cfg.words w).1 = s1.afterFill k w := by
    unfold State.afterFill unitFill
    rw [hk.cfg]
  show answerFills _ (resume k _) = _
  rw [this]
  exact e1

theorem endsAsUnit_of_eq {B R : State → Answer} {s t : State} {w : Well} {c : Cont} (hk : KeepsUnit s t)
    (hr : t.refills = s.refills) (h1 : B s = R t) (h2 : B (s.asInternal w c) = R (t.asInternal w c))
    (hg : EndsAsUnit R t w c) : EndsAsUnit B s w c := by
  intro u hu
  rw [h2] at hu
  rw [h1]
  exact (hg u hu).of_keeps hk hr

/-- A draw, then the rest of the body. -/
theorem endsAsUnit_thenDo {α : Type} {d : State → Draw α} {k : Frame} {f : α → State → Answer} (hd : FollowsUnit d)
    (hk : ∀ t, resume k t = (d t).thenDo k f) (hf : ∀ x t w c, External t → EndsAsUnit (f x) t w c) (s : State)
    (w : Well) (c : Cont) (hs : External s) : EndsAsUnit (fun s => (d s).thenDo k f) s w c := by
  rcases hd s w c hs with ⟨x, t, h1, h2, h3, h4⟩ | ⟨h1, h2⟩
  · exact endsAsUnit_of_eq (R := f x) h3 h4 (by simp only [h1]; rfl) (by simp only [h2]; rfl)
      (hf x t w c (hs.keeps h3))
  · intro u hu
    obtain ⟨x, t, e1, e2, e3, e4⟩ := h2 k
    simp only [e4] at hu
    simp only [h1]
    refine Reaches.of_fill (KeepsUnit.refl s) e2 e3 ?_
    rw [hk, e1]
    exact hf x t _ c (hs.keeps e2) u hu

/-- A loop of draws, then the rest of the body. The external loop's bound starts afresh at each suspension. -/
theorem endsAsUnit_retry {α β : Type} {d : State → Draw α} {acc : α → Option β} {k : Frame} {f : β → State → Answer}
    (hd : FollowsUnit d) (hk : ∀ t, resume k t = (retry d acc t.loopBound t).thenDo k f)
    (hf : ∀ x t w c, External t → EndsAsUnit (f x) t w c) (m : Nat) :
    ∀ (M : Nat) (s : State) (w : Well) (c : Cont), External s → m ≤ M → m ≤ s.loopBound →
      ∀ u, (retry d acc m (s.asInternal w c)).thenDo k f = .next u →
        Reaches s w ((retry d acc M s).thenDo k f) u := by
  induction m with
  | zero => intro M s w c _ _ _ u hu; cases hu
  | succ m ih =>
    intro M s w c hs hM hL u hu
    obtain ⟨M, rfl⟩ : ∃ j, M = j + 1 := ⟨M - 1, by omega⟩
    rcases hd s w c hs with ⟨x, t, h1, h2, h3, h4⟩ | ⟨h1, h2⟩
    · simp only [retry, h2] at hu
      simp only [retry, h1]
      cases ha : acc x with
      | some y =>
        rw [ha] at hu
        exact (hf y t w c (hs.keeps h3) u hu).of_keeps h3 h4
      | none =>
        rw [ha] at hu
        exact (ih M t w c (hs.keeps h3) (by omega) (by rw [loopBound_congr h3.cfg]; omega) u hu).of_keeps h3 h4
    · obtain ⟨x, t, e1, e2, e3, e4⟩ := h2 k
      obtain ⟨L, hLs⟩ := loopBound_succ s
      have hLF : (s.afterFill k w).loopBound = L + 1 := (loopBound_congr rfl).trans hLs
      simp only [retry, e4] at hu
      simp only [retry, h1]
      refine Reaches.of_fill (KeepsUnit.refl s) e2 e3 ?_
      rw [hk, hLF]
      simp only [retry, e1]
      cases ha : acc x with
      | some y =>
        rw [ha] at hu
        exact hf y t _ c (hs.keeps e2) u hu
      | none =>
        rw [ha] at hu
        exact ih L t _ c (hs.keeps e2) (by omega) (by rw [loopBound_congr e2.cfg]; omega) u hu

/-- The chunk loop of BYTES (40_word_engine.md R123). -/
theorem endsAsUnit_bytes (m : Nat) :
    ∀ (M dst count : Nat) (s : State) (w : Well) (c : Cont), External s → 1 ≤ M →
      ∀ u, bytesLoop m dst count (s.asInternal w c) = .next u → Reaches s w (bytesLoop M dst count s) u := by
  induction m with
  | zero => intro M dst count s w c _ _ u hu; cases hu
  | succ m ih =>
    intro M dst count s w c hs hM u hu
    obtain ⟨M, rfl⟩ : ∃ j, M = j + 1 := ⟨M - 1, by omega⟩
    unfold bytesLoop at hu ⊢
    simp only at hu ⊢
    by_cases h : 4 * s.cursor < count
    · rw [if_pos (by exact h)] at hu
      rw [if_pos h]
      obtain ⟨e, he⟩ : ∃ e : State, e = { s.copyOut dst 0 (4 * s.cursor) with cursor := 0 } := ⟨_, rfl⟩
      obtain ⟨k, hk⟩ : ∃ k : Frame, k = .bytes (dst + 4 * s.cursor) (count - 4 * s.cursor) := ⟨_, rfl⟩
      have hr : refill { (s.asInternal w c).copyOut dst 0 (4 * (s.asInternal w c).cursor) with cursor := 0 } =
          .got () ((e.afterFill k w).asInternal (unitFill s w).2 c) := by
        rw [he, hk]
        exact refill_internal rfl rfl
      have hx : External e := by rw [he]; exact hs
      have hke : KeepsUnit s e := by rw [he]; exact ⟨rfl, rfl, rfl, rfl⟩
      have hre : e.refills = s.refills := by rw [he]; rfl
      rw [hr] at hu
      rw [← he, refill_external hx.1]
      show Reaches s w (.next (e.startFill.suspend (.bytes (dst + 4 * s.cursor) (count - 4 * s.cursor)))) u
      rw [← hk]
      refine Reaches.of_fill (t := e.afterFill k w) hke ⟨hke.cfg, hke.wstate, hke.windex, hke.seeded⟩ ?_ ?_
      · show e.refills + 1 = _
        rw [hre]
      · subst hk
        exact ih (count - 4 * s.cursor + 2) _ _ _ _ c (by exact hx) (by omega) u hu
    · rw [if_neg (by exact h)] at hu
      rw [if_neg h]
      injection hu with hu
      exact ⟨0, _, rfl, hu.symm, ⟨rfl, rfl, rfl, rfl⟩, by simp, rfl, rfl⟩

end Sys2Proof.Machine
end

