-- ==== Sys2Proof/Laws/PerInstr.lean ====
section
/-! SUPPORT. One lemma per command about its encoding (spec 30_encoding.md R80 to R82, R87, R89). -/

namespace Sys2Proof.Laws.Encoding

/-- The command is well formed, its word has RSVD = 0, is well formed by the ranges of R87, and decodes to it. -/
def Statement (i : Instr) : Prop :=
  i.wellFormed = true ∧ (CmdWord.ofWord (encode i)).rsvd = 0 ∧ (CmdWord.ofWord (encode i)).wellFormed = true ∧
    decode (encode i) = .ok i

theorem int32 : Statement .int32 := by unfold Statement; decide

theorem uint32 : Statement .uint32 := by unfold Statement; decide

theorem int64 : Statement .int64 := by unfold Statement; decide

theorem uint64 : Statement .uint64 := by unfold Statement; decide

theorem bool : Statement .bool := by unfold Statement; decide

theorem byte : Statement .byte := by unfold Statement; decide

theorem uint16 : Statement .uint16 := by unfold Statement; decide

theorem bytes : Statement .bytes := by unfold Statement; decide

theorem refill : Statement .refill := by unfold Statement; decide

theorem w512Seed64 : Statement .w512Seed64 := by unfold Statement; decide

theorem w512Load : Statement .w512Load := by unfold Statement; decide

theorem w512Next : Statement .w512Next := by unfold Statement; decide

theorem smpl32 : Statement .smpl32 := by unfold Statement; decide

theorem smpl64 : Statement .smpl64 := by unfold Statement; decide

theorem rndcntU32 : Statement .rndcntU32 := by unfold Statement; decide

theorem rndcntS32 : Statement .rndcntS32 := by unfold Statement; decide

theorem rndcntU64 : Statement .rndcntU64 := by unfold Statement; decide

theorem rndcntS64 : Statement .rndcntS64 := by unfold Statement; decide

theorem rndrngU32 : Statement .rndrngU32 := by unfold Statement; decide

theorem rndrngS32 : Statement .rndrngS32 := by unfold Statement; decide

theorem rndrngU64 : Statement .rndrngU64 := by unfold Statement; decide

theorem rndrngS64 : Statement .rndrngS64 := by unfold Statement; decide

theorem rndscU32 : Statement .rndscU32 := by unfold Statement; decide

theorem rndscS32 : Statement .rndscS32 := by unfold Statement; decide

theorem rndscU64 : Statement .rndscU64 := by unfold Statement; decide

theorem rndscS64 : Statement .rndscS64 := by unfold Statement; decide

theorem udbl : Statement .udbl := by unfold Statement; decide

theorem uflt : Statement .uflt := by unfold Statement; decide

theorem udblRange : Statement .udblRange := by unfold Statement; decide

theorem udblSlen : Statement .udblSlen := by unfold Statement; decide

theorem gauss : Statement .gauss := by unfold Statement; decide

theorem gaussMs : Statement .gaussMs := by unfold Statement; decide

theorem expo : Statement .expo := by unfold Statement; decide

theorem expoMean : Statement .expoMean := by unfold Statement; decide

theorem expoRate : Statement .expoRate := by unfold Statement; decide

theorem binom : Statement .binom := by unfold Statement; decide

theorem poisson : Statement .poisson := by unfold Statement; decide

end Sys2Proof.Laws.Encoding
end

