-- ==== Sys2Proof/Tests/Slice0.lean ====
section
/-! SUPPORT. Tests of single steps against the vectors of 95_test_vectors.md (named in each comment), the ill-formed terms
the checks refuse, command words written out from 30_encoding.md R82, and for every obligation with hypotheses a
concrete state that meets them. -/

namespace Sys2Proof.Tests

open Sys2Proof Sys2Proof.Machine

-- One theorem after another: a kernel evaluation per theorem, all started at once, would need a thread each.
set_option Elab.async false

/-! ## Helpers -/

/-- N = 2, EXT_WORD. -/
def word2 : Config := ⟨8, .extWord, 0, .sha512⟩
/-- N = 2, EXT_BYTE. -/
def byte2 : Config := ⟨8, .extByte, 0, .sha512⟩
/-- N = 2, WELL512. -/
def well2 : Config := ⟨8, .well512, 0, .sha512⟩
/-- N = 4, WELL512. -/
def well4 : Config := ⟨16, .well512, 0, .sha512⟩

/-- The reset state of `c` with a buffer and a cursor. -/
def filled (c : Config) (cursor : Nat) (b : List Word) : State := { State.resetOf c with buffer := b, cursor := cursor }
/-- A state with operand registers. -/
def args (s : State) (x y : DWord) : State := { s with arg0 := x, arg1 := y }
/-- A state with latched operands. -/
def ops (s : State) (x y : DWord) : State := { s with op0 := x, op1 := y }
/-- A state suspended at a refill with `n` units written. -/
def waiting (c : Config) (k : Frame) (n : Nat) : State :=
  { State.resetOf c with refilling := true, fillCount := n, cont := .suspended k }
/-- wstate[k] = k + 1, windex 0, seeded (41_well512.md R157). -/
def counting (s : State) : State :=
  { s with wstate := Vector.ofFn fun k : Fin 16 => BitVec.ofNat 32 (k.val + 1), windex := 0, seeded := true }
/-- An answer is a next state of which `p` holds. -/
def holds (a : Answer) (p : State → Bool) : Bool :=
  match a with
  | .next t => p t
  | .fault _ => false
  | .refused _ => false
/-- One step that writes `v` to the register at `off`. -/
def write (off : Nat) (v : Word) (s : State) : Answer := step { s with bus := [.write .word (s.cfg.base + off) v] }
/-- One step that writes the command word `v` to CMD. -/
def cmd (v : Word) (s : State) : Answer := write 0 v s
/-- STATUS after an answer. -/
def status (a : Answer) : Option Word :=
  match a with
  | .next t => some (t.regRead 0x04)
  | .fault _ => none
  | .refused _ => none
/-- RES after an answer. -/
def res (a : Answer) : Option DWord :=
  match a with
  | .next t => some t.res
  | .fault _ => none
  | .refused _ => none
/-- CURSOR after an answer. -/
def cursor (a : Answer) : Option Nat :=
  match a with
  | .next t => some t.cursor
  | .fault _ => none
  | .refused _ => none

/-- Buffer B of 42_sampler.md R173. -/
def bufferB : State := filled word2 1 [0x000007FF#32, 0]
/-- The buffer of the R121 example. -/
def bytes8 : State := filled word2 2 [0x07060504#32, 0x03020100#32]

/-! ## What the checks of WellFormed refuse -/

theorem test_config_too_small : (⟨4, .extWord, 0, .sha512⟩ : Config).wellFormed = false := by decide
theorem test_config_not_words : (⟨10, .extWord, 0, .sha512⟩ : Config).wellFormed = false := by decide
theorem test_config_too_large : (⟨2 ^ 31 + 4, .extWord, 0, .sha512⟩ : Config).wellFormed = false := by decide
theorem test_config_bounds :
    (⟨8, .well512, 0, .sha512⟩ : Config).wellFormed = true ∧ (⟨2 ^ 31, .extByte, 0, .sha512⟩ : Config).wellFormed = true := by
  decide
theorem test_command_rsvd : (⟨0x01#8, 1#24⟩ : CmdWord).wellFormed = false := by decide
theorem test_command_reserved_opcode :
    (⟨0x00#8, 0⟩ : CmdWord).wellFormed = false ∧ (⟨0x0A#8, 0⟩ : CmdWord).wellFormed = false ∧
      (⟨0x1F#8, 0⟩ : CmdWord).wellFormed = false ∧ (⟨0x2E#8, 0⟩ : CmdWord).wellFormed = false ∧
      (⟨0x3B#8, 0⟩ : CmdWord).wellFormed = false ∧ (⟨0xFF#8, 0⟩ : CmdWord).wellFormed = false := by decide
/-- A step of what is no instance is refused (00_scope.md R8). -/
theorem test_no_instance : step (State.resetOf ⟨4, .extWord, 0, .sha512⟩) = .refused .notAnInstance := by rfl

/-! ## Command words written out from 30_encoding.md R82 -/

theorem test_decode_engine :
    decode 0x00000001#32 = .ok .int32 ∧ decode 0x00000002#32 = .ok .uint32 ∧ decode 0x00000003#32 = .ok .int64 ∧
      decode 0x00000004#32 = .ok .uint64 ∧ decode 0x00000005#32 = .ok .bool ∧ decode 0x00000006#32 = .ok .byte ∧
      decode 0x00000007#32 = .ok .uint16 ∧ decode 0x00000008#32 = .ok .bytes ∧ decode 0x00000009#32 = .ok .refill := by
  decide
theorem test_decode_well512 :
    decode 0x00000010#32 = .ok .w512Seed64 ∧ decode 0x00000011#32 = .ok .w512Load ∧
      decode 0x00000012#32 = .ok .w512Next := by decide
theorem test_decode_sampler :
    decode 0x00000020#32 = .ok .smpl32 ∧ decode 0x00000021#32 = .ok .smpl64 ∧ decode 0x00000022#32 = .ok .rndcntU32 ∧
      decode 0x00000023#32 = .ok .rndcntS32 ∧ decode 0x00000024#32 = .ok .rndcntU64 ∧
      decode 0x00000025#32 = .ok .rndcntS64 ∧ decode 0x00000026#32 = .ok .rndrngU32 ∧
      decode 0x00000027#32 = .ok .rndrngS32 ∧ decode 0x00000028#32 = .ok .rndrngU64 ∧
      decode 0x00000029#32 = .ok .rndrngS64 ∧ decode 0x0000002A#32 = .ok .rndscU32 ∧
      decode 0x0000002B#32 = .ok .rndscS32 ∧ decode 0x0000002C#32 = .ok .rndscU64 ∧
      decode 0x0000002D#32 = .ok .rndscS64 := by decide
theorem test_decode_distributions :
    decode 0x00000030#32 = .ok .udbl ∧ decode 0x00000031#32 = .ok .uflt ∧ decode 0x00000032#32 = .ok .udblRange ∧
      decode 0x00000033#32 = .ok .udblSlen ∧ decode 0x00000034#32 = .ok .gauss ∧ decode 0x00000035#32 = .ok .gaussMs ∧
      decode 0x00000036#32 = .ok .expo ∧ decode 0x00000037#32 = .ok .expoMean ∧ decode 0x00000038#32 = .ok .expoRate ∧
      decode 0x00000039#32 = .ok .binom ∧ decode 0x0000003A#32 = .ok .poisson := by decide
/-- 95 section 2: the refusals by name. -/
theorem test_decode_refuses :
    decode 0x00000000#32 = .error .reservedOpcode ∧ decode 0x00000102#32 = .error .reservedBits ∧
      decode 0x0000000A#32 = .error .reservedOpcode ∧ decode 0x00000013#32 = .error .reservedOpcode ∧
      decode 0x0000002E#32 = .error .reservedOpcode ∧ decode 0x0000003B#32 = .error .reservedOpcode ∧
      decode 0x000000FF#32 = .error .reservedOpcode := by decide
theorem test_decodeTableWord :
    decodeTableWord 32 0x3A = some .poisson ∧ decodeTableWord 8 0x02 = some .uint32 ∧ decodeTableWord 32 0x102 = none := by
  decide
/-- The next step after withFetchWord runs the command, after reset and while a command is suspended. -/
theorem test_withFetchWord :
    status (step (State.reset.withFetchWord 32 0x3A)) = some 0x301#32 ∧
      status (step ((waiting word2 .bool 1).withFetchWord 32 0x3A)) = some 0x301#32 := by decide +kernel

/-! ## The word engine (95 section 3.1) -/

/-- W3. -/
theorem test_int32 : res (cmd 0x01#32 (filled word2 1 [0xFFFFFFFE#32, 0])) = some 0xFFFFFFFFFFFFFFFE#64 := by decide +kernel
/-- 95 section 2, result placement. -/
theorem test_uint32 : res (cmd 0x02#32 (filled word2 1 [0xFFFFFFFE#32, 0])) = some 0x00000000FFFFFFFE#64 := by decide +kernel
/-- W5. -/
theorem test_int64 :
    res (cmd 0x03#32 (filled word2 2 [0x80000000#32, 1])) = some 0x8000000000000001#64 ∧
      cursor (cmd 0x03#32 (filled word2 2 [0x80000000#32, 1])) = some 0 := by decide +kernel
/-- E4, the word order of a 64-bit draw. -/
theorem test_uint64 : res (cmd 0x04#32 bytes8) = some 0x0706050403020100#64 := by decide +kernel
/-- W4: one leftover word is discarded and the command suspends. -/
theorem test_uint64_suspends :
    holds (cmd 0x04#32 (filled word2 1 [0x11111111#32, 0]))
      (fun t => t.cont == .suspended .uint64 && t.cursor == 1 && t.regRead 0x04 == 2) = true := by decide +kernel
/-- W6, the first BOOL. -/
theorem test_bool :
    holds (cmd 0x05#32 (filled word2 1 [5, 0])) (fun t => t.res == 1 && t.bitCache == 0x80000002#32 && t.cursor == 0) =
      true := by decide +kernel
/-- W8, the first BOOL: a cached bit draws no word. -/
theorem test_bool_cached :
    holds (cmd 0x05#32 { filled word2 0 [0, 0] with bitCache := 0x80000000#32 })
      (fun t => t.res == 0 && t.bitCache == 0x40000000#32 && t.done) = true := by decide +kernel
/-- E5, the first BYTE. -/
theorem test_byte : holds (cmd 0x06#32 bytes8) (fun t => t.res == 0 && t.byteCache == 0x01030201#32) = true := by
  decide +kernel
/-- E5, the fifth BYTE: the sentinel alone counts as empty. -/
theorem test_byte_empty :
    holds (cmd 0x06#32 { filled word2 1 [0x07060504#32, 0] with byteCache := 1 })
      (fun t => t.res == 4 && t.byteCache == 0x01070605#32) = true := by decide +kernel
/-- W9, the first UINT16. -/
theorem test_uint16 : holds (cmd 0x07#32 bytes8) (fun t => t.res == 0x0100 && t.shortCache == 0x00010302#32) = true := by
  decide +kernel
/-- W9, the second UINT16. -/
theorem test_uint16_cached :
    holds (cmd 0x07#32 { bytes8 with shortCache := 0x00010302#32 })
      (fun t => t.res == 0x0302 && t.shortCache == 1 && t.cursor == 2) = true := by decide +kernel
/-- W11. -/
theorem test_bytes :
    holds (cmd 0x08#32 (args bytes8 0x100 3))
      (fun t => t.hm == [(0x100, 1#8), (0x101, 2#8), (0x102, 3#8)] && t.cursor == 1 && t.done) = true := by decide +kernel
/-- W12, up to its suspension. -/
theorem test_bytes_suspends :
    holds (cmd 0x08#32 (args (filled word2 1 [0x07060504#32, 0]) 0x200 6))
      (fun t => t.hm == [(0x200, 4#8), (0x201, 5#8), (0x202, 6#8), (0x203, 7#8)] && t.cursor == 0 &&
        t.cont == .suspended (.bytes 0x204 2)) = true := by decide +kernel
/-- W17, with the internal unit: the refill of Program A. -/
theorem test_refill :
    holds (cmd 0x09#32 (counting (filled well4 1 [0, 0, 0, 0])))
      (fun t => t.buffer == [0xA07C007A#32, 0x91DC0D3A#32, 0x2CD8253E#32, 0xFC90243E#32] && t.cursor == 4 &&
        t.refills == 1 && t.windex == 12) = true := by decide +kernel
/-- W12, its resumption: the last unit of the fill ends BYTES. -/
theorem test_bytes_resumes :
    holds (write 0x28 0x0F0E0D0C#32 { waiting word2 (.bytes 0x204 2) 1 with buffer := [0x0B0A0908#32, 0] })
      (fun t => t.hm == [(0x204, 0x0E#8), (0x205, 0x0F#8)] && t.cursor == 1 && t.refills == 1 && t.regRead 0x04 == 1) =
      true := by decide +kernel
/-- R104: EXT_BYTE stores bits 7:0 at the byte index. -/
theorem test_fill_byte :
    holds (write 0x28 0xFFFFFF41#32 (waiting byte2 .uint32 5))
      (fun t => t.buffer == [0, 0x00004100#32] && t.fillCount == 6 && t.refilling) = true := by decide +kernel
/-- W19: no effect with no refill pending. -/
theorem test_fill_ignored :
    holds (write 0x28 0x1234#32 bytes8) (fun t => t == { bytes8 with bus := [] }) = true := by decide +kernel

/-! ## The Well512 unit (95 section 3.2) -/

/-- Call 1 of the step vectors, and the two words it writes (41_well512.md R157). -/
theorem test_w512_next :
    holds (cmd 0x12#32 (counting (filled word2 0 [0, 0])))
      (fun t => t.res == 0xA07C007A#64 && t.windex == 15 && t.wstate.get 0 == 0x00060005#32 &&
        t.wstate.get 15 == 0xA07C007A#32 && t.wstate.get 1 == 2) = true := by decide +kernel
/-- W512_NEXT unseeded. -/
theorem test_w512_next_unseeded : status (cmd 0x12#32 (filled word2 0 [0, 0])) = some 0x501#32 := by decide +kernel
/-- The eight outputs of R157. -/
theorem test_w512_outputs :
    (w512Generate 8 (counting State.reset).well).1 =
      [0xA07C007A#32, 0x91DC0D3A#32, 0x2CD8253E#32, 0xFC90243E#32, 0xE094043A#32, 0xD08C0422#32, 0xC0E80526#32,
        0xBC84242E#32] := by decide +kernel
/-- Seed 0 under WELL512 flushes (R160); wstate[0..3] as in the seeded table. -/
theorem test_w512_seed64 :
    holds (cmd 0x10#32 { filled well4 3 [0, 0, 0, 0] with bitCache := 0x80000001#32, gaussSpare := 0 })
      (fun t => t.wstate.get 0 == 0xCC09741B#32 && t.wstate.get 1 == 0x4DA3D5F0#32 && t.wstate.get 15 == 0x1B2FC452#32 &&
        t.cursor == 0 && t.bitCache == 0 && t.regRead 0x04 == 5) = true := by decide +kernel
/-- Seed 42: the seed's bytes are little-endian. -/
theorem test_seed_42 :
    (seedWords .sha512 42).get 0 = 0xD980C124#32 ∧ (seedWords .sha512 42).get 15 = 0x55EE631D#32 := by decide +kernel
/-- Under EXT_WORD loading flushes nothing (R160). -/
theorem test_w512_load :
    holds (cmd 0x11#32 { bytes8 with wstage := Vector.replicate 16 7, byteCache := 0x01030201#32 })
      (fun t => t.wstate.get 3 == 7 && t.cursor == 2 && t.byteCache == 0x01030201#32 && t.regRead 0x04 == 5) = true := by
  decide +kernel

/-! ## The rejection sampler (95 section 3.3) -/

/-- S1. -/
theorem test_smpl32 :
    holds (cmd 0x20#32 (args bufferB 4 0)) (fun t => t.res == 2 && t.byteCache == 0x00010000#32 && t.cursor == 0) =
      true := by decide +kernel
/-- S4, the special case. -/
theorem test_smpl32_all :
    holds (cmd 0x20#32 (args bufferB 0xFFFFFFFF 0)) (fun t => t.res == 0x7FF && t.byteCache == 0) = true := by
  decide +kernel
/-- S5. -/
theorem test_smpl64 : res (cmd 0x21#32 (args (filled word2 2 [1, 3]) 0x100000000 0)) = some 2 := by decide +kernel
/-- S6. -/
theorem test_smpl64_word :
    res (cmd 0x21#32 (args (filled word2 1 [0xDEADBEEF#32, 0]) 0xFFFFFFFF 0)) = some 0xDEADBEEF#64 := by decide +kernel
/-- S7 and X7. -/
theorem test_rndcnt_u32_zero :
    holds (cmd 0x22#32 { bufferB with res := 0x1234 }) (fun t => t.regRead 0x04 == 0x101 && t.res == 0x1234) = true := by
  decide +kernel
theorem test_rndcnt_u32 : res (cmd 0x22#32 (args bufferB 5 0)) = some 2 := by decide +kernel
/-- S8. -/
theorem test_rndcnt_s32_negative : status (cmd 0x23#32 (args bufferB 0x00000000FFFFFFFF 0)) = some 0x101#32 := by
  decide +kernel
/-- S9. -/
theorem test_rndcnt_s32 : res (cmd 0x23#32 (args bufferB 0xFFFFFFFF00000005 0)) = some 2 := by decide +kernel
theorem test_rndcnt_u64 : res (cmd 0x24#32 (args bufferB 5 0)) = some 2 := by decide +kernel
/-- S10. -/
theorem test_rndcnt_s64_negative : status (cmd 0x25#32 (args bufferB 0x8000000000000000 0)) = some 0x101#32 := by
  decide +kernel
theorem test_rndcnt_s64 : res (cmd 0x25#32 (args bufferB 5 0)) = some 2 := by decide +kernel
/-- S11. -/
theorem test_rndrng_u32 : res (cmd 0x26#32 (args bufferB 10 14)) = some 12 := by decide +kernel
/-- S12. -/
theorem test_rndrng_u32_empty : status (cmd 0x26#32 (args bufferB 5 4)) = some 0x101#32 := by decide +kernel
/-- S15. -/
theorem test_rndrng_s32 :
    res (cmd 0x27#32 (args (filled word2 1 [0, 0]) 0x00000000FFFFFFFB 5)) = some 0xFFFFFFFFFFFFFFFB#64 := by decide +kernel
/-- S16. -/
theorem test_rndrng_s32_all :
    res (cmd 0x27#32 (args (filled word2 1 [3, 0]) 0x80000000 0x7FFFFFFF)) = some 0xFFFFFFFF80000003#64 := by
  decide +kernel
/-- S17. -/
theorem test_rndrng_u64 : res (cmd 0x28#32 (args bufferB 0x100000000 0x100000004)) = some 0x100000002#64 := by
  decide +kernel
/-- S18. -/
theorem test_rndrng_s64_empty : status (cmd 0x29#32 (args bufferB 5 4)) = some 0x101#32 := by decide +kernel
/-- R182: the full range is one raw draw x, less 2^63. -/
theorem test_rndrng_s64_all :
    res (cmd 0x29#32 (args (filled word2 2 [0, 3]) 0x8000000000000000 0x7FFFFFFFFFFFFFFF)) =
      some 0x8000000000000003#64 := by decide +kernel
/-- S20. -/
theorem test_rndsc_u32 : res (cmd 0x2A#32 (args (filled word2 1 [0, 0]) 0xFFFFFFFE 1)) = some 0xFFFFFFFE#64 := by
  decide +kernel
/-- S21. -/
theorem test_rndsc_u32_overflow : status (cmd 0x2A#32 (args bufferB 0xFFFFFFFF 1)) = some 0x101#32 := by decide +kernel
/-- S23. -/
theorem test_rndsc_s32 : res (cmd 0x2B#32 (args bufferB 0xFFFFFFFD 5)) = some 0xFFFFFFFFFFFFFFFF#64 := by decide +kernel
/-- S24. -/
theorem test_rndsc_s32_overflow : status (cmd 0x2B#32 (args bufferB 0x7FFFFFFF 1)) = some 0x101#32 := by decide +kernel
/-- S25. -/
theorem test_rndsc_u64_overflow : status (cmd 0x2C#32 (args bufferB 0xFFFFFFFFFFFFFFFE 2)) = some 0x101#32 := by
  decide +kernel
theorem test_rndsc_u64 : res (cmd 0x2C#32 (args bufferB 10 5)) = some 12 := by decide +kernel
/-- S26. -/
theorem test_rndsc_s64 :
    res (cmd 0x2D#32 (args (filled word2 1 [0x12, 0]) 0xFFFFFFFFFFFFFFFF 1)) = some 0xFFFFFFFFFFFFFFFF#64 := by
  decide +kernel

/-! ## The distributions (95 section 3.4) -/

/-- F1. -/
theorem test_udbl : res (cmd 0x30#32 (filled word2 2 [0x00100000#32, 0])) = some 0x3FE0000000000000#64 := by
  decide +kernel
/-- F3: bits 63:53 are discarded. -/
theorem test_udbl_mask : res (cmd 0x30#32 (filled word2 2 [0xFFE00000#32, 1])) = some 0x3CA0000000000000#64 := by
  decide +kernel
/-- F4. -/
theorem test_uflt : res (cmd 0x31#32 (filled word2 1 [0xFF800000#32, 0])) = some 0x3F000000#64 := by decide +kernel
/-- F5. -/
theorem test_uflt_greatest : res (cmd 0x31#32 (filled word2 1 [0x00FFFFFF#32, 0])) = some 0x3F7FFFFF#64 := by
  decide +kernel
/-- F6: r = 2.0 is redrawn. -/
theorem test_udbl_range :
    res (cmd 0x32#32 (args (filled ⟨16, .extWord, 0, .sha512⟩ 4 [0x00100000#32, 0, 0xFFFFFFFF#32, 0xFFFFFFFF#32])
      0x3FF0000000000000 0x4000000000000000)) = some 0x3FF8000000000000#64 := by decide +kernel
/-- F9: the length overflows. -/
theorem test_udbl_range_overflow :
    status (cmd 0x32#32 (args bytes8 0xFFE1CCF385EBC8A0 0x7FE1CCF385EBC8A0)) = some 0x101#32 := by decide +kernel
/-- F11. -/
theorem test_udbl_slen :
    res (cmd 0x33#32 (args (filled word2 2 [0xFFFFFFFF#32, 0xFFFFFFFF#32]) 0x3FF0000000000000 0x3FF0000000000000)) =
      some 0x4000000000000000#64 := by decide +kernel
/-- F13: −0.0 + 0.0 × u is +0.0. -/
theorem test_udbl_slen_zero : res (cmd 0x33#32 (args bytes8 0x8000000000000000 0)) = some 0 := by decide +kernel
/-- G2: the spare is returned and absent. -/
theorem test_gauss_spare :
    holds (cmd 0x34#32 { filled word2 0 [0, 0] with gaussSpare := 0x3FF2D6ABE44AFC43#64 })
      (fun t => t.res == 0x3FF2D6ABE44AFC43#64 && t.regRead 0x04 == 1) = true := by decide +kernel
/-- G3, with stand-ins for Ln, Sin and Cos: the radius of u = 0.5, and +0 as the pending spare. -/
theorem test_gauss_pair :
    boxMuller (fun _ => 0xBFE62E42FEFA39EF#64) (fun _ => 0) (fun _ => 0x3FF0000000000000#64) 0x3FE0000000000000#64 0 =
      (0x3FF2D6ABE44AFC43#64, 0) := by decide +kernel
/-- G8. -/
theorem test_gauss_ms :
    res (cmd 0x35#32 { args (filled word2 0 [0, 0]) 0x4024000000000000 0x4000000000000000 with
      gaussSpare := 0x3FF2D6ABE44AFC43#64 }) = some 0x4028B5AAF912BF11#64 := by decide +kernel
/-- G9. -/
theorem test_gauss_ms_nan :
    res (cmd 0x35#32 { args (filled word2 0 [0, 0]) 0xFFF0000000000001 0x4000000000000000 with gaussSpare := 0 }) =
      some 0x7FF8000000000000#64 := by decide +kernel
/-- G10, but for the value of the open Ln: one uniform double is consumed. -/
theorem test_expo : cursor (cmd 0x36#32 bytes8) = some 0 ∧ status (cmd 0x36#32 bytes8) = some 1 := by decide +kernel
/-- G17 and G18, from the deviate on. -/
theorem test_expo_mean :
    (ExpoPost.mean 0x4008000000000000#64).apply 0x3FF62E42FEFA39EF#64 = 0x4010A2B23F3BAB73#64 ∧
      canonical ((ExpoPost.mean 0).apply 0x7FF0000000000000#64) = 0x7FF8000000000000#64 := by decide +kernel
theorem test_expo_mean_runs : status (cmd 0x37#32 bytes8) = some 1 := by decide +kernel
/-- G19 and G20, from the deviate on. -/
theorem test_expo_rate :
    (ExpoPost.rate 0x4000000000000000#64).apply 0x3FE62E42FEFA39EF#64 = 0x3FD62E42FEFA39EF#64 ∧
      (ExpoPost.rate 0x8000000000000000#64).apply 0x3FE62E42FEFA39EF#64 = 0xFFF0000000000000#64 := by decide +kernel
theorem test_expo_rate_runs : status (cmd 0x38#32 bytes8) = some 1 := by decide +kernel
/-- F14, its first two draws: u = 0.25, then 0.5, with p = 0.5. -/
theorem test_binom :
    res (cmd 0x39#32 (args (filled ⟨16, .extWord, 0, .sha512⟩ 4 [0x00100000#32, 0, 0x00080000#32, 0]) 2
      0x3FE0000000000000)) = some 1 := by decide +kernel
/-- F19. -/
theorem test_binom_nan : status (cmd 0x39#32 (args bytes8 1 0x7FF8000000000000)) = some 0x101#32 := by decide +kernel
/-- X6. -/
theorem test_poisson : status (cmd 0x3A#32 bytes8) = some 0x301#32 ∧ cursor (cmd 0x3A#32 bytes8) = some 2 := by
  decide +kernel
/-- UDBL_RANGE's example in 43_distributions.md R205: 2 − 2^−53 rounds to 2.0, ties to even. -/
theorem test_fadd_tie : fadd 0x3FEFFFFFFFFFFFFF#64 0x3FF0000000000000#64 = 0x4000000000000000#64 := by decide +kernel

/-! ## Errors, the port and reset (95 sections 3.5 and 3.6) -/

/-- X1. -/
theorem test_unseeded : status (cmd 0x02#32 (filled well4 0 [0, 0, 0, 0])) = some 0x501#32 := by decide +kernel
/-- X4 and X8: reentry, whatever the word. -/
theorem test_reentry :
    holds (cmd 0xFF#32 (waiting word2 .uint32 1))
      (fun t => t.regRead 0x04 == 0x201 && t.cursor == 0 && t.fillCount == 0 && t.refills == 0) = true := by decide +kernel
/-- X3. -/
theorem test_illegal : status (cmd 0 bytes8) = some 0x401#32 ∧ cursor (cmd 0 bytes8) = some 2 := by decide +kernel
/-- 95 section 3.6, N = 4 and EXT_BYTE. -/
theorem test_reset_reads :
    let s := State.resetOf ⟨16, .extByte, 0, .sha512⟩
    s.regRead 0x04 = 0 ∧ s.regRead 0x20 = 0 ∧ s.regRead 0x24 = 4 ∧ s.regRead 0x34 = 2 ∧ s.regRead 0x7C = 0 ∧
      s.regRead 0x38 = 0 ∧ s.regRead 0x80 = 0 := by decide +kernel
/-- R42, R47: operand halves and a staging word. -/
theorem test_operand_writes :
    holds (write 0x0C 0x89ABCDEF#32 (args bytes8 0x1111111122222222 0))
        (fun t => t.arg0 == 0x89ABCDEF22222222#64) = true ∧
      holds (write 0x7C 9 bytes8) (fun t => t.wstage.get 15 == 9 && t.regRead 0x7C == 9) = true := by decide +kernel
/-- R48: a byte access and a misaligned one. -/
theorem test_bad_accesses :
    step { bytes8 with bus := [.write .byte 0 1] } = .refused .accessNotWord ∧
      step { bytes8 with bus := [.read .word 6] } = .refused .accessMisaligned := ⟨by rfl, by rfl⟩
/-- A register read returns its value and nothing else changes. -/
theorem test_read :
    holds (step { bytes8 with bus := [.read .word 0x20] }) (fun t => t == { bytes8 with rdata := 2 }) = true := by
  decide +kernel
/-- R271. -/
theorem test_reset_suspended :
    holds (step { waiting word2 .uint32 1 with bus := [.reset] }) (fun t => t == State.resetOf word2) = true := by
  decide +kernel

/-! ## Witnesses: states and operands that meet the hypotheses of the obligations -/

/-- A reset state with a full buffer meets the invariants. -/
theorem inv_filled (c : Config) (h : c.wellFormed = true) (n : Nat) (b : List Word) (hb : b.length = c.words)
    (hn : n ≤ c.words) : (filled c n b).Inv where
  cfgWf := h
  bufLen := hb
  cursorLe := hn
  refillKind hr := by cases hr
  refillCont := ⟨fun hr => (by cases hr), fun hc => absurd rfl hc⟩
  fillIdle _ := rfl
  fillBound hr := by cases hr
  byteLegal := .inl rfl
  shortLegal := .inl rfl
  spareCanon _ := rfl
  errDone he := absurd rfl he
  refillNotDone hr := by cases hr
  hmWf := rfl
  hmBound c hc := by cases hc
  frameOk k hk := by cases hk

/-- A suspended state meets the invariants. -/
theorem inv_waiting (c : Config) (h : c.wellFormed = true) (hp : c.provider ≠ .well512) (k : Frame) (hk : k.ok) (n : Nat)
    (hn : n < fillUnits c) : (waiting c k n).Inv where
  cfgWf := h
  bufLen := by simp [waiting, State.resetOf]
  cursorLe := Nat.zero_le _
  refillKind _ := hp
  refillCont := ⟨fun _ hc => (by cases hc), fun _ => rfl⟩
  fillIdle hr := by cases hr
  fillBound _ := hn
  byteLegal := .inl rfl
  shortLegal := .inl rfl
  spareCanon _ := rfl
  errDone he := absurd rfl he
  refillNotDone _ := rfl
  hmWf := rfl
  hmBound c hc := by cases hc
  frameOk j hj := by cases hj; exact hk

/-- ReservedWordsAreIllegal: the ends of every range of R87, and the words beside them. -/
theorem witness_reserved :
    (reservedWord 0x00#32 ∧ reservedWord 0x0A#32 ∧ reservedWord 0x0F#32 ∧ reservedWord 0x13#32 ∧ reservedWord 0x1F#32 ∧
        reservedWord 0x2E#32 ∧ reservedWord 0x2F#32 ∧ reservedWord 0x3B#32 ∧ reservedWord 0xFF#32 ∧
        reservedWord 0x102#32 ∧ reservedWord 0xFFFFFF01#32) ∧
      ¬reservedWord 0x01#32 ∧ ¬reservedWord 0x09#32 ∧ ¬reservedWord 0x10#32 ∧ ¬reservedWord 0x12#32 ∧
      ¬reservedWord 0x20#32 ∧ ¬reservedWord 0x2D#32 ∧ ¬reservedWord 0x30#32 ∧ ¬reservedWord 0x3A#32 := by
  refine ⟨⟨?_, ?_, ?_, ?_, ?_, ?_, ?_, ?_, ?_, ?_, ?_⟩, ?_, ?_, ?_, ?_, ?_, ?_, ?_, ?_⟩ <;> unfold reservedWord <;> decide
theorem witness_reserved_idle : bytes8.Idle := ⟨rfl, rfl, rfl⟩
theorem witness_reserved_suspended : (waiting word2 .bool 1).refilling = true := rfl

/-- StepRunsTheDecodedCommand: each of its three clauses. -/
theorem witness_step_clauses :
    word2.wellFormed = true ∧ (decode 0x02#32 = .ok .uint32 ∧ bytes8.refilling = false) ∧
      (∀ i, decode 0x0A#32 ≠ .ok i) ∧ (waiting word2 .uint32 1).refilling = true := by
  refine ⟨by decide, ⟨by decide, rfl⟩, fun i => ?_, rfl⟩
  rw [show decode 0x0A#32 = .error .reservedOpcode by decide]
  simp

/-- EachAccessIsOneStep: an aligned write and read, at the block's first and last register and beyond it. -/
theorem witness_access_offsets : word2.wellFormed = true ∧ (0x00 : Nat) % 4 = 0 ∧ 0x7C % 4 = 0 ∧ 0x80 % 4 = 0 := by decide

/-- AccessesOutsideTheRegisters: 0x7C is a register and 0x80 is not; the last byte of a register is misaligned. -/
theorem witness_unmapped :
    { bytes8 with wstage := Vector.replicate 16 7 }.regRead 0x7C = 7 ∧
      { bytes8 with wstage := Vector.replicate 16 7 }.regRead 0x80 = 0 ∧ ((0x07 : Nat) - (word2.base : Int)) % 4 ≠ 0 ∧
      AccessWidth.half ≠ .word := by decide +kernel

/-- FillPortStoresUnitsAndResumes: no refill pending; a unit that is not the last and one that is, for each kind. -/
theorem witness_fill_port :
    bytes8.refilling = false ∧ (waiting word2 .uint32 0).Inv ∧ (waiting word2 .uint32 1).Inv ∧
      (waiting byte2 .uint32 6).Inv ∧ (waiting byte2 .uint32 7).Inv ∧ (waiting word2 .uint32 0).fillCount + 1 ≠ 2 ∧
      (waiting word2 .uint32 1).fillCount + 1 = word2.words ∧ (waiting byte2 .uint32 6).fillCount + 1 ≠ 8 ∧
      (waiting byte2 .uint32 7).fillCount + 1 = 4 * byte2.words :=
  ⟨rfl, inv_waiting _ (by decide) (by decide) .uint32 trivial _ (by decide),
    inv_waiting _ (by decide) (by decide) .uint32 trivial _ (by decide),
    inv_waiting _ (by decide) (by decide) .uint32 trivial _ (by decide),
    inv_waiting _ (by decide) (by decide) .uint32 trivial _ (by decide), by decide, by decide, by decide, by decide⟩

/-- FillsArriveInOrder: each kind of external provider, at the least buffer. -/
theorem witness_fills :
    (waiting word2 .uint32 0).Inv ∧ word2.provider = .extWord ∧ [1#32, 2#32].length = word2.words ∧
      (waiting byte2 .uint32 0).Inv ∧ byte2.provider = .extByte ∧ (List.replicate 8 0x41#32).length = 4 * byte2.words ∧
      (waiting word2 .uint32 0).fillCount = 0 ∧ (waiting byte2 .uint32 0).cont = .suspended .uint32 ∧
      ({ waiting word2 .uint32 0 with bus := [.write .word 0x28 1, .write .word 0x28 2] } : State).bus =
        [1#32, 2#32].map (fun v => Event.write .word (word2.base + 0x28) v) ++ [] :=
  ⟨inv_waiting _ (by decide) (by decide) .uint32 trivial _ (by decide), rfl, rfl,
    inv_waiting _ (by decide) (by decide) .uint32 trivial _ (by decide), rfl, rfl, rfl, rfl, rfl⟩

/-- ProviderIsAnOracle: commands that refill not at all, once and more than once. -/
theorem witness_oracle :
    word2.wellFormed = true ∧ word2.provider ≠ .well512 ∧
      holds (exec .uint64 ((filled word2 2 [0, 0]).withUnit ⟨Vector.replicate 16 7, 0⟩)) (fun t => t.refills == 0) = true ∧
      holds (exec .uint64 ((filled word2 1 [0, 0]).withUnit ⟨Vector.replicate 16 7, 0⟩)) (fun t => t.refills == 1) = true ∧
      holds (exec .binom ((ops (filled word2 0 [0, 0]) 3 0x3FE0000000000000).withUnit ⟨Vector.replicate 16 7, 0⟩))
        (fun t => t.refills == 3) = true := by
  refine ⟨by decide, by decide, by decide +kernel, by decide +kernel, by decide +kernel⟩

/-- SuspendedCommandIsUntouched and ResetDiscardsASuspendedCommand. -/
theorem witness_suspended : (waiting word2 (.bytes 0x204 2) 1).refilling = true ∧ (0x08 : Nat) ≠ 0x00 ∧ (0x08 : Nat) ≠ 0x28 :=
  by decide

/-- ResetMeetsTheInvariants: the least and the greatest buffer. -/
theorem witness_instances :
    (⟨8, .extWord, 0, .sha512⟩ : Config).wellFormed = true ∧ (⟨2 ^ 31, .well512, 0, .sha512⟩ : Config).wellFormed = true :=
  test_config_bounds.imp_left fun _ => by decide

/-- StepKeepsTheInvariants, StepKeepsTheParameters, CommandsEndDoneOrSuspended: a state that meets them and steps. -/
theorem witness_step_next :
    ({ bytes8 with bus := [.write .word 0 2] } : State).Inv ∧
      holds (step { bytes8 with bus := [.write .word 0 2] }) (fun t => t.done) = true ∧
      holds (step { bytes8 with bus := [.write .word 0 2, .read .word 4] }) (fun t => t.bus == [.read .word 4]) = true := by
  refine ⟨?_, by decide +kernel, by decide +kernel⟩
  have h := inv_filled word2 (by decide) 2 [0x07060504#32, 0x03020100#32] rfl (by decide)
  exact ⟨h.cfgWf, h.bufLen, h.cursorLe, h.refillKind, h.refillCont, h.fillIdle, h.fillBound, h.byteLegal, h.shortLegal,
    h.spareCanon, h.errDone, h.refillNotDone, h.hmWf, h.hmBound, h.frameOk⟩

/-- CommandsEndDoneOrSuspended, its second case: a read by an answered machine; and under WELL512. -/
theorem witness_answered :
    (waiting word2 .uint32 1).answered ∧ Event.read .word 4 ≠ .reset ∧ well4.provider = .well512 ∧
      (filled well4 3 [1, 2, 3, 4]).Inv :=
  ⟨.inr rfl, by decide, rfl, inv_filled _ (by decide) _ _ rfl (by decide)⟩

/-- ExternalProviderStepsAlwaysAnswer. -/
theorem witness_external :
    (waiting byte2 (.sample ⟨.w8, 255, 5⟩ (-3) .s32) 7).Inv ∧ byte2.provider ≠ .well512 ∧
      (((0x28 : Nat) : Int) - byte2.base) % 4 = 0 :=
  ⟨inv_waiting _ (by decide) (by decide) (.sample ⟨.w8, 255, 5⟩ (-3) .s32) (by unfold Frame.ok; decide) _ (by decide),
    by decide, by decide⟩

/-- LoopFreeCommandsAlwaysAnswer: a BYTES that needs a refill of the internal unit. -/
theorem witness_loop_free :
    (ops (filled well2 1 [0, 0]) 0 9).cfg.wellFormed = true ∧ samplerArgs .bytes (ops (filled well2 1 [0, 0]) 0 9) = none ∧
      Instr.bytes ≠ .udblRange := ⟨by decide, rfl, by decide⟩

/-- WhatACommandMayChange: a command of each kind that answers a next state, with a result and without, and the
addresses next to BYTES's range. -/
theorem witness_commands_answer :
    holds (exec .uint32 bytes8) (fun t => t.res == 0x03020100 && t.err == .none) = true ∧
      holds (exec .bytes (ops bytes8 0x100 3)) (fun t => t.hm.length == 3) = true ∧
      holds (exec .byte bytes8) (fun t => t.byteCache != bytes8.byteCache) = true ∧
      holds (exec .refill (filled word2 1 [0, 0])) (fun t => t.refilling) = true ∧
      0xFF < opU32 (ops bytes8 0x100 3).op0 ∧
      opU32 (ops bytes8 0x100 3).op0 + opU32 (ops bytes8 0x100 3).op1 ≤ 0x103 := by decide +kernel

/-- WhatAResumptionMayChange: a result, the rest of a BYTES with the addresses next to its range, and of a REFILL. -/
theorem witness_resumes :
    holds (resume .uint32 bytes8) (fun t => t.done) = true ∧
      holds (resume .uint32 bytes8) (fun t => t.res != bytes8.res) = true ∧
      holds (resume (.bytes 0x204 2) bytes8) (fun t => t.hm.length == 2 && t.res == bytes8.res) = true ∧
      0x203 < 0x204 ∧ 0x204 + 2 ≤ 0x206 ∧
      holds (resume .refill bytes8) (fun t => t.done && t.res == bytes8.res) = true := by decide +kernel

/-- ArgumentErrorsChangeOnlyStatus: the boundary of every kind of check (W15, W16, S7, S8, S12, S20, S21, S24, F7, F12,
F17, F18). -/
theorem witness_arg_errors :
    argError .bytes (ops bytes8 0xFFFFFFFF 2) ∧ ¬argError .bytes (ops bytes8 0xFFFFFFFE 2) ∧
      argError .rndcntU32 (ops bytes8 0 0) ∧ argError .rndcntS32 (ops bytes8 0x00000000FFFFFFFF 0) ∧
      argError .rndrngU32 (ops bytes8 5 4) ∧ ¬argError .rndrngU32 (ops bytes8 7 7) ∧
      argError .rndscU32 (ops bytes8 0xFFFFFFFF 1) ∧ ¬argError .rndscU32 (ops bytes8 0xFFFFFFFE 1) ∧
      argError .rndscS32 (ops bytes8 0x7FFFFFFF 1) ∧
      argError .udblRange (ops bytes8 0x3FF0000000000000 0x3FF0000000000000) ∧
      argError .udblSlen (ops bytes8 0x3FF0000000000000 0xBFF0000000000000) ∧
      argError .binom (ops bytes8 0xFFFFFFFF 0x3FE0000000000000) ∧
      argError .binom (ops bytes8 1 0x3FF8000000000000) := by
  simp only [argError]
  decide +kernel

/-- ErrorsPerCommand: each of its three cases. -/
theorem witness_errors :
    holds (exec .rndcntU32 (ops bytes8 0 0)) (fun t => t.err == .argRange) = true ∧
      holds (exec .uint32 (filled well4 0 [])) (fun t => t.err == .unseeded) = true ∧
      holds (exec .w512Next bytes8) (fun t => t.err == .unseeded) = true ∧
      holds (exec .poisson bytes8) (fun t => t.err == .unsupported) = true ∧ bytes8.err = .none := by decide +kernel

/-- The least width of the sampler for a maximum, with its proof. -/
theorem leastWidth_of {mx : Nat} {w : DrawWidth} (h : mx + 1 ≤ 2 ^ w.bits)
    (k : ∀ v ∈ [DrawWidth.w8, .w16, .w32, .w64], mx + 1 ≤ 2 ^ v.bits → w.bits ≤ v.bits) : leastWidth mx w :=
  ⟨h, fun v hv => k v (by cases v <;> simp) hv⟩

/-- ADrawRefillsFirst: one command of each shape whose draw needs a refill, at the boundary of its cursor. -/
theorem witness_first_draw_refills :
    firstDrawRefills .uint32 (filled word2 0 [0, 0]) ∧ firstDrawRefills .uint64 (filled word2 1 [0, 0]) ∧
      firstDrawRefills .bool { filled word2 0 [0, 0] with bitCache := 1 } ∧
      firstDrawRefills .gauss (filled word2 1 [0, 0]) ∧
      firstDrawRefills .udblSlen (ops (filled word2 1 [0, 0]) 0 0x3FF0000000000000) ∧
      firstDrawRefills .binom (ops (filled word2 1 [0, 0]) 1 0x3FE0000000000000) ∧
      firstDrawRefills .smpl32 (ops (filled word2 0 [0, 0]) 4 0) := by
  refine ⟨?_, ?_, ?_, ?_, ?_, ?_, ?_⟩
  · simp only [firstDrawRefills]; decide
  · simp only [firstDrawRefills]; decide
  · simp only [firstDrawRefills]; decide
  · simp only [firstDrawRefills]; decide +kernel
  · simp only [firstDrawRefills, argError]; decide +kernel
  · simp only [firstDrawRefills, argError]; decide +kernel
  · refine ⟨fun h => h, .w8, leastWidth_of (by decide) (by decide), ?_⟩
    simp only [DrawWidth.ready]; decide
/-- ADrawRefillsFirst: its three providers, the WELL512 unit seeded and not. -/
theorem witness_first_draw_providers :
    word2.wellFormed = true ∧ word2.provider ≠ .well512 ∧ well2.wellFormed = true ∧ well2.provider = .well512 ∧
      (counting (filled well2 0 [0, 0])).seeded = true ∧ (filled well2 0 [0, 0]).seeded = false := by decide

/-- The word draws: the least cursors, and the caches at and just below one field. -/
theorem witness_draws :
    1 ≤ (filled word2 1 [5, 0]).cursor ∧ 2 ≤ bytes8.cursor ∧ 2 ≤ (2#32).toNat ∧ (1#32).toNat < 2 ∧
      0x100 ≤ (0x100#32).toNat ∧ (0xFF#32).toNat < 0x100 ∧ 0x10000 ≤ (0x10000#32).toNat ∧
      (0xFFFF#32).toNat < 0x10000 := by decide

/-- DrawOrderIsTheReverseOfTheFill. -/
theorem witness_full_buffer : bytes8.cursor = bytes8.cfg.words ∧ 1 < bytes8.cfg.words := by decide

/-- BytesWithinTheBuffer: W13 (exactly what is left), W14 (none) and W16 (the range ends at 2^32). -/
theorem witness_bytes_within :
    (0x300 + 8 ≤ 2 ^ 32 ∧ 8 ≤ 4 * bytes8.cursor ∧ opU32 (ops bytes8 0x300 8).op1 = 8) ∧ 0 ≤ 4 * bytes8.cursor ∧
      opU32 (ops bytes8 0xFFFFFFFE 2).op0 + opU32 (ops bytes8 0xFFFFFFFE 2).op1 ≤ 2 ^ 32 := by decide

/-- BytesSuspendsAtARefill and BytesAcrossInternalRefills: one byte more than the buffer holds. -/
theorem witness_bytes_refill :
    word2.provider ≠ .well512 ∧ well2.provider = .well512 ∧ well2.wellFormed = true ∧ 4 * bytes8.cursor < 9 ∧
      opU32 (ops bytes8 0x300 9).op0 + opU32 (ops bytes8 0x300 9).op1 ≤ 2 ^ 32 ∧
      (counting (filled well2 2 [0, 0])).seeded = true ∧ (filled well2 2 [0, 0]).seeded = false := by decide

/-- RefillReplacesTheBuffer, SeedingSlicesTheDigest, LoadTakesTheStagingWords, NextReadsTheUnit: each provider and each
value of seeded. -/
theorem witness_well512_commands :
    well2.provider = .well512 ∧ word2.provider ≠ .well512 ∧ byte2.provider ≠ .well512 ∧ (counting bytes8).seeded = true ∧
      bytes8.seeded = false := by decide
theorem witness_seed_bytes (j : Fin 8) : (seedBytes bytes8.op0).get j = bytes8.op0.extractLsb' (8 * j.val) 8 := by
  revert j; decide +kernel

/-- Well512StepFormula and GenerateGivesSuccessiveOutputs: the function a unit's words give, and the units in turn. -/
theorem witness_well512_words :
    let w := (counting bytes8).well
    (∀ k, (fun k => w.words.toList.getD (k % 16) 0) k = w.words.toList.getD (k % 16) 0) ∧ w.index = 0 ∧
      (fun n => (w512Generate n w).2) 0 = w := ⟨fun _ => rfl, rfl, rfl⟩
/-- ZeroStateStaysZero. -/
theorem witness_zero_state : ∀ k, (Vector.replicate 16 (0 : Word)).get k = 0 := by decide

/-- SeededSequencesAreDetermined: two states of one stream that differ in a consumed word. -/
theorem witness_same_stream :
    (filled well2 1 [5, 0]).SameStream (filled well2 1 [5, 9]) ∧ well2.provider = .well512 ∧ well2.wellFormed = true := by
  refine ⟨⟨rfl, rfl, fun k hk => ?_, rfl, rfl, rfl, rfl, rfl, rfl, rfl⟩, rfl, by decide⟩
  have : k = 0 := by simp only [filled] at hk; omega
  subst this; rfl

/-- SamplePlanIsTheSpecs: both domains at their greatest maximum, and the boundaries of the widths. -/
theorem witness_sample_plan :
    2 ^ 32 - 1 < 2 ^ 32 ∧ 2 ^ 64 - 1 < 2 ^ 64 ∧ leastWidth 255 .w8 ∧ leastWidth 256 .w16 ∧ leastWidth 65535 .w16 ∧
      leastWidth 65536 .w32 ∧ leastWidth (2 ^ 32 - 1) .w32 ∧ leastWidth (2 ^ 32) .w64 :=
  ⟨by decide, by decide, leastWidth_of (by decide) (by decide), leastWidth_of (by decide) (by decide),
    leastWidth_of (by decide) (by decide), leastWidth_of (by decide) (by decide), leastWidth_of (by decide) (by decide),
    leastWidth_of (by decide) (by decide)⟩

/-- SamplersCompleteOnAnAcceptedDraw: S14 (the greatest accepted byte), and a command of each other form. -/
theorem witness_samplers :
    let s := ops (filled word2 1 [0x000000FC#32, 0]) 0x00000000FFFFFFFB 5
    samplerArgs .rndrngS32 s = some (10, -5, .s32) ∧ ¬argError .rndrngS32 s ∧ leastWidth 10 .w8 ∧ DrawWidth.w8.ready s ∧
      (DrawWidth.w8.raw s).1 < usableDraws 10 .w8 ∧
      samplerArgs .smpl64 (ops bytes8 0x100000000 0) = some (0x100000000, 0, .u64) ∧ DrawWidth.w64.ready bytes8 ∧
      samplerArgs .rndcntU32 (ops bytes8 5 0) = some (4, 0, .u32) ∧ ¬argError .rndcntU32 (ops bytes8 5 0) ∧
      samplerArgs .rndscS64 (ops bytes8 0xFFFFFFFFFFFFFFFF 1) = some (0, -1, .s64) ∧
      ¬argError .rndscS64 (ops bytes8 0xFFFFFFFFFFFFFFFF 1) := by
  refine ⟨by decide, ?_, leastWidth_of (by decide) (by decide), ?_, by decide, by decide, ?_, by decide, ?_, by decide, ?_⟩ <;>
    simp only [argError, DrawWidth.ready] <;> decide

/-- SamplersRedrawUntilAccepted: S1, one rejected byte and then an accepted one. -/
theorem witness_redraw :
    let s := ops bufferB 4 0
    let t : State := { s with cursor := 0, byteCache := 0x01000007#32 }
    s.Inv ∧ samplerArgs .smpl32 s = some (4, 0, .u32) ∧ leastWidth 4 .w8 ∧ drawWidth .w8 s = .got 0xFF t ∧
      drawWidth .w8 t = .got 7 { t with byteCache := 0x00010000#32 } ∧ usableDraws 4 .w8 ≤ 0xFF ∧
      7 < usableDraws 4 .w8 := by
  refine ⟨?_, rfl, leastWidth_of (by decide) (by decide), by rfl, by rfl, by decide, by decide⟩
  have h := inv_filled word2 (by decide) 1 [0x000007FF#32, 0] rfl (by decide)
  exact ⟨h.cfgWf, h.bufLen, h.cursorLe, h.refillKind, h.refillCont, h.fillIdle, h.fillBound, h.byteLegal, h.shortLegal,
    h.spareCanon, h.errDone, h.refillNotDone, h.hmWf, h.hmBound, h.frameOk⟩

/-- ComparisonOrdersTheValues and ArithmeticRoundsToNearest: each class of operands at its boundaries (the least
subnormal, the greatest finite value, both zeros, both infinities, the NaN next to infinity). -/
theorem witness_floats :
    isFinite 0x3FF0000000000000#64 = true ∧ isFinite 0#64 = true ∧ isFinite 0x8000000000000000#64 = true ∧
      isFinite 1#64 = true ∧ isFinite 0x7FEFFFFFFFFFFFFF#64 = true ∧ isFinite 0xBFF0000000000000#64 = true ∧
      isInf 0x7FF0000000000000#64 = true ∧ isInf 0xFFF0000000000000#64 = true ∧
      isNaN 0x7FF0000000000001#64 = true := by decide +kernel

/-- ArithmeticRoundsToNearest: the values and signs its cases speak of. Sums and differences that are zero, infinities
of like and of opposite sign, zero and nonzero factors and divisors, radicands of either sign. -/
theorem witness_arithmetic :
    frat 0#64 = -frat 0x8000000000000000#64 ∧ frat 0x3FF0000000000000#64 = -frat 0xBFF0000000000000#64 ∧
      frat 0x8000000000000000#64 = frat 0#64 ∧ frat 0x8000000000000000#64 = 0 ∧ frat 1#64 ≠ 0 ∧
      0 ≤ frat 0x8000000000000000#64 ∧ frat 0xBFF0000000000000#64 < 0 ∧
      fsign 0x7FF0000000000000#64 = (fsign 0xFFF0000000000000#64 != true) ∧
      fsign 0x7FF0000000000000#64 ≠ (fsign 0xFFF0000000000000#64 != false) ∧
      isNaN (fmul 1#64 0x8000000000000001#64) = false ∧
      isNaN (fdiv 0x3FF0000000000000#64 0xFFF0000000000000#64) = false := by decide +kernel

/-- UniformDoubleIsExact, UniformFloatIsExact, ExponentialIsMinusLn: the least cursors. -/
theorem witness_uniform : 2 ≤ bytes8.cursor ∧ 1 ≤ (filled word2 1 [0, 0]).cursor := by decide

/-- RangedDoubleRedrawsUntilBelowTheEnd and RangedDoubleStaysBelowTheEnd: F6's two draws. -/
theorem witness_ranged_double :
    let s := ops (filled ⟨16, .extWord, 0, .sha512⟩ 4 [0x00100000#32, 0, 0xFFFFFFFF#32, 0xFFFFFFFF#32])
      0x3FF0000000000000 0x4000000000000000
    ¬argError .udblRange s ∧ s.uniformAt 2 = 0x3FEFFFFFFFFFFFFF#64 ∧ s.uniformAt 0 = 0x3FE0000000000000#64 ∧
      flt (fadd (fmul (fsub s.op1 s.op0) (s.uniformAt 2)) s.op0) s.op1 = false ∧
      flt (fadd (fmul (fsub s.op1 s.op0) (s.uniformAt 0)) s.op0) s.op1 = true := by
  simp only [argError]
  decide +kernel

/-- StartLengthDoubleIsOneDraw: length −0.0 passes. -/
theorem witness_slen : ¬argError .udblSlen (ops bytes8 0x3FF0000000000000 0x8000000000000000) ∧ 2 ≤ bytes8.cursor := by
  simp only [argError]
  decide +kernel

/-- PendingSpareIsReturned (+0 is a pending spare) and FreshPairLeavesASpare. -/
theorem witness_spares :
    isNaN 0 = false ∧ isNaN (State.resetOf word2).gaussSpare = true ∧ 4 ≤ (filled well4 4 [0, 0, 0, 0]).cursor := by
  decide +kernel

/-- BinomialCountsSuccesses: F14's operands with n = 2, and F15's n = 0. -/
theorem witness_binom :
    ¬argError .binom (ops bytes8 1 0x3FE0000000000000) ∧ opS32 (ops bytes8 1 0x3FE0000000000000).op0 = (1 : Nat) ∧
      2 * 1 ≤ bytes8.cursor ∧ ¬argError .binom (ops bytes8 0 0x3FE0000000000000) := by
  simp only [argError]
  decide +kernel

/-- NaNResultsAreCanonical: a GAUSS_MS whose result is a NaN (G9), at once and when it resumes. -/
theorem witness_nan :
    holds (exec .gaussMs (ops { bytes8 with gaussSpare := 0 } 0x7FF0000000000001 0)) (fun t => isNaN t.res && t.done) =
        true ∧
      holds (resume (.udblSlen 0x7FF0000000000001#64 0) bytes8) (fun t => isNaN t.res && t.done) = true ∧
      holds (exec .gauss { bytes8 with gaussSpare := 0 }) (fun t => isNaN t.gaussSpare) = true := by decide +kernel

end Sys2Proof.Tests
end

section
/-! What the register port reads and ignores (spec 10_state.md R36 to R48), said once per shape of offset, and the
statements about it. -/

namespace Sys2Proof.Machine

/-! ## The staging registers -/

theorem wstageIndex_eq_none_iff {off : Nat} :
    wstageIndex off = none ↔ ¬(0x40 ≤ off ∧ off % 4 = 0 ∧ off < 0x80) := by
  simp [wstageIndex]

@[simp] theorem wstageIndex_wstage (k : Fin 16) : wstageIndex (0x40 + 4 * k.val) = some k := by
  have inBlock : 0x40 ≤ 0x40 + 4 * k.val ∧ (0x40 + 4 * k.val) % 4 = 0 ∧ 0x40 + 4 * k.val < 0x80 := by omega
  rw [wstageIndex, dif_pos inBlock]
  simp

/-! ## Reads and writes at the offsets without a register of their own -/

/-- Beside the registers with an arm of their own a read returns a staging register or 0 (R40, R47, R48). -/
theorem regRead_of_not_mem (s : State) {off : Nat}
    (h : off ∉ [0x04, 0x08, 0x0C, 0x10, 0x14, 0x18, 0x1C, 0x20, 0x24, 0x2C, 0x30, 0x34]) :
    s.regRead off = (wstageIndex off).elim 0 s.wstage.get := by
  unfold State.regRead
  split
  case h_13 => cases wstageIndex off <;> rfl
  all_goals exact absurd (by decide) h

/-- Beside the writable registers with an arm of their own a write replaces a staging register or has no effect (R40,
R47, R48). -/
theorem regWrite_of_not_mem (s : State) (v : Word) {off : Nat} (h : off ∉ [0x00, 0x08, 0x0C, 0x10, 0x14, 0x28]) :
    regWrite off v s =
      (wstageIndex off).elim (.next s) fun i => .next { s with wstage := s.wstage.set i.val v } := by
  unfold regWrite
  split
  case h_7 => cases wstageIndex off <;> rfl
  all_goals exact absurd (by decide) h

/-- R48: a write-only register, a reserved offset and an unmapped offset read 0. -/
theorem regRead_eq_zero (s : State) {off : Nat}
    (h : off = 0x00 ∨ off = 0x28 ∨ off = 0x38 ∨ off = 0x3C ∨ 0x80 ≤ off) : s.regRead off = 0 := by
  have noStaging : wstageIndex off = none := wstageIndex_eq_none_iff.mpr (by omega)
  rw [regRead_of_not_mem s (by simp; omega), noStaging, Option.elim_none]

/-- R48: a write to a read-only register, a reserved offset or an unmapped offset has no effect. -/
theorem regWrite_ignored (s : State) (v : Word) {off : Nat}
    (h : off = 0x04 ∨ off = 0x18 ∨ off = 0x1C ∨ off = 0x20 ∨ off = 0x24 ∨ off = 0x2C ∨ off = 0x30 ∨ off = 0x34 ∨
      off = 0x38 ∨ off = 0x3C ∨ 0x80 ≤ off) : regWrite off v s = .next s := by
  have noStaging : wstageIndex off = none := wstageIndex_eq_none_iff.mpr (by omega)
  rw [regWrite_of_not_mem s v (by simp; omega), noStaging, Option.elim_none]

@[simp] theorem regRead_wstage (s : State) (k : Fin 16) : s.regRead (0x40 + 4 * k.val) = s.wstage.get k := by
  rw [regRead_of_not_mem s (by simp; omega), wstageIndex_wstage, Option.elim_some]

/-! ## Accesses outside the interface -/

/-- R48: an access that is not 32 bits wide at a word-aligned offset is refused, whatever it would do. -/
theorem guardAccess_refuses (s : State) (act : Answer) {w : AccessWidth} {a : Nat}
    (h : w ≠ .word ∨ ((a : Int) - s.cfg.base) % 4 ≠ 0) : ∃ r, guardAccess w a s act = .refused r := by
  cases w with
  | byte => exact ⟨_, rfl⟩
  | half => exact ⟨_, rfl⟩
  | word =>
    have misaligned : wordAligned s.cfg a = false := by simpa [wordAligned] using h
    exact ⟨.accessMisaligned, by simp [guardAccess, misaligned]⟩

/-- An event that is refused when performed has no step, whatever the parameters. -/
theorem step_refuses {s : State} {e : Event} {rest : List Event}
    (h : ∃ r, perform e { s with bus := rest } = .refused r) : ∃ r, step { s with bus := e :: rest } = .refused r := by
  unfold step
  split
  · exact h
  · exact ⟨_, rfl⟩

/-- Settles O6: by the staging index for reads and writes, and by the access guard for what has no step. -/
theorem accessesOutsideTheRegisters : Obligations.AccessesOutsideTheRegisters := by
  intro s off v
  refine ⟨regRead_eq_zero s, regWrite_ignored s v, fun w a rest h => ?_⟩
  have refuses (act : Answer) := guardAccess_refuses { s with bus := rest } act h
  exact ⟨step_refuses (refuses _), step_refuses (refuses _)⟩

/-! ## STATUS -/

theorem bitOf_lt_two (b : Bool) : bitOf b < 2 := by cases b <;> decide

theorem decide_bitOf_eq_one (b : Bool) : decide (bitOf b = 1) = b := by cases b <;> rfl

/-- R36: codes 6 to 15 are reserved and never produced. -/
theorem code_lt_six (e : ErrCode) : e.code < 6 := by cases e <;> decide

/-- The flags below ERR as a number: bits 3:0 of STATUS (R35). -/
def State.flagBits (s : State) : Nat :=
  bitOf s.done + 2 * bitOf s.refilling + 4 * bitOf s.seeded + 8 * bitOf s.sparePending

theorem flagBits_lt (s : State) : s.flagBits < 16 := by
  have done := bitOf_lt_two s.done
  have refilling := bitOf_lt_two s.refilling
  have seeded := bitOf_lt_two s.seeded
  have spare := bitOf_lt_two s.sparePending
  unfold State.flagBits
  omega

/-- STATUS loses nothing to the width of the word. -/
theorem status_toNat (s : State) : s.status.toNat = s.flagBits + 256 * s.err.code := by
  have flags := flagBits_lt s
  have code := code_lt_six s.err
  have fits : s.flagBits + 256 * s.err.code < 2 ^ 32 := by omega
  exact Nat.mod_eq_of_lt fits

theorem status_getLsbD (s : State) (k : Nat) :
    s.status.getLsbD k = decide ((s.flagBits + 256 * s.err.code) / 2 ^ k % 2 = 1) := by
  rw [← BitVec.testBit_toNat, status_toNat, Nat.testBit_eq_decide_div_mod_eq]

/-- Bit `k` of STATUS is the flag whose number stands at that bit. -/
theorem status_getLsbD_eq_flag (s : State) {k : Nat} {b : Bool}
    (h : (s.flagBits + 256 * s.err.code) / 2 ^ k % 2 = bitOf b) : s.status.getLsbD k = b := by
  rw [status_getLsbD, h, decide_bitOf_eq_one]

/-- R35: bits 7:4 and 31:12 of STATUS are 0. -/
theorem status_getLsbD_unused (s : State) {k : Nat} (h : 4 ≤ k ∧ k < 8 ∨ 12 ≤ k) : s.status.getLsbD k = false := by
  have flags := flagBits_lt s
  have code := code_lt_six s.err
  rw [status_getLsbD, decide_eq_false_iff_not]
  rcases h with ⟨least, most⟩ | above
  · interval_cases k <;> omega
  · have small : s.flagBits + 256 * s.err.code < 2 ^ k :=
      lt_of_lt_of_le (by omega) (Nat.pow_le_pow_right (by decide) above)
    rw [Nat.div_eq_of_lt small]
    decide

/-- R36: bits 11:8 of STATUS are the code of ERR. -/
theorem status_err (s : State) : (s.status.extractLsb' 8 4).toNat = s.err.code := by
  have flags := flagBits_lt s
  have code := code_lt_six s.err
  rw [BitVec.extractLsb'_toNat, status_toNat, Nat.shiftRight_eq_div_pow]
  omega

/-- Settles O7: each flag is a binary digit of STATUS's value, and ERR is the digit group above bit 8. -/
theorem statusReadsTheFlags : Obligations.StatusReadsTheFlags := by
  intro s
  have done := bitOf_lt_two s.done
  have refilling := bitOf_lt_two s.refilling
  have seeded := bitOf_lt_two s.seeded
  have spare := bitOf_lt_two s.sparePending
  refine ⟨rfl, status_getLsbD_eq_flag s ?_, status_getLsbD_eq_flag s ?_, status_getLsbD_eq_flag s ?_,
    status_getLsbD_eq_flag s (b := s.sparePending) ?_, fun k => status_getLsbD_unused s,
    (status_err s).trans (by cases s.err <;> rfl)⟩
  all_goals
    unfold State.flagBits
    omega

/-! ## The other registers -/

/-- Settles O8: the fixed registers by their arm of the port, the staging registers by their index. -/
theorem registersReadTheState : Obligations.RegistersReadTheState := by
  intro s
  refine ⟨rfl, rfl, rfl, rfl, rfl, rfl, ?provider, rfl, rfl, rfl, rfl, regRead_wstage s, fun off v h => ?readOnly⟩
  case provider =>
    show BitVec.ofNat 32 (providerCode s.cfg.provider) = _
    cases s.cfg.provider <;> rfl
  case readOnly => exact regWrite_ignored s v (by omega)

end Sys2Proof.Machine
end

section
/-! What a reset leaves (spec 10_state.md R52; 70_reset_and_hazards.md R270). -/

namespace Sys2Proof.Machine

theorem resetOf_atReset (c : Config) : (State.resetOf c).AtReset c where
  cfg := rfl
  cursor := rfl
  refilling := rfl
  fillCount := rfl
  bitCache := rfl
  byteCache := rfl
  shortCache := rfl
  gaussSpare := rfl
  windex := rfl
  seeded := rfl
  wstage k := by simp [State.resetOf, Vector.get_eq_getElem]
  cont := rfl
  arg0 := rfl
  arg1 := rfl
  res := rfl
  done := rfl
  err := rfl
  refills := rfl

theorem resetOf_buffer_length (c : Config) : (State.resetOf c).buffer.length = c.words :=
  List.length_replicate

/-- Host memory and the pending accesses are no elements that a reset sets. -/
theorem State.AtReset.withHost {s : State} {c : Config} (h : s.AtReset c) (m : List Host.Cell) (es : List Event) :
    State.AtReset c { s with hm := m, bus := es } := by
  cases h
  constructor <;> assumption

/-- Settles O14: a reset is the reset state of the same parameters with host memory and the bus put back. -/
theorem resetSetsEveryElement : Obligations.ResetSetsEveryElement := by
  refine ⟨fun s => ⟨s.doReset, rfl, ?_, ?_, rfl⟩, fun c => ⟨resetOf_atReset c, resetOf_buffer_length c⟩⟩
  · exact (resetOf_atReset s.cfg).withHost s.hm s.bus
  · exact resetOf_buffer_length s.cfg

end Sys2Proof.Machine
end

section
/-! Which words are commands (spec 30_encoding.md R80 to R82, R87), and what a write to CMD comes to when it runs no
command (30_encoding.md R81; 60_exceptions.md R242, R245). -/

namespace Sys2Proof

/-! ## The opcode map against the reserved ranges -/

theorem exists_lookupOpcode_iff (op : BitVec 8) (table : List (BitVec 8 × Instr)) :
    (∃ i, lookupOpcode op table = some i) ↔ op ∈ table.map Prod.fst := by
  induction table with
  | nil => simp [lookupOpcode]
  | cons row rows ih =>
    obtain ⟨o, i⟩ := row
    by_cases here : o = op
    · simp [lookupOpcode, here]
    · simp only [lookupOpcode, if_neg here, ih, List.map_cons, List.mem_cons, Ne.symm here, false_or]

/-- The rows of R82 leave no gap in the ranges that R87 does not reserve, and none of them lies outside. -/
theorem mem_opcodeTable_iff (c : CmdWord) : c.op ∈ opcodeTable.map Prod.fst ↔ c.opDefined = true := by
  simp only [opcodeTable, engineOpcodes, well512Opcodes, samplerOpcodes, distributionOpcodes, List.map_append,
    List.map_cons, List.map_nil, List.mem_append, List.mem_cons, List.not_mem_nil, or_false, ← BitVec.toNat_inj,
    BitVec.toNat_ofNat, CmdWord.opDefined, Bool.or_eq_true, decide_eq_true_eq]
  omega

/-- R81: a command word decodes to the command in the row of its opcode, when RSVD is zero. -/
theorem CmdWord.decode_eq_ok_iff (c : CmdWord) (i : Instr) :
    c.decode = .ok i ↔ c.rsvd = 0 ∧ lookupOpcode c.op opcodeTable = some i := by
  unfold CmdWord.decode
  split
  case isTrue nonzero => simpa using fun zero => absurd zero nonzero
  case isFalse zero => cases lookupOpcode c.op opcodeTable <;> simp [not_not.mp zero]

/-- R81, R87: the words that decode are the well-formed ones, zero in RSVD and defined in OP. -/
theorem decode_ok_iff_wellFormed (w : Word) : (∃ i, decode w = .ok i) ↔ (CmdWord.ofWord w).wellFormed = true := by
  rw [CmdWord.wellFormed, Bool.and_eq_true, decide_eq_true_eq, ← mem_opcodeTable_iff, ← exists_lookupOpcode_iff,
    ← exists_and_left]
  exact exists_congr (CmdWord.decode_eq_ok_iff _)

end Sys2Proof

namespace Sys2Proof.Machine

theorem ofWord_op_toNat (w : Word) : (CmdWord.ofWord w).op.toNat = w.toNat % 256 := by
  simp [CmdWord.ofWord]

/-- R87 lists the reserved ranges, R80 and R82 the others: no word is in both and none in neither. -/
theorem wellFormed_iff_not_reservedWord (w : Word) : (CmdWord.ofWord w).wellFormed = true ↔ ¬reservedWord w := by
  simp only [CmdWord.wellFormed, CmdWord.opDefined, ofWord_op_toNat, reservedWord, Bool.and_eq_true, Bool.or_eq_true,
    decide_eq_true_eq, not_or, not_not]
  exact and_congr Iff.rfl (by omega)

/-- R81, R87: the words that decode to a command are exactly the words that are not reserved. -/
theorem decode_ok_iff_not_reservedWord (w : Word) : (∃ i, decode w = .ok i) ↔ ¬reservedWord w :=
  (decode_ok_iff_wellFormed w).trans (wellFormed_iff_not_reservedWord w)

/-! ## CMD writes that run no command -/

/-- R245: while a command is suspended a CMD write is reentry, whatever its word. -/
theorem writeCmd_of_refilling (v : Word) {s : State} (h : s.refilling = true) :
    writeCmd v s = .next (s.abort true .reentered) := by
  simp [writeCmd, h]

/-- R242: with no command suspended a word that is no command raises ILLEGAL. -/
theorem writeCmd_of_not_command {v : Word} {s : State} (idle : s.refilling = false) (h : ∀ i, decode v ≠ .ok i) :
    writeCmd v s = .next (s.clearStatus.abort false .illegal) := by
  cases decoded : decode v with
  | error e => simp [writeCmd, idle, decoded, raise]
  | ok i => exact absurd decoded (h i)

/-- An abort has nothing to discard where no command is suspended: it changes only STATUS. -/
theorem abort_clearStatus_of_idle {s : State} (h : s.Idle) (e : ErrCode) :
    s.clearStatus.abort false e = { s with done := true, err := e } := by
  simp [State.abort, State.clearStatus, h.refilling, h.fillCount, h.cont]

/-- Settles O3: the words that decode and the words R87 reserves are complementary, and a CMD write that runs no
command is an abort. -/
theorem reservedWordsAreIllegal : Obligations.ReservedWordsAreIllegal := by
  refine ⟨decode_ok_iff_not_reservedWord, fun s v reserved => ⟨fun idle => ?illegal, fun suspended => ?reentry⟩⟩
  case illegal =>
    have notCommand : ∀ i, decode v ≠ .ok i := fun i decoded =>
      (decode_ok_iff_not_reservedWord v).mp ⟨i, decoded⟩ reserved
    calc regWrite 0x00 v s
      _ = .next (s.clearStatus.abort false .illegal) := writeCmd_of_not_command idle.refilling notCommand
      _ = .next { s with done := true, err := .illegal } := by rw [abort_clearStatus_of_idle idle]
  case reentry => exact writeCmd_of_refilling v suspended

end Sys2Proof.Machine
end

section
/-! The fill port (spec 40_word_engine.md R104; 20_memory.md R61): where a unit lands in the buffer and what its write
comes to, one lemma per case of the write. -/

namespace Sys2Proof.Machine

/-! ## The byte view -/

/-- Bits 7:0 are the bits of the mask 0xFF. -/
theorem byteMask_getLsbD (n : Nat) : (0xFF#32).getLsbD n = decide (n < 8) := by
  rw [← BitVec.testBit_toNat, BitVec.toNat_ofNat]
  exact Nat.testBit_two_pow_sub_one 8 n

/-- A bit of a word with byte `j` replaced: the new byte's from bit `8 * j` on, the word's elsewhere. -/
theorem setByteOf_getLsbD (w : Word) (j : Nat) (v : Byte) {m : Nat} (inWord : m < 32) :
    (setByteOf w j v).getLsbD m =
      if 8 * j ≤ m ∧ m < 8 * j + 8 then v.getLsbD (m - 8 * j) else w.getLsbD m := by
  simp only [setByteOf, BitVec.getLsbD_or, BitVec.getLsbD_and, BitVec.getLsbD_not, BitVec.getLsbD_shiftLeft,
    BitVec.getLsbD_setWidth, byteMask_getLsbD, inWord]
  by_cases below : m < 8 * j
  · simp [below, Nat.not_le.mpr below]
  · have from8j : 8 * j ≤ m := by omega
    have offset : m - 8 * j < 8 ↔ m < 8 * j + 8 := by omega
    have offsetInWord : m - 8 * j < 32 := by omega
    by_cases inByte : m < 8 * j + 8
    · simp [below, from8j, offset, inByte, offsetInWord]
    · have noBit : v.getLsbD (m - 8 * j) = false := BitVec.getLsbD_of_ge v _ (by omega)
      simp [offset, inByte, noBit]

/-- Replacing one byte of a word is seen through that byte only. -/
theorem byteOf_setByteOf (w : Word) (v : Byte) {i : Nat} (inWord : i < 4) (j : Nat) :
    byteOf (setByteOf w j v) i = if i = j then v else byteOf w i := by
  refine BitVec.eq_of_getLsbD_eq fun n hn => ?_
  rw [byteOf, BitVec.getLsbD_extractLsb', setByteOf_getLsbD w j v (by omega)]
  by_cases same : i = j
  · simp [same, hn]
  · have otherByte : ¬(8 * j ≤ 8 * i + n ∧ 8 * i + n < 8 * j + 8) := by omega
    rw [if_neg otherByte, if_neg same, byteOf, BitVec.getLsbD_extractLsb']

/-- R61: a byte written through the view replaces that byte of the view and no other. -/
theorem byteOf_setBufByte (b : List Word) (v : Byte) {k : Nat} (inBuffer : k < 4 * b.length) (n : Nat) :
    byteOf ((setBufByte b k v).getD (n / 4) 0) (n % 4) =
      if n = k then v else byteOf (b.getD (n / 4) 0) (n % 4) := by
  have inList : k / 4 < b.length := by omega
  by_cases sameWord : n / 4 = k / 4
  · have written : (setBufByte b k v).getD (n / 4) 0 = setByteOf (b.getD (n / 4) 0) (k % 4) v := by
      simp [setBufByte, sameWord, inList]
    have sameByte : n % 4 = k % 4 ↔ n = k := by omega
    rw [written, byteOf_setByteOf _ v (Nat.mod_lt _ (by decide))]
    simp only [sameByte]
  · have kept : (setBufByte b k v).getD (n / 4) 0 = b.getD (n / 4) 0 := by
      simp [setBufByte, Ne.symm sameWord]
    have otherByte : n ≠ k := fun same => sameWord (by rw [same])
    rw [kept, if_neg otherByte]

/-! ## Where a fill unit lands -/

@[simp] theorem bufferWithUnit_length (s : State) (v : Word) : (s.bufferWithUnit v).length = s.buffer.length := by
  unfold State.bufferWithUnit
  split
  · rfl
  · exact List.length_set
  · exact List.length_set

/-- R104 under EXT_WORD: the unit is the word at index fill_count. -/
theorem bufferWithUnit_getD_of_extWord {s : State} (v : Word) (kind : s.cfg.provider = .extWord)
    (inBuffer : s.fillCount < s.buffer.length) (k : Nat) :
    (s.bufferWithUnit v).getD k 0 = if k = s.fillCount then v else s.buffer.getD k 0 := by
  simp only [State.bufferWithUnit, kind]
  by_cases here : k = s.fillCount
  · simp [here, inBuffer]
  · simp [here, Ne.symm here]

/-- R104 under EXT_BYTE: the unit is byte fill_count of the view, from bits 7:0 of the write. -/
theorem bufferWithUnit_byte_of_extByte {s : State} (v : Word) (kind : s.cfg.provider = .extByte)
    (inBuffer : s.fillCount < 4 * s.buffer.length) (k : Nat) :
    byteOf ((s.bufferWithUnit v).getD (k / 4) 0) (k % 4) =
      if k = s.fillCount then v.extractLsb' 0 8 else byteOf (s.buffer.getD (k / 4) 0) (k % 4) := by
  simp only [State.bufferWithUnit, kind]
  exact byteOf_setBufByte s.buffer (v.extractLsb' 0 8) inBuffer k

/-! ## What the write comes to -/

theorem writeFill_of_idle (v : Word) {s : State} (idle : s.refilling = false) : writeFill v s = .next s := by
  simp [writeFill, idle]

theorem writeFill_of_more (v : Word) {s : State} (suspended : s.refilling = true)
    (more : s.fillCount + 1 ≠ fillUnits s.cfg) : writeFill v s = .next (s.takeUnit v) := by
  simp [writeFill, suspended, more]

theorem writeFill_of_last (v : Word) {s : State} {k : Frame} (suspended : s.refilling = true)
    (last : s.fillCount + 1 = fillUnits s.cfg) (waiting : s.cont = .suspended k) :
    writeFill v s = resume k (s.takeUnit v).refillDone := by
  simp [writeFill, suspended, last, resumeCont, waiting]

/-- U under an external provider: N words, or 4N bytes (R26). -/
theorem fillUnits_of_external {c : Config} (external : c.provider ≠ .well512) :
    fillUnits c = if c.provider = .extWord then c.words else 4 * c.words := by
  unfold fillUnits
  split
  case h_1 kind => exact absurd kind external
  case h_2 kind => simp [kind]
  case h_3 kind => simp [kind]

/-- Settles O10: a pending fill has an external provider and room for the unit, so the buffer after the write is
`bufferWithUnit`, and the two outcomes are the two cases of the unit count. -/
theorem fillPortStoresUnitsAndResumes : Obligations.FillPortStoresUnitsAndResumes := by
  refine fun s v => ⟨writeFill_of_idle v, fun inv suspended => ?_⟩
  have units := fillUnits_of_external (inv.refillKind suspended)
  have room : s.fillCount < fillUnits s.cfg := inv.fillBound suspended
  refine ⟨s.bufferWithUnit v, bufferWithUnit_length s v, fun kind => ?word, fun kind => ?byte, fun u hu => ?write⟩
  case word =>
    refine bufferWithUnit_getD_of_extWord v kind ?_
    rwa [units, if_pos kind, ← inv.bufLen] at room
  case byte =>
    refine bufferWithUnit_byte_of_extByte v kind ?_
    rwa [units, if_neg (by simp [kind]), ← inv.bufLen] at room
  case write =>
    rw [← units] at hu
    subst hu
    exact ⟨writeFill_of_more v suspended, fun last _ => writeFill_of_last v suspended last⟩

end Sys2Proof.Machine
end

section
/-! What reaches a suspended command (spec 40_word_engine.md R105). -/

namespace Sys2Proof.Machine

/-- A write to any register but CMD and FILL_DATA changes at most ARG0, ARG1 and WSTAGE (R40, R42, R47). -/
theorem regWrite_changes_only_operands (s : State) (v : Word) {off : Nat} (notCmd : off ≠ 0x00)
    (notFill : off ≠ 0x28) :
    ∃ t, regWrite off v s = .next t ∧ t = { s with arg0 := t.arg0, arg1 := t.arg1, wstage := t.wstage } := by
  by_cases operand : off = 0x08 ∨ off = 0x0C ∨ off = 0x10 ∨ off = 0x14
  · rcases operand with rfl | rfl | rfl | rfl <;> exact ⟨_, rfl, rfl⟩
  · rw [regWrite_of_not_mem s v (by simp; omega)]
    cases wstageIndex off with
    | none => exact ⟨s, rfl, rfl⟩
    | some i => exact ⟨_, rfl, rfl⟩

/-- No register shows a word of the buffer (R40). -/
theorem regRead_with_buffer (s : State) (b : List Word) (off : Nat) :
    ({ s with buffer := b } : State).regRead off = s.regRead off := rfl

/-- Settles O13: only the arms of CMD and FILL_DATA leave the operand and staging registers, and the arm of CMD is
reentry while a command is suspended. -/
theorem suspendedCommandIsUntouched : Obligations.SuspendedCommandIsUntouched := by
  intro s suspended
  exact ⟨fun off v => regWrite_changes_only_operands s v, fun off b => regRead_with_buffer s b off,
    fun v => ⟨s.abort true .reentered, writeCmd_of_refilling v suspended, rfl, rfl⟩⟩

end Sys2Proof.Machine
end

section
/-! A CMD write at the head of the bus (spec 30_encoding.md R81; 40_word_engine.md R100; 60_exceptions.md R245). -/

namespace Sys2Proof.Machine

/-- A word write at a word-aligned offset from BASE is a RegWrite at that offset (R48, R68). -/
theorem perform_word_write (s : State) (v : Word) {off : Nat} (aligned : off % 4 = 0) :
    perform (.write .word (s.cfg.base + off) v) s = regWrite off v s := by
  have wordAddress : wordAligned s.cfg (s.cfg.base + off) = true := by simpa [wordAligned] using by omega
  simp [perform, guardAccess, wordAddress, writeAt, offsetOf]

/-- The step of an instance with a pending access performs the oldest one (R70). -/
theorem step_of_bus_cons {s : State} {e : Event} {rest : List Event} (wf : s.cfg.wellFormed = true)
    (pending : s.bus = e :: rest) : step s = perform e { s with bus := rest } := by
  simp [step, wf, pending]

/-- R81, R100: with no command suspended a command word runs its command, STATUS cleared and the operands latched. -/
theorem writeCmd_of_command {v : Word} {i : Instr} {s : State} (idle : s.refilling = false) (h : decode v = .ok i) :
    writeCmd v s = exec i (s.clearStatus.latch (CmdWord.ofWord v).op) := by
  simp [writeCmd, idle, h]

/-- Settles O4: the step is the CMD write on the state with the access taken off the bus, and a CMD write has the three
cases of the statement. -/
theorem stepRunsTheDecodedCommand : Obligations.StepRunsTheDecodedCommand := by
  intro s v rest wf pending
  have stepIsWrite : step s = writeCmd v { s with bus := rest } :=
    (step_of_bus_cons wf pending).trans (perform_word_write { s with bus := rest } v (Nat.zero_mod 4))
  rw [stepIsWrite]
  exact ⟨fun idle _ => writeCmd_of_command (s := { s with bus := rest }) idle,
    writeCmd_of_not_command (s := { s with bus := rest }), writeCmd_of_refilling v (s := { s with bus := rest })⟩

end Sys2Proof.Machine
end

section
/-! The Well512 unit (spec 41_well512.md R150 to R163): its step value by value, and what each of its three commands
comes to under each kind of provider. -/

namespace Sys2Proof.Machine

/-! ## The unit's step -/

/-- The entry of a vector of 16 words at an index given modulo 16. -/
theorem toList_getD_mod_eq_get (ws : Vector Word 16) (k : Fin 16) {n : Nat} (h : n % 16 = k.val) :
    ws.toList.getD (n % 16) 0 = ws.get k := by
  simp [h, Vector.get_eq_getElem]

/-- A word written to a vector is seen at its own index only. -/
theorem get_set_fin (ws : Vector Word 16) (i k : Fin 16) (v : Word) :
    (ws.set i.val v).get k = if k = i then v else ws.get k := by
  simp only [Vector.get_eq_getElem, Vector.getElem_set, Fin.ext_iff, eq_comm (a := k.val)]

/-- Settles O37: every word the step reads is the value of `st` at its offset from the old index (the one at the new
index because the write at the old one does not reach it), and each of the two writes is seen at its own index only. -/
theorem well512StepFormula : Obligations.Well512StepFormula := by
  intro w st words i b c2 d a2 r
  have read (k : Fin 16) {n : Nat} (same : n % 16 = k.val) : w.words.get k = st n := by
    rw [words, toList_getD_mod_eq_get w.words k same]
  have atOld : w.words.get w.index = st i := read _ (Nat.mod_eq_of_lt w.index.isLt)
  have at13 : w.words.get (w.index + 13) = st (i + 13) := read _ rfl
  have at9 : w.words.get (w.index + 9) = st (i + 9) := read _ rfl
  have newIsNotOld : w.index + 15 ≠ w.index := by simp
  have atNew (t : Word) : (w.words.set w.index.val t).get (w.index + 15) = a2 := by
    rw [get_set_fin, if_neg newIsNotOld, read _ rfl]
  have next : w512Next w = (r, ⟨(w.words.set i (b ^^^ c2)).set (w.index + 15).val r, w.index + 15⟩) := by
    simp only [w512Next, atOld, at13, at9, atNew]
    rfl
  rw [next]
  refine ⟨rfl, rfl, fun k => ?_⟩
  have kept : w.words.get k = st k.val := read k (Nat.mod_eq_of_lt k.isLt)
  calc ((w.words.set i (b ^^^ c2)).set (w.index + 15).val r).get k
    _ = if k = w.index + 15 then r else if k = w.index then b ^^^ c2 else w.words.get k := by
      rw [get_set_fin, get_set_fin]
    _ = if k.val = (i + 15) % 16 then r else if k.val = i then b ^^^ c2 else st k.val := by
      simp only [Fin.ext_iff, kept]
      rfl

/-! ## The commands -/

theorem exec_w512Seed64 (s : State) :
    exec .w512Seed64 s = finish none (s.seedWith (seedWords s.cfg.digest s.op0)).flushForSeed := by
  change execW512Seed64 s = _
  rw [execW512Seed64, opU64, BitVec.ofNat_toNat, BitVec.setWidth_eq]

theorem exec_w512Load (s : State) : exec .w512Load s = finish none (s.seedWith s.wstage).flushForSeed := rfl

/-- R160 under an external provider: new words for the unit, and nothing is emptied. -/
theorem finish_seedWith_of_external {s : State} (external : s.cfg.provider ≠ .well512) (ws : Vector Word 16) :
    finish none (s.seedWith ws).flushForSeed = .next
      { s with wstate := ws, windex := 0, seeded := true, err := .none, done := true, cont := .idle } := by
  rw [flushForSeed_external (s.seedWith ws) external]
  rfl

/-- R160 under the internal provider: what holds words of the old sequence is emptied as well. -/
theorem finish_seedWith_of_well512 {s : State} (internal : s.cfg.provider = .well512) (ws : Vector Word 16) :
    finish none (s.seedWith ws).flushForSeed = .next
      { s with
        wstate := ws, windex := 0, seeded := true, cursor := 0, bitCache := 0, byteCache := 0, shortCache := 0,
        gaussSpare := canonicalNaN, err := .none, done := true, cont := .idle } := by
  rw [flushForSeed_well512 (s.seedWith ws) internal]
  rfl

/-- R158: the seed's little-endian bytes are given by their values. -/
theorem eq_seedBytes {m : Vector Byte 8} {seed : DWord}
    (h : ∀ j : Fin 8, m.get j = seed.extractLsb' (8 * j.val) 8) : m = seedBytes seed := by
  refine Vector.ext fun j hj => ?_
  rw [seedBytes, Vector.getElem_ofFn]
  exact h ⟨j, hj⟩

/-- R158: word k of a seeded unit is word k of the digest of the seed's bytes. -/
theorem seedWords_get (k : DigestKind) (seed : DWord) (i : Fin 16) :
    (seedWords k seed).get i = digestWord (digest512 k (seedBytes seed)) i := by
  rw [seedWords, Vector.get_ofFn]

/-- Settles O40: the state words are `seedWords`, and the provider decides what else the flush empties. -/
theorem seedingSlicesTheDigest : Obligations.SeedingSlicesTheDigest := by
  intro s m bytes
  obtain rfl := eq_seedBytes bytes
  refine ⟨by decide, seedWords s.cfg.digest s.op0, ?words, fun external => ?_, fun internal => ?_⟩
  case words =>
    rintro k _ rfl
    exact seedWords_get s.cfg.digest s.op0 k
  · rw [exec_w512Seed64, finish_seedWith_of_external external]
  · rw [exec_w512Seed64, finish_seedWith_of_well512 internal, canonicalNaN]

/-- Settles O41: the state words are the staging words, and the provider decides what else the flush empties. -/
theorem loadTakesTheStagingWords : Obligations.LoadTakesTheStagingWords := by
  refine fun s => ⟨by decide, fun external => ?_, fun internal => ?_⟩
  · rw [exec_w512Load, finish_seedWith_of_external external]
  · rw [exec_w512Load, finish_seedWith_of_well512 internal, canonicalNaN]

theorem exec_w512Next_of_seeded {s : State} (seeded : s.seeded = true) :
    exec .w512Next s =
      finish (some (placeUnsigned (w512Next s.well).1.toNat)) (s.setWell (w512Next s.well).2) :=
  if_pos seeded

theorem exec_w512Next_of_unseeded {s : State} (unseeded : s.seeded = false) :
    exec .w512Next s = raise .unseeded s :=
  if_neg (by simp [unseeded])

/-- R86: a 32-bit result is placed in RES by zero extension. -/
theorem placeUnsigned_toNat (w : Word) : placeUnsigned w.toNat = w.zeroExtend 64 := BitVec.ofNat_toNat 64 w

/-- Settles O42: by whether the unit is seeded, where the command completes with the step's output, or aborts outside a
refill. -/
theorem nextReadsTheUnit : Obligations.NextReadsTheUnit := by
  rintro s _ rfl
  refine ⟨by decide, fun seeded => ?_, fun unseeded => ?_⟩
  · rw [exec_w512Next_of_seeded seeded, placeUnsigned_toNat]
    rfl
  · rw [exec_w512Next_of_unseeded unseeded]
    rfl

end Sys2Proof.Machine
end

section
/-! Unsupported POISSON, and NaN results (spec 43_distributions.md R208, R225): the bodies with a binary64 result place
it, and store the spare, through `canonical`; no other body but the seeding commands writes the spare. -/

namespace Sys2Proof.Machine

/-! ## POISSON -/

theorem exec_poisson (s : State) : exec .poisson s = raise .unsupported s := rfl

/-- Settles O59: the command is a raise outside a refill, which keeps the cursor. -/
theorem poissonIsUnsupported : Obligations.PoissonIsUnsupported := by
  refine fun s => ⟨by decide, ?_⟩
  rw [exec_poisson]
  rfl

/-! ## What a body with a binary64 result leaves -/

/-- A NaN in gaussSpare is the old spare `g` or canonical (R208). -/
def SpareCanonical (g : F64) (t : State) : Prop :=
  isNaN t.gaussSpare = true → t.gaussSpare ≠ g → t.gaussSpare = canonicalNaN

/-- R208 where a body with a binary64 result stops that began with the spare `g`: a NaN in the RES of a completed
command is canonical, and so is a NaN newly in gaussSpare. -/
structure NaNsCanonical (g : F64) (t : State) : Prop where
  res : t.err = .none → t.cont = .idle → isNaN t.res = true → t.res = canonicalNaN
  spare : SpareCanonical g t

theorem SpareCanonical.of_eq {g : F64} {t : State} (kept : t.gaussSpare = g) : SpareCanonical g t :=
  fun _ new => absurd kept new

theorem finish_placeF64_nans {g : F64} {s : State} (x : F64) (spare : SpareCanonical g s) :
    Answer.All (NaNsCanonical g) (finish (some (placeF64 x)) s) :=
  Answer.all_next ⟨fun _ _ => canonical_nan, spare⟩

theorem abort_nans {g : F64} {s : State} {e : ErrCode} (b : Bool) (isError : e ≠ .none) (kept : s.gaussSpare = g) :
    NaNsCanonical g (s.abort b e) :=
  ⟨fun noError => absurd noError isError, .of_eq kept⟩

theorem suspend_nans {g : F64} {s : State} (k : Frame) (kept : s.gaussSpare = g) : NaNsCanonical g (s.suspend k) :=
  ⟨fun _ idle => by simp at idle, .of_eq kept⟩

theorem raise_nans {e : ErrCode} (s : State) (isError : e ≠ .none) :
    Answer.All (NaNsCanonical s.gaussSpare) (raise e s) :=
  Answer.all_next (abort_nans false isError rfl)

/-- A draw keeps the spare, so only what follows it can write a NaN. -/
theorem thenDo_nans {α : Type} {s : State} {d : Draw α} {k : Frame} {f : α → State → Answer} (hd : d.Ok s)
    (hf : ∀ v t, Answer.All (NaNsCanonical t.gaussSpare) (f v t)) :
    Answer.All (NaNsCanonical s.gaussSpare) (d.thenDo k f) := by
  cases d with
  | got v t => exact hd.gaussSpare ▸ hf v t
  | wait t =>
    obtain ⟨u, hu, rfl, -⟩ := hd
    exact Answer.all_next (suspend_nans k hu.gaussSpare)
  | abort e t =>
    obtain ⟨ht, rfl, -⟩ := hd
    exact Answer.all_next (abort_nans true (by decide) ht.gaussSpare)
  | diverge => exact Answer.all_fault _

/-- A draw whose value, taken to a binary64 number, becomes the result. -/
theorem thenFinish_nans {α : Type} {s : State} {d : Draw α} {k : Frame} (f : α → F64) (hd : d.Ok s) :
    Answer.All (NaNsCanonical s.gaussSpare) (d.thenDo k fun v t => finish (some (placeF64 (f v))) t) :=
  thenDo_nans hd fun v _ => finish_placeF64_nans (f v) (.of_eq rfl)

/-! ## Each body with a binary64 result -/

theorem execUdbl_nans (s : State) : Answer.All (NaNsCanonical s.gaussSpare) (execUdbl s) :=
  thenFinish_nans _ (uniformDouble_ok s)

theorem udblRangeFrom_nans (start len stop : F64) (s : State) :
    Answer.All (NaNsCanonical s.gaussSpare) (udblRangeFrom start len stop s) :=
  thenFinish_nans _ (retry_ok uniformDouble_ok _ _ s)

theorem execUdblRange_nans (s : State) : Answer.All (NaNsCanonical s.gaussSpare) (execUdblRange s) := by
  simp only [execUdblRange]
  split
  · exact raise_nans s (by decide)
  · split
    · exact raise_nans s (by decide)
    · exact udblRangeFrom_nans _ _ _ s

theorem udblSlenFrom_nans (start len : F64) (s : State) :
    Answer.All (NaNsCanonical s.gaussSpare) (udblSlenFrom start len s) :=
  thenFinish_nans _ (uniformDouble_ok s)

theorem execUdblSlen_nans (s : State) : Answer.All (NaNsCanonical s.gaussSpare) (execUdblSlen s) := by
  simp only [execUdblSlen]
  split
  · exact raise_nans s (by decide)
  · exact udblSlenFrom_nans _ _ s

/-- R212: the second deviate of a pair becomes the spare through `canonical`. -/
theorem gaussPair_nans (g u v : F64) (post : GaussPost) (s : State) :
    Answer.All (NaNsCanonical g) (gaussPair u v post s) :=
  finish_placeF64_nans _ fun nan _ => canonical_nan nan

theorem gaussFromV_nans (u : F64) (post : GaussPost) (s : State) :
    Answer.All (NaNsCanonical s.gaussSpare) (gaussFromV u post s) :=
  thenDo_nans (uniformDouble_ok s) fun v t => gaussPair_nans _ u v post t

theorem gaussFromU_nans (post : GaussPost) (s : State) :
    Answer.All (NaNsCanonical s.gaussSpare) (gaussFromU post s) :=
  thenDo_nans (uniformDouble_ok s) fun u t => gaussFromV_nans u post t

/-- R210: a pending spare is used up, which leaves the canonical NaN in its place. -/
theorem gauss_nans (post : GaussPost) (s : State) : Answer.All (NaNsCanonical s.gaussSpare) (gauss post s) := by
  unfold gauss
  split
  · exact finish_placeF64_nans _ fun _ _ => rfl
  · exact gaussFromU_nans post s

theorem expoFrom_nans (post : ExpoPost) (s : State) : Answer.All (NaNsCanonical s.gaussSpare) (expoFrom post s) :=
  thenFinish_nans _ (uniformDouble_ok s)

theorem exec_binary64_nans {i : Instr} (s : State)
    (binary64 : i = .udbl ∨ i = .udblRange ∨ i = .udblSlen ∨ i = .gauss ∨ i = .gaussMs ∨ i = .expo ∨ i = .expoMean ∨
      i = .expoRate) : Answer.All (NaNsCanonical s.gaussSpare) (exec i s) := by
  obtain rfl | rfl | rfl | rfl | rfl | rfl | rfl | rfl := binary64
  · exact execUdbl_nans s
  · exact execUdblRange_nans s
  · exact execUdblSlen_nans s
  · exact gauss_nans _ s
  · exact gauss_nans _ s
  · exact expoFrom_nans _ s
  · exact expoFrom_nans _ s
  · exact expoFrom_nans _ s

theorem resume_binary64_nans {k : Frame} (s : State)
    (binary64 : k = .udbl ∨ (∃ a b c, k = .udblRange a b c) ∨ (∃ a b, k = .udblSlen a b) ∨ (∃ p, k = .gaussU p) ∨
      (∃ u p, k = .gaussV u p) ∨ ∃ p, k = .expo p) : Answer.All (NaNsCanonical s.gaussSpare) (resume k s) := by
  obtain rfl | ⟨a, b, c, rfl⟩ | ⟨a, b, rfl⟩ | ⟨p, rfl⟩ | ⟨u, p, rfl⟩ | ⟨p, rfl⟩ := binary64
  · exact execUdbl_nans s
  · exact udblRangeFrom_nans a b c s
  · exact udblSlenFrom_nans a b s
  · exact gaussFromU_nans p s
  · exact gaussFromV_nans u p s
  · exact expoFrom_nans p s

/-! ## Bodies that write no spare, and seeding -/

/-- Where a body may not write the spare it stands at every end. -/
theorem Ended.spare_kept {m : May} {errs : ErrCode → Prop} {s : State} {a : Answer} (ended : Ended m errs s a)
    (noSpare : m.spare = false) : Answer.All (SpareCanonical s.gaussSpare) a := by
  cases ended with
  | done r h _ => exact Answer.all_next (.of_eq (h.spare noSpare))
  | waits k h _ => exact Answer.all_next (.of_eq (h.spare noSpare))
  | unseeded h _ _ => exact Answer.all_next (.of_eq (h.spare noSpare))
  | raised e _ => exact Answer.all_next (.of_eq rfl)
  | diverges => exact Answer.all_fault _

/-- R160: seeding keeps the spare or makes it absent. -/
theorem finish_seedWith_spare (ws : Vector Word 16) (s : State) :
    Answer.All (SpareCanonical s.gaussSpare) (finish none (s.seedWith ws).flushForSeed) := by
  by_cases internal : s.cfg.provider = .well512
  · rw [finish_seedWith_of_well512 internal]
    exact Answer.all_next fun _ _ => rfl
  · rw [finish_seedWith_of_external internal]
    exact Answer.all_next (.of_eq rfl)

theorem exec_spare (i : Instr) (s : State) : Answer.All (SpareCanonical s.gaussSpare) (exec i s) := by
  by_cases writes : i = .gauss ∨ i = .gaussMs ∨ i = .w512Seed64 ∨ i = .w512Load
  case pos =>
    obtain rfl | rfl | rfl | rfl := writes
    · exact fun t ht => (gauss_nans _ s t ht).spare
    · exact fun t ht => (gauss_nans _ s t ht).spare
    · exact finish_seedWith_spare _ s
    · exact finish_seedWith_spare _ s
  case neg =>
    simp only [not_or] at writes
    obtain ⟨notGauss, notGaussMs, notSeed64, notLoad⟩ := writes
    exact (exec_ended i s notSeed64 notLoad).spare_kept (by simp [May.ofInstr, notGauss, notGaussMs])

/-- Only the two frames of Gauss() may write the spare. -/
theorem ofFrame_spare (k : Frame) :
    (∃ p, k = .gaussU p) ∨ (∃ u p, k = .gaussV u p) ∨ (May.ofFrame k).spare = false := by
  cases k <;> simp [May.ofFrame]

theorem resume_spare (k : Frame) (s : State) : Answer.All (SpareCanonical s.gaussSpare) (resume k s) := by
  obtain ⟨p, rfl⟩ | ⟨u, p, rfl⟩ | noSpare := ofFrame_spare k
  · exact fun t ht => (gaussFromU_nans p s t ht).spare
  · exact fun t ht => (gaussFromV_nans u p s t ht).spare
  · exact (resume_ended k s).spare_kept noSpare

/-- Settles O60: the bodies with a binary64 result write RES and the spare through `canonical`, and every other command
or frame keeps the spare or makes it absent. -/
theorem nanResultsAreCanonical : Obligations.NaNResultsAreCanonical :=
  ⟨fun _ s t binary64 ran => (exec_binary64_nans s binary64 t ran).res,
    fun i s t ran => exec_spare i s t ran,
    fun k s t ran => ⟨resume_spare k s t ran, fun binary64 => (resume_binary64_nans s binary64 t ran).res⟩⟩

end Sys2Proof.Machine
end

section
/-! The argument checks (spec 60_exceptions.md R243, R244): the guards at the head of a body are `argError`, they come
before its first draw or write, and a body that is past them ends with no ARG_RANGE. -/

namespace Sys2Proof.Machine

/-! ## What a guard refuses -/

theorem rndCount_of_empty {t : IntType} {s : State} (empty : t.read s.op0 < 1) : rndCount t s = raise .argRange s :=
  if_pos empty

theorem rndRange_of_empty {t : IntType} {s : State} (empty : t.read s.op1 < t.read s.op0) :
    rndRange t s = raise .argRange s :=
  if_pos empty

theorem rndStartCount_of_outside {t : IntType} {s : State}
    (outside : t.read s.op1 < 1 ∨ t.greatest < t.read s.op0 + t.read s.op1) : rndStartCount t s = raise .argRange s :=
  (ite_or ..).symm.trans (if_pos outside)

theorem execUdblRange_of_argError {s : State} (out : argError .udblRange s) : execUdblRange s = raise .argRange s := by
  simp only [argError] at out
  refine (ite_or ..).symm.trans (if_pos ?_)
  simpa [imp_iff_not_or, or_assoc] using out

theorem execUdblSlen_of_argError {s : State} (out : argError .udblSlen s) : execUdblSlen s = raise .argRange s := by
  simp only [argError] at out
  refine if_pos ?_
  simpa [imp_iff_not_or, or_assoc] using out

theorem execBinom_of_argError {s : State} (out : argError .binom s) : execBinom s = raise .argRange s := by
  simp only [argError] at out
  refine (ite_or ..).symm.trans (if_pos ?_)
  simpa [oneF64, imp_iff_not_or] using out

/-- R244: the guard is the body's first statement, so the command raises on the state it was issued in. -/
theorem exec_of_argError {i : Instr} {s : State} (out : argError i s) : exec i s = raise .argRange s := by
  cases i with
  | bytes => exact if_pos out
  | rndcntU32 => exact rndCount_of_empty (Int.ofNat_lt.mpr out)
  | rndcntS32 => exact rndCount_of_empty out
  | rndcntU64 => exact rndCount_of_empty (Int.ofNat_lt.mpr out)
  | rndcntS64 => exact rndCount_of_empty out
  | rndrngU32 => exact rndRange_of_empty (Int.ofNat_lt.mpr out)
  | rndrngS32 => exact rndRange_of_empty out
  | rndrngU64 => exact rndRange_of_empty (Int.ofNat_lt.mpr out)
  | rndrngS64 => exact rndRange_of_empty out
  | rndscU32 => exact rndStartCount_of_outside (out.imp Int.ofNat_lt.mpr Int.ofNat_lt.mpr)
  | rndscS32 => exact rndStartCount_of_outside out
  | rndscU64 => exact rndStartCount_of_outside (out.imp Int.ofNat_lt.mpr Int.ofNat_lt.mpr)
  | rndscS64 => exact rndStartCount_of_outside out
  | udblRange => exact execUdblRange_of_argError out
  | udblSlen => exact execUdblSlen_of_argError out
  | binom => exact execBinom_of_argError out
  | _ => exact out.elim

/-! ## The error a body ends with -/

/-- A body ends with no error but UNSEEDED of a refill and the errors it raises itself. -/
theorem Ended.error_cases {m : May} {errs : ErrCode → Prop} {s : State} {a : Answer} (ended : Ended m errs s a)
    (noError : s.err = .none) : Answer.All (fun t => t.err = .none ∨ t.err = .unseeded ∨ errs t.err) a := by
  cases ended with
  | done r h _ => exact Answer.all_next (.inl rfl)
  | waits k h _ => exact Answer.all_next (.inl (h.err.trans noError))
  | unseeded h _ _ => exact Answer.all_next (.inr (.inl rfl))
  | raised e he => exact Answer.all_next (.inr (.inr he))
  | diverges => exact Answer.all_fault _

theorem Ended.argRange_own {m : May} {errs : ErrCode → Prop} {s t : State} (ended : Ended m errs s (.next t))
    (noError : s.err = .none) (argRange : t.err = .argRange) : errs .argRange := by
  simpa [argRange] using ended.error_cases noError t rfl

/-- The only ARG_RANGE among the errors of a command's own is its guard's. -/
theorem argError_of_ownErrors {i : Instr} {s : State} (own : ownErrors i s .argRange) : argError i s := by
  simpa [ownErrors] using own

theorem argError_of_exec_argRange {i : Instr} {s t : State} (noError : s.err = .none) (ran : exec i s = .next t)
    (argRange : t.err = .argRange) : argError i s := by
  by_cases seeds : i = .w512Seed64 ∨ i = .w512Load
  case pos =>
    have completes : t.err = .none := by
      obtain rfl | rfl := seeds
      · cases ran; rfl
      · cases ran; rfl
    simp [completes] at argRange
  case neg =>
    obtain ⟨notSeed64, notLoad⟩ := not_or.mp seeds
    have ended := exec_ended i s notSeed64 notLoad
    rw [ran] at ended
    exact argError_of_ownErrors (ended.argRange_own noError argRange)

/-- R244: past its first draw a body has no guard left. -/
theorem resume_err_ne_argRange {k : Frame} {s t : State} (noError : s.err = .none) (ran : resume k s = .next t) :
    t.err ≠ .argRange := by
  have ended := resume_ended k s
  rw [ran] at ended
  exact ended.argRange_own noError

/-- Settles O24: out of its domain a command is a raise outside a refill, which keeps the cursor; otherwise it ends as
`exec_ended` lists, and the rest of a suspended body as `resume_ended` does. -/
theorem argumentErrorsChangeOnlyStatus : Obligations.ArgumentErrorsChangeOnlyStatus :=
  ⟨fun _ _ out => exec_of_argError out, fun _ _ _ => argError_of_exec_argRange, fun _ _ _ => resume_err_ne_argRange⟩

end Sys2Proof.Machine
end

section
/-! A reset while a command is suspended (spec 70_reset_and_hazards.md R271). -/

namespace Sys2Proof.Machine

/-- Settles O15: of the state that every reset leaves, the claim is the fields `cont`, `refilling` and `done`; with no
refill pending, a write to FILL_DATA is ignored (R104). -/
theorem resetDiscardsASuspendedCommand : Obligations.ResetDiscardsASuspendedCommand := by
  intro s v _
  obtain ⟨resets, -⟩ := resetSetsEveryElement
  obtain ⟨t, reset, atReset, -, memory⟩ := resets s
  have fillIgnored : regWrite 0x28 v t = .next t := writeFill_of_idle v atReset.refilling
  exact ⟨t, reset, atReset.cont, atReset.refilling, atReset.done, memory, fillIgnored⟩

end Sys2Proof.Machine
end

section
/-! Decoding and encoding agree (spec 30_encoding.md R80 to R82): a word is its two fields, and the opcode map has each
command in the row of its own opcode and nowhere else. -/

namespace Sys2Proof

/-! ## A word and its fields -/

theorem CmdWord.toWord_ofWord (w : Word) : (CmdWord.ofWord w).toWord = w := by
  simp only [CmdWord.ofWord, CmdWord.toWord]
  exact BitVec.eq_of_getLsbD_eq fun n hn => by
    simp only [BitVec.getLsbD_append, BitVec.getLsbD_extractLsb']
    by_cases low : n < 8
    · simp [low]
    · simp [low, show n - 8 < 24 by omega, show 8 + (n - 8) = n by omega]

theorem CmdWord.ofWord_toWord (c : CmdWord) : CmdWord.ofWord c.toWord = c := by
  simp only [CmdWord.ofWord, CmdWord.toWord, BitVec.extractLsb'_append_eq_right, BitVec.extractLsb'_append_eq_left]

/-- A word is a command's word exactly when its fields are that command's opcode and zero. -/
theorem eq_encode_iff (w : Word) (i : Instr) : w = encode i ↔ CmdWord.ofWord w = ⟨opcode i, 0⟩ := by
  constructor
  · rintro rfl
    exact CmdWord.ofWord_toWord _
  · intro fields
    rw [encode, ← fields, CmdWord.toWord_ofWord]

/-! ## The opcode map -/

theorem mem_of_lookupOpcode {op : BitVec 8} {i : Instr} {table : List (BitVec 8 × Instr)}
    (found : lookupOpcode op table = some i) : (op, i) ∈ table := by
  induction table with
  | nil => cases found
  | cons row rows ih =>
    obtain ⟨o, k⟩ := row
    by_cases here : o = op
    · simp only [lookupOpcode, if_pos here, Option.some.injEq] at found
      simp [here, found]
    · rw [lookupOpcode, if_neg here] at found
      exact List.mem_cons_of_mem _ (ih found)

/-- Every row of R82 has its command's opcode, as `opcode` writes it out. -/
theorem opcode_of_mem_opcodeTable : ∀ row ∈ opcodeTable, row.1 = opcode row.2 := by decide

theorem lookupOpcode_opcode (i : Instr) : lookupOpcode (opcode i) opcodeTable = some i := by cases i <;> rfl

theorem lookupOpcode_eq_some_iff (op : BitVec 8) (i : Instr) :
    lookupOpcode op opcodeTable = some i ↔ op = opcode i := by
  constructor
  · exact fun found => opcode_of_mem_opcodeTable _ (mem_of_lookupOpcode found)
  · rintro rfl
    exact lookupOpcode_opcode i

/-- Settles O1: decoding asks for a zero RSVD and the row of OP, and the row of an opcode is its command's. -/
theorem decodeAndEncodeAgree : Obligations.DecodeAndEncodeAgree := by
  intro w i
  calc decode w = .ok i
    _ ↔ (CmdWord.ofWord w).rsvd = 0 ∧ lookupOpcode (CmdWord.ofWord w).op opcodeTable = some i :=
      CmdWord.decode_eq_ok_iff _ i
    _ ↔ (CmdWord.ofWord w).rsvd = 0 ∧ (CmdWord.ofWord w).op = opcode i := by rw [lookupOpcode_eq_some_iff]
    _ ↔ CmdWord.ofWord w = ⟨opcode i, 0⟩ := by
      rw [and_comm, CmdWord.ofWord, CmdWord.mk.injEq]
    _ ↔ w = encode i := (eq_encode_iff w i).symm

/-- Settles O2: each word is the encoding of its command. -/
theorem writtenOutWordsDecode : Obligations.WrittenOutWordsDecode := by
  simp only [Obligations.WrittenOutWordsDecode, decodeAndEncodeAgree _ _]
  decide

end Sys2Proof
end

section
/-! What one event can do (spec 20_memory.md R67, R70), said once, and the invariants of every reachable state
(10_state.md R50). -/

namespace Sys2Proof.Machine

/-! ## The invariants across small changes -/

/-- What the outside world reaches without the engine: the operand and staging registers, the value of a read, host
memory and the bus. `t` is `s` but for these. -/
structure HostChange (s t : State) : Prop where
  same : t = { s with arg0 := t.arg0, arg1 := t.arg1, wstage := t.wstage, rdata := t.rdata, hm := t.hm, bus := t.bus }
  hmWf : Memory.wf s.hm = true → Memory.wf t.hm = true
  hmBound : (∀ c ∈ s.hm, c.1 < 2 ^ 32) → ∀ c ∈ t.hm, c.1 < 2 ^ 32

theorem HostChange.inv {s t : State} (change : HostChange s t) (inv : s.Inv) : t.Inv := by
  obtain ⟨same, hmWf, hmBound⟩ := change
  have wf := hmWf inv.hmWf
  have bound := hmBound inv.hmBound
  rw [same]
  cases inv
  constructor <;> assumption

theorem bus_hostChange (s : State) (es : List Event) : HostChange s { s with bus := es } := ⟨rfl, id, id⟩

theorem resetOf_inv {c : Config} (wf : c.wellFormed = true) : (State.resetOf c).Inv where
  cfgWf := wf
  bufLen := resetOf_buffer_length c
  cursorLe := Nat.zero_le _
  refillKind := by simp [State.resetOf]
  refillCont := by simp [State.resetOf]
  fillIdle := fun _ => rfl
  fillBound := by simp [State.resetOf]
  byteLegal := .inl rfl
  shortLegal := .inl rfl
  spareCanon := fun _ => rfl
  errDone := by simp [State.resetOf]
  refillNotDone := fun _ => rfl
  hmWf := rfl
  hmBound := by simp [State.resetOf]
  frameOk := by simp [State.resetOf]

/-- Settles O16: every element's reset value is legal. -/
theorem resetMeetsTheInvariants : Obligations.ResetMeetsTheInvariants := fun _ => resetOf_inv

theorem doReset_inv {s : State} (inv : s.Inv) : s.doReset.Inv :=
  HostChange.inv ⟨rfl, fun _ => inv.hmWf, fun _ => inv.hmBound⟩ (resetOf_inv inv.cfgWf)

/-! ## What an event comes to -/

/-- The accesses that are part of the interface: 32 bits wide at a word-aligned offset (R48). -/
def Event.InInterface (c : Config) : Event → Prop
  | .write width addr _ => width = .word ∧ ((addr : Int) - c.base) % 4 = 0
  | .read width addr => width = .word ∧ ((addr : Int) - c.base) % 4 = 0
  | .reset => True
  | .hostStore _ _ => True

/-- What an event comes to: a CMD write, a fill unit, a change that is not the engine's, a reset, or a refusal of an
access that is not part of the interface. -/
inductive Performs (s : State) (e : Event) : Prop where
  | cmd (v : Word) (h : perform e s = writeCmd v s)
  | fill (v : Word) (h : perform e s = writeFill v s)
  | host (t : State) (change : HostChange s t) (h : perform e s = .next t)
  | reset (isReset : e = .reset) (h : perform e s = .next s.doReset)
  | refused (outside : ¬e.InInterface s.cfg) (r : Refusal) (h : perform e s = .refused r)

theorem guardAccess_of_interface {s : State} {a : Nat} (aligned : ((a : Int) - s.cfg.base) % 4 = 0) (act : Answer) :
    guardAccess .word a s act = act := by
  simp [guardAccess, wordAligned, aligned]

theorem regWrite_hostChange (s : State) (v : Word) {off : Nat} (notCmd : off ≠ 0x00) (notFill : off ≠ 0x28) :
    ∃ t, regWrite off v s = .next t ∧ HostChange s t := by
  obtain ⟨t, written, same⟩ := regWrite_changes_only_operands s v notCmd notFill
  refine ⟨t, written, ?_⟩
  rw [same]
  exact ⟨rfl, id, id⟩

/-- A word write at an address of the platform, on an interface access. -/
theorem performs_write {s : State} {a : Nat} (v : Word) (aligned : ((a : Int) - s.cfg.base) % 4 = 0) :
    Performs s (.write .word a v) := by
  have act : perform (.write .word a v) s = writeAt a v s := guardAccess_of_interface aligned _
  by_cases inBlock : s.cfg.base ≤ a
  case neg => exact .host s ⟨rfl, id, id⟩ (by rw [act]; simp [writeAt, offsetOf, inBlock])
  case pos =>
    have write : perform (.write .word a v) s = regWrite (a - s.cfg.base) v s := by
      rw [act]
      simp [writeAt, offsetOf, inBlock]
    by_cases isCmd : a - s.cfg.base = 0x00
    · exact .cmd v (by rw [write, isCmd]; rfl)
    · by_cases isFill : a - s.cfg.base = 0x28
      · exact .fill v (by rw [write, isFill]; rfl)
      · obtain ⟨t, written, change⟩ := regWrite_hostChange s v isCmd isFill
        exact .host t change (write.trans written)

theorem performs (e : Event) (s : State) : Performs s e := by
  cases e with
  | write width a v =>
    by_cases within : width = .word ∧ ((a : Int) - s.cfg.base) % 4 = 0
    · obtain ⟨rfl, aligned⟩ := within
      exact performs_write v aligned
    · obtain ⟨r, refuses⟩ := guardAccess_refuses s (writeAt a v s) (not_and_or.mp within)
      exact .refused within r refuses
  | read width a =>
    by_cases within : width = .word ∧ ((a : Int) - s.cfg.base) % 4 = 0
    · obtain ⟨rfl, aligned⟩ := within
      exact .host { s with rdata := s.readAt a } ⟨rfl, id, id⟩ (guardAccess_of_interface aligned _)
    · obtain ⟨r, refuses⟩ := guardAccess_refuses s (.next { s with rdata := s.readAt a }) (not_and_or.mp within)
      exact .refused within r refuses
  | reset => exact .reset rfl rfl
  | hostStore a v =>
    refine .host { s with hm := Memory.write s.hm a.toNat v } ⟨rfl, Memory.wf_write _ _, fun bound c hc => ?_⟩ rfl
    obtain rfl | old := Memory.mem_write hc
    · exact a.isLt
    · exact bound c old

/-- A property of next states that every step keeps is one that host changes, resets, CMD writes and fill units keep. -/
theorem step_all {P : State → Prop} {s : State} (same : P s)
    (change : ∀ u t, HostChange s u → HostChange u t → P t) (reset : ∀ u, HostChange s u → P u.doReset)
    (cmd : ∀ u v, HostChange s u → Answer.All P (writeCmd v u))
    (fill : ∀ u v, HostChange s u → Answer.All P (writeFill v u)) : Answer.All P (step s) := by
  unfold step
  split
  case isFalse => exact Answer.all_refused _
  case isTrue =>
    split
    case h_1 => exact Answer.all_next same
    case h_2 e rest pending =>
      have popped := bus_hostChange s rest
      obtain ⟨v, h⟩ | ⟨v, h⟩ | ⟨t, host, h⟩ | ⟨-, h⟩ | ⟨-, r, h⟩ := performs e { s with bus := rest }
      · rw [h]; exact cmd _ v popped
      · rw [h]; exact fill _ v popped
      · rw [h]; exact Answer.all_next (change _ t popped host)
      · rw [h]; exact Answer.all_next (reset _ popped)
      · rw [h]; exact Answer.all_refused r

/-! ## The invariants -/

theorem State.Inv.drawInv {s : State} (inv : s.Inv) : DrawInv s :=
  ⟨inv.cfgWf, inv.bufLen, inv.cursorLe, inv.byteLegal, inv.shortLegal⟩

/-- R100: a CMD write with no command suspended starts its body in a running state. -/
theorem State.Inv.latched {s : State} (inv : s.Inv) (idle : s.refilling = false) (op : BitVec 8) :
    RunInv (s.clearStatus.latch op) where
  draw := ⟨inv.cfgWf, inv.bufLen, inv.cursorLe, inv.byteLegal, inv.shortLegal⟩
  refilling := idle
  fillCount := inv.fillIdle idle
  spareCanon := inv.spareCanon
  done := rfl
  err := rfl
  hmWf := inv.hmWf
  hmBound := inv.hmBound

theorem State.Inv.abort {s : State} (inv : s.Inv) (b : Bool) (e : ErrCode) : (s.abort b e).Inv where
  cfgWf := inv.cfgWf
  bufLen := inv.bufLen
  cursorLe := by have := inv.cursorLe; cases b <;> simp [this]
  refillKind := by simp
  refillCont := by simp
  fillIdle := by simp
  fillBound := by simp
  byteLegal := inv.byteLegal
  shortLegal := inv.shortLegal
  spareCanon := inv.spareCanon
  errDone := by simp
  refillNotDone := by simp
  hmWf := inv.hmWf
  hmBound := inv.hmBound
  frameOk := by simp

theorem State.Inv.clearStatus {s : State} (inv : s.Inv) : s.clearStatus.Inv := by
  cases inv
  constructor
  case errDone => simp
  case refillNotDone => simp
  all_goals assumption

theorem writeCmd_inv {s : State} (v : Word) (inv : s.Inv) : Answer.All State.Inv (writeCmd v s) := by
  cases suspended : s.refilling with
  | true => rw [writeCmd_of_refilling v suspended]; exact Answer.all_next (inv.abort true _)
  | false =>
    by_cases command : ∃ i, decode v = .ok i
    · obtain ⟨i, decoded⟩ := command
      rw [writeCmd_of_command suspended decoded]
      exact exec_inv i (inv.latched suspended _)
    · rw [writeCmd_of_not_command suspended (not_exists.mp command)]
      exact Answer.all_next (inv.clearStatus.abort false _)

/-- Where a command is suspended the frame that waits is known, and no error stands (R21, R101). -/
theorem State.Inv.suspended {s : State} (inv : s.Inv) (refilling : s.refilling = true) :
    (∃ k, s.cont = .suspended k ∧ k.ok) ∧ s.done = false ∧ s.err = .none := by
  have notDone := inv.refillNotDone refilling
  refine ⟨?_, notDone, ?_⟩
  · cases waiting : s.cont with
    | idle => exact absurd waiting (inv.refillCont.mp refilling)
    | suspended k => exact ⟨k, rfl, inv.frameOk k waiting⟩
  · by_contra error
    simp [inv.errDone error] at notDone

theorem takeUnit_inv {s : State} (v : Word) (inv : s.Inv) (refilling : s.refilling = true)
    (more : s.fillCount + 1 ≠ fillUnits s.cfg) : (s.takeUnit v).Inv := by
  have room := inv.fillBound refilling
  cases inv
  constructor
  case bufLen => simpa [State.takeUnit]
  case fillIdle => intro idle; simp [refilling] at idle
  case fillBound => intro _; simp only [takeUnit_fillCount, takeUnit_cfg]; omega
  all_goals assumption

/-- R104: after the last unit the body goes on in a running state. -/
theorem resumed_runInv {s : State} (v : Word) (inv : s.Inv) (refilling : s.refilling = true) :
    RunInv (s.takeUnit v).refillDone := by
  obtain ⟨-, notDone, noError⟩ := inv.suspended refilling
  refine ⟨⟨inv.cfgWf, ?_, le_rfl, inv.byteLegal, inv.shortLegal⟩, rfl, rfl, inv.spareCanon, notDone, noError,
    inv.hmWf, inv.hmBound⟩
  simpa [State.takeUnit, State.refillDone] using inv.bufLen

theorem writeFill_inv {s : State} (v : Word) (inv : s.Inv) : Answer.All State.Inv (writeFill v s) := by
  cases refilling : s.refilling with
  | false => rw [writeFill_of_idle v refilling]; exact Answer.all_next inv
  | true =>
    by_cases last : s.fillCount + 1 = fillUnits s.cfg
    · obtain ⟨⟨k, waiting, ok⟩, -⟩ := inv.suspended refilling
      rw [writeFill_of_last v refilling last waiting]
      exact resume_inv k ok (resumed_runInv v inv refilling)
    · rw [writeFill_of_more v refilling last]
      exact Answer.all_next (takeUnit_inv v inv refilling last)

/-- Settles O17: a CMD write and the last fill unit run a body from a running state, which keeps the invariants; the
other events touch nothing they speak of. -/
theorem stepKeepsTheInvariants : Obligations.StepKeepsTheInvariants := fun _ t inv ran =>
  step_all inv (fun _ _ popped change => change.inv (popped.inv inv)) (fun _ popped => doReset_inv (popped.inv inv))
    (fun _ v popped => writeCmd_inv v (popped.inv inv)) (fun _ v popped => writeFill_inv v (popped.inv inv)) t ran

end Sys2Proof.Machine
end

section
/-! How commands and resumed bodies end (spec 40_word_engine.md R100 to R103; 60_exceptions.md R241) and what they leave
alone (10_state.md R22 to R32): consequences of `exec_ended` and `resume_ended`, the seeding commands beside them. -/

namespace Sys2Proof.Machine

/-- Every command seeds the unit or ends as `Ended` lists. -/
theorem exec_cases (i : Instr) (s : State) :
    ((i = .w512Seed64 ∨ i = .w512Load) ∧ ∃ ws, exec i s = finish none (s.seedWith ws).flushForSeed) ∨
      (i ≠ .w512Seed64 ∧ i ≠ .w512Load ∧ Ended (May.ofInstr i) (ownErrors i s) s (exec i s)) := by
  by_cases seed64 : i = .w512Seed64
  · exact .inl ⟨.inl seed64, _, seed64 ▸ exec_w512Seed64 s⟩
  · by_cases load : i = .w512Load
    · exact .inl ⟨.inr load, _, load ▸ exec_w512Load s⟩
    · exact .inr ⟨seed64, load, exec_ended i s seed64 load⟩

/-! ## The parameters -/

theorem Ended.cfg_kept {m : May} {errs : ErrCode → Prop} {s : State} {a : Answer} (ended : Ended m errs s a) :
    Answer.All (fun t => t.cfg = s.cfg) a := by
  cases ended with
  | done r h _ => exact Answer.all_next h.cfg
  | waits k h _ => exact Answer.all_next h.cfg
  | unseeded h _ _ => exact Answer.all_next h.cfg
  | raised e _ => exact Answer.all_next rfl
  | diverges => exact Answer.all_fault _

theorem exec_cfg (i : Instr) (s : State) : Answer.All (fun t => t.cfg = s.cfg) (exec i s) := by
  obtain ⟨-, ws, seeds⟩ | ⟨-, -, ended⟩ := exec_cases i s
  · rw [seeds]
    exact Answer.all_next (flushForSeed_cfg _)
  · exact ended.cfg_kept

theorem writeCmd_cfg (v : Word) (s : State) : Answer.All (fun t => t.cfg = s.cfg) (writeCmd v s) := by
  unfold writeCmd
  split
  · exact Answer.all_next rfl
  · split
    · exact Answer.all_next rfl
    · exact exec_cfg _ (s.clearStatus.latch _)

theorem writeFill_cfg (v : Word) (s : State) : Answer.All (fun t => t.cfg = s.cfg) (writeFill v s) := by
  unfold writeFill resumeCont
  split
  · split
    · split
      · exact Answer.all_next rfl
      · exact (resume_ended _ (s.takeUnit v).refillDone).cfg_kept
    · exact Answer.all_next rfl
  · exact Answer.all_next rfl

theorem HostChange.cfg {s t : State} (change : HostChange s t) : t.cfg = s.cfg := by rw [change.same]

/-- Settles O18: bodies keep the parameters however they end, and nothing else of a step touches them. -/
theorem stepKeepsTheParameters : Obligations.StepKeepsTheParameters := fun s t ran =>
  step_all (P := fun t => t.cfg = s.cfg) rfl (fun _ _ popped change => change.cfg.trans popped.cfg)
    (fun _ popped => popped.cfg) (fun u v popped => popped.cfg ▸ writeCmd_cfg v u)
    (fun u v popped => popped.cfg ▸ writeFill_cfg v u) t ran

/-! ## Done or suspended -/

/-- A body is over with DONE set, or it waits, which only an external provider makes it do. -/
def EndsOrWaits (external : Prop) (t : State) : Prop := t.done = true ∨ t.refilling = true ∧ external

theorem EndsOrWaits.answered {external : Prop} {t : State} (h : EndsOrWaits external t) : t.answered :=
  h.imp_right And.left

theorem Ended.ends_or_waits {m : May} {errs : ErrCode → Prop} {s : State} {a : Answer} (ended : Ended m errs s a) :
    Answer.All (EndsOrWaits (s.cfg.provider ≠ .well512)) a := by
  cases ended with
  | done r _ _ => exact Answer.all_next (.inl rfl)
  | waits k _ external => exact Answer.all_next (.inr ⟨rfl, external⟩)
  | unseeded _ _ _ => exact Answer.all_next (.inl rfl)
  | raised e _ => exact Answer.all_next (.inl rfl)
  | diverges => exact Answer.all_fault _

theorem exec_ends_or_waits (i : Instr) (s : State) :
    Answer.All (EndsOrWaits (s.cfg.provider ≠ .well512)) (exec i s) := by
  obtain ⟨-, ws, seeds⟩ | ⟨-, -, ended⟩ := exec_cases i s
  · rw [seeds]
    exact Answer.all_next (.inl rfl)
  · exact ended.ends_or_waits

theorem writeCmd_ends_or_waits (v : Word) (s : State) :
    Answer.All (EndsOrWaits (s.cfg.provider ≠ .well512)) (writeCmd v s) := by
  unfold writeCmd
  split
  · exact Answer.all_next (.inl rfl)
  · split
    · exact Answer.all_next (.inl rfl)
    · exact exec_ends_or_waits _ (s.clearStatus.latch _)

theorem writeFill_answered {s : State} (v : Word) (inv : s.Inv) (answered : s.answered) :
    Answer.All State.answered (writeFill v s) := by
  cases refilling : s.refilling with
  | false => rw [writeFill_of_idle v refilling]; exact Answer.all_next answered
  | true =>
    by_cases last : s.fillCount + 1 = fillUnits s.cfg
    · obtain ⟨⟨k, waiting, -⟩, -⟩ := inv.suspended refilling
      rw [writeFill_of_last v refilling last waiting]
      exact fun t ran => ((resume_ended k _).ends_or_waits t ran).answered
    · rw [writeFill_of_more v refilling last]
      exact Answer.all_next (.inr refilling)

theorem HostChange.answered {s t : State} (change : HostChange s t) (answered : s.answered) : t.answered := by
  rw [change.same]
  exact answered

/-- An event that is no reset leaves the machine answered: a CMD write always does, a fill unit and a host change keep
it so. -/
theorem perform_answered {e : Event} {s : State} (inv : s.Inv) (noReset : e ≠ .reset) (answered : s.answered) :
    Answer.All State.answered (perform e s) := by
  obtain ⟨v, h⟩ | ⟨v, h⟩ | ⟨t, change, h⟩ | ⟨isReset, -⟩ | ⟨-, r, h⟩ := performs e s
  · rw [h]; exact fun t ran => (writeCmd_ends_or_waits v s t ran).answered
  · rw [h]; exact writeFill_answered v inv answered
  · rw [h]; exact Answer.all_next (change.answered answered)
  · exact absurd isReset noReset
  · rw [h]; exact Answer.all_refused r

/-- Settles O19: a CMD write ends or waits, and only an external provider makes it wait; any other event but a reset
keeps the machine answered. -/
theorem commandsEndDoneOrSuspended : Obligations.CommandsEndDoneOrSuspended := by
  intro s t e rest inv pending ran
  rw [step_of_bus_cons inv.cfgWf pending] at ran
  have popped := bus_hostChange s rest
  have ofCmd (v : Word) (isCmd : e = .write .word s.cfg.base v) : EndsOrWaits (s.cfg.provider ≠ .well512) t := by
    rw [isCmd] at ran
    have write := perform_word_write { s with bus := rest } v (Nat.zero_mod 4)
    exact writeCmd_ends_or_waits v { s with bus := rest } t (write.symm.trans ran)
  refine ⟨?answered, ?done⟩
  case answered =>
    rintro (⟨v, isCmd⟩ | ⟨answered, noReset⟩)
    · exact (ofCmd v isCmd).answered
    · exact perform_answered (popped.inv inv) noReset (popped.answered answered) t ran
  case done =>
    rintro internal ⟨v, isCmd⟩
    exact (ofCmd v isCmd).resolve_right fun waits => waits.2 internal

/-! ## What a body may change -/

/-- Where a body stops it has touched only what it may, and STATUS, RES and the suspension are set on top of that. -/
theorem Ended.touched {m : May} {errs : ErrCode → Prop} {s t : State} (ended : Ended m errs s (.next t)) :
    ∃ u, Touch m s u ∧ t =
      { u with
        cursor := t.cursor, refilling := t.refilling, fillCount := t.fillCount, cont := t.cont, res := t.res,
        done := t.done, err := t.err } := by
  cases ended with
  | done r h _ => exact ⟨_, h, rfl⟩
  | waits k h _ => exact ⟨_, h, rfl⟩
  | unseeded h _ _ => exact ⟨_, h, rfl⟩
  | raised e _ => exact ⟨s, Touch.refl m s, rfl⟩

/-- RES is written by a completion only, and only of a body that has a result (R102). -/
theorem Ended.res_written {m : May} {errs : ErrCode → Prop} {s t : State} (ended : Ended m errs s (.next t))
    (written : t.res ≠ s.res) : m.res = true ∧ t.err = .none ∧ t.done = true ∧ t.cont = .idle := by
  cases ended with
  | done r h noResult =>
    refine ⟨?_, rfl, rfl, rfl⟩
    by_contra none
    obtain rfl := noResult (by simpa using none)
    exact written h.res
  | waits k h _ => exact absurd h.res written
  | unseeded h _ _ => exact absurd h.res written
  | raised e _ => exact absurd rfl written

/-- Whether a command samples does not depend on its operands. -/
theorem samplerArgs_isSome (i : Instr) (s : State) : (samplerArgs i State.reset).isSome = (samplerArgs i s).isSome := by
  cases i <;> rfl

theorem execBytes_outside {s t : State} (ran : exec .bytes s = .next t) {a : Nat}
    (outside : a < opU32 s.op0 ∨ opU32 s.op0 + opU32 s.op1 ≤ a) : Memory.read t.hm a = Memory.read s.hm a := by
  change execBytes s = _ at ran
  unfold execBytes at ran
  split at ran
  · cases ran; rfl
  · exact bytesLoop_outside ran outside

/-- Settles O22: a seeding command changes the unit and STATUS and empties what is excepted for it; any other command
touches what `May.ofInstr` lists, and BYTES stores within its range only. -/
theorem whatACommandMayChange : Obligations.WhatACommandMayChange := by
  intro i s t ran
  obtain ⟨seedName, ws, seeds⟩ | ⟨notSeed64, notLoad, ended⟩ := exec_cases i s
  case inl =>
    rw [seeds] at ran
    cases ran
    have notBytes : i ≠ .bytes := by rintro rfl; simp at seedName
    refine ⟨by simp, by simp, by simp, fun isBytes => absurd isBytes notBytes, fun notSeed64 notLoad => ?_, by simp⟩
    exact absurd seedName (by simp [notSeed64, notLoad])
  case inr =>
    rw [ran] at ended
    have res := ended.res_written
    obtain ⟨u, touch, same⟩ := ended.touched
    have memory (isBytes : i = .bytes) (a : Nat) := execBytes_outside (isBytes ▸ ran) (a := a)
    rw [same] at res memory ⊢
    refine ⟨⟨touch.cfg, touch.arg0, touch.arg1, touch.wstage, touch.cmdOp, touch.op0, touch.op1, touch.bus,
      touch.rdata⟩, res, fun notBytes => touch.hm (by simp [May.ofInstr, notBytes]), memory, fun _ _ => ?caches,
      touch.fill⟩
    refine ⟨touch.seeded, fun notBool => touch.bit ?_, fun notByte noSampler => touch.byte ?_,
      fun notShort noSampler => touch.short ?_, fun notGauss notGaussMs => touch.spare ?_,
      fun external notNext => touch.well ?_ external⟩
    · simp [May.ofInstr, notBool]
    · simp [May.ofInstr, notByte, samplerArgs_isSome i s, noSampler]
    · simp [May.ofInstr, notShort, samplerArgs_isSome i s, noSampler]
    · simp [May.ofInstr, notGauss, notGaussMs]
    · simp [May.ofInstr, notNext]

theorem ofFrame_hm {k : Frame} (notBytes : ∀ d c, k ≠ .bytes d c) : (May.ofFrame k).hm = false := by
  cases k <;> simp [May.ofFrame] at notBytes ⊢

theorem ofFrame_bit {k : Frame} (notBool : k ≠ .bool) : (May.ofFrame k).bit = false := by
  cases k <;> simp [May.ofFrame] at notBool ⊢

theorem ofFrame_byte {k : Frame} (notByte : k ≠ .byte) (noSample : ∀ p x t, k ≠ .sample p x t) :
    (May.ofFrame k).byte = false := by
  cases k <;> simp [May.ofFrame] at notByte noSample ⊢

theorem ofFrame_short {k : Frame} (notShort : k ≠ .uint16) (noSample : ∀ p x t, k ≠ .sample p x t) :
    (May.ofFrame k).short = false := by
  cases k <;> simp [May.ofFrame] at notShort noSample ⊢

/-- Only the two frames of Gauss() write the spare. -/
theorem ofFrame_noSpare {k : Frame} (notU : ∀ p, k ≠ .gaussU p) (notV : ∀ u p, k ≠ .gaussV u p) :
    (May.ofFrame k).spare = false :=
  ((ofFrame_spare k).resolve_left fun ⟨p, h⟩ => notU p h).resolve_left fun ⟨u, p, h⟩ => notV u p h

/-- Settles O23: a resumed body touches what `May.ofFrame` lists, and the rest of BYTES stores within its range only. -/
theorem whatAResumptionMayChange : Obligations.WhatAResumptionMayChange := by
  intro k s t ran
  have ended := resume_ended k s
  rw [ran] at ended
  have res := ended.res_written
  obtain ⟨u, touch, same⟩ := ended.touched
  have memory (d c : Nat) (isBytes : k = .bytes d c) (a : Nat) (outside : a < d ∨ d + c ≤ a) :
      Memory.read t.hm a = Memory.read s.hm a := by
    subst isBytes
    exact bytesLoop_outside ran outside
  rw [same] at res memory ⊢
  refine ⟨⟨touch.cfg, touch.arg0, touch.arg1, touch.wstage, touch.cmdOp, touch.op0, touch.op1, touch.bus,
    touch.rdata, touch.seeded⟩, fun written => ?res, fun notBytes => touch.hm (ofFrame_hm notBytes), memory,
    fun notBool => touch.bit (ofFrame_bit notBool), fun notByte noSample => touch.byte (ofFrame_byte notByte noSample),
    fun notShort noSample => touch.short (ofFrame_short notShort noSample),
    fun notU notV => touch.spare (ofFrame_noSpare notU notV), fun external => ?external⟩
  case res =>
    obtain ⟨hasRes, completed⟩ := res written
    exact ⟨fun isRefill => by simp [isRefill, May.ofFrame] at hasRes,
      fun d c isBytes => by simp [isBytes, May.ofFrame] at hasRes, completed⟩
  case external =>
    obtain ⟨wstate, windex⟩ := touch.well (by cases k <;> rfl) external
    obtain ⟨buffer, refills⟩ := touch.fill external
    exact ⟨wstate, windex, buffer, refills⟩

/-! ## Errors -/

/-- Settles O25: seeding and completion end with no error; what is left of `Ended` is UNSEEDED of a refill, which
POISSON never reaches, and the errors `ownErrors` lists. -/
theorem errorsPerCommand : Obligations.ErrorsPerCommand := by
  intro i s t noError ran error
  obtain ⟨-, ws, seeds⟩ | ⟨notSeed64, notLoad, ended⟩ := exec_cases i s
  case inl =>
    rw [seeds] at ran
    cases ran
    exact absurd rfl error
  case inr =>
    rw [ran] at ended
    cases ended with
    | done r h _ => exact absurd rfl error
    | waits k h _ => exact absurd (h.err.trans noError) error
    | unseeded h internal unseeded =>
      have notPoisson : i ≠ .poisson := by
        rintro rfl
        cases congrArg State.err (Host.Outcome.next.inj ran)
      exact ⟨rfl, rfl, .inr (.inl ⟨rfl, unseeded, .inl internal, notSeed64, notLoad, notPoisson⟩)⟩
    | raised e own =>
      refine ⟨rfl, rfl, ?_⟩
      obtain ⟨rfl, out⟩ | ⟨rfl, isPoisson⟩ | ⟨rfl, isNext, unseeded⟩ := own
      · exact .inl ⟨rfl, out⟩
      · exact .inr (.inr ⟨rfl, isPoisson⟩)
      · exact .inr (.inl ⟨rfl, unseeded, .inr isNext, notSeed64, notLoad, by simp [isNext]⟩)

end Sys2Proof.Machine
end

section
/-! Commands on two states of one stream (spec 41_well512.md R164): under PROVIDER_KIND = WELL512 a body takes both to
the same error or result and leaves them on one stream, one lemma per way a body is put together. -/

namespace Sys2Proof.Machine

/-- Two answers end alike: both diverge, or both end with the same error, on one stream, and agree on `Same` where they
completed. -/
inductive Answer.Alike (Same : State → State → Prop) : Answer → Answer → Prop where
  | diverge : Alike Same (.fault .diverges) (.fault .diverges)
  | next {s t : State} (stream : s.SameStream t) (doneLeft : s.done = true) (doneRight : t.done = true)
      (err : s.err = t.err) (same : s.err = .none → Same s t) : Alike Same (.next s) (.next t)

variable {Same : State → State → Prop}

theorem State.SameStream.complete {s t : State} (h : s.SameStream t) (r q : Option DWord) :
    (s.complete r).SameStream (t.complete q) := by
  cases h
  constructor <;> assumption

theorem State.SameStream.abort {s t : State} (h : s.SameStream t) (b : Bool) (e : ErrCode) :
    (s.abort b e).SameStream (t.abort b e) := by
  obtain ⟨cfg, cursor, words, bit, byte, short, spare, wstate, windex, seeded⟩ := h
  refine ⟨cfg, ?_, fun k below => words k ?_, bit, byte, short, spare, wstate, windex, seeded⟩
  · simp [cursor]
  · cases b <;> simp at below
    exact below

theorem finish_alike {s t : State} (h : InStep s t) (r : Option DWord)
    (same : Same (s.complete r) (t.complete r)) : Answer.Alike Same (finish r s) (finish r t) :=
  .next (h.same.complete r r) rfl rfl rfl fun _ => same

theorem raise_alike {s t : State} (h : InStep s t) {e : ErrCode} (isError : e ≠ .none) :
    Answer.Alike Same (raise e s) (raise e t) :=
  .next (h.same.abort false e) rfl rfl rfl fun noError => absurd noError isError

/-- A draw, then the rest of the body. -/
theorem thenDo_alike {α : Type} {d e : Draw α} {k : Frame} {f : α → State → Answer} (draws : d.InStep e)
    (rest : ∀ x s t, InStep s t → Answer.Alike Same (f x s) (f x t)) :
    Answer.Alike Same (d.thenDo k f) (e.thenDo k f) := by
  cases d <;> cases e <;> simp only [Draw.InStep] at draws
  case got.got =>
    obtain ⟨rfl, h⟩ := draws
    exact rest _ _ _ h
  case abort.abort =>
    obtain ⟨rfl, isError, h⟩ := draws
    exact .next (h.same.abort true _) rfl rfl rfl fun noError => absurd noError isError
  case diverge.diverge => exact .diverge

/-! ## Bodies with a result -/

/-- The two states hold the same result. -/
def SameRes (s t : State) : Prop := s.res = t.res

/-- A draw whose value becomes the result. -/
theorem thenFinish_alike {α : Type} {d e : Draw α} {k : Frame} (f : α → DWord) (draws : d.InStep e) :
    Answer.Alike SameRes (d.thenDo k fun x s => finish (some (f x)) s)
      (e.thenDo k fun x s => finish (some (f x)) s) :=
  thenDo_alike draws fun _ _ _ h => finish_alike h _ rfl

theorem sampleFrom_alike {s t : State} (h : InStep s t) (p : SamplePlan) (start : Int) (ty : IntType) :
    Answer.Alike SameRes (sampleFrom p start ty s) (sampleFrom p start ty t) := by
  unfold sampleFrom
  rw [loopBound_congr h.same.cfg]
  exact thenFinish_alike _ (retry_inStep (drawWidth_inStep _) _ _ h)

theorem udblRangeFrom_alike {s t : State} (h : InStep s t) (start len stop : F64) :
    Answer.Alike SameRes (udblRangeFrom start len stop s) (udblRangeFrom start len stop t) := by
  unfold udblRangeFrom
  rw [loopBound_congr h.same.cfg]
  exact thenFinish_alike _ (retry_inStep uniformDouble_inStep _ _ h)

theorem InStep.withSpare {s t : State} (h : InStep s t) (g : F64) :
    InStep { s with gaussSpare := g } { t with gaussSpare := g } := by
  obtain ⟨cfg, cursor, words, bit, byte, short, -, wstate, windex, seeded⟩ := h.same
  exact ⟨h.prov, h.wf, cfg, cursor, words, bit, byte, short, rfl, wstate, windex, seeded⟩

theorem gaussFromV_alike (u : F64) (post : GaussPost) {s t : State} (h : InStep s t) :
    Answer.Alike SameRes (gaussFromV u post s) (gaussFromV u post t) :=
  thenDo_alike (uniformDouble_inStep h) fun _ _ _ h => finish_alike (h.withSpare _) _ rfl

theorem gauss_alike (post : GaussPost) {s t : State} (h : InStep s t) :
    Answer.Alike SameRes (gauss post s) (gauss post t) := by
  unfold gauss
  rw [h.same.gaussSpare]
  split
  · exact finish_alike (h.withSpare _) _ rfl
  · exact thenDo_alike (uniformDouble_inStep h) fun u _ _ h => gaussFromV_alike u post h

theorem expoFrom_alike (post : ExpoPost) {s t : State} (h : InStep s t) :
    Answer.Alike SameRes (expoFrom post s) (expoFrom post t) :=
  thenFinish_alike _ (uniformDouble_inStep h)

theorem binomFrom_alike (left k : Nat) (p : F64) {s t : State} (h : InStep s t) :
    Answer.Alike SameRes (binomFrom left k p s) (binomFrom left k p t) := by
  induction left generalizing k s t with
  | zero => exact finish_alike h _ rfl
  | succ left ih => exact thenDo_alike (uniformDouble_inStep h) fun _ _ _ h => ih _ h

theorem InStep.withWell {s t : State} (h : InStep s t) (w : Well) : InStep (s.setWell w) (t.setWell w) := by
  obtain ⟨cfg, cursor, words, bit, byte, short, spare, -, -, seeded⟩ := h.same
  exact ⟨h.prov, h.wf, cfg, cursor, words, bit, byte, short, spare, rfl, rfl, seeded⟩

theorem execW512Next_alike {s t : State} (h : InStep s t) :
    Answer.Alike SameRes (execW512Next s) (execW512Next t) := by
  unfold execW512Next
  rw [h.same.seeded, h.well_eq]
  split
  · exact finish_alike (h.withWell _) _ rfl
  · exact raise_alike h (by decide)

/-! ## BYTES -/

/-- The two states hold the same bytes from `a` up to `b`. -/
def SameBytes (a b : Nat) (s t : State) : Prop :=
  ∀ x, a ≤ x → x < b → Memory.read s.hm x = Memory.read t.hm x

theorem InStep.word {s t : State} (h : InStep s t) {i : Nat} (unconsumed : i < s.cursor) : s.word i = t.word i :=
  h.same.words i unconsumed

/-- A chunk of unconsumed bytes, copied on both sides, adds to the range on which host memories agree. -/
theorem copyOut_sameBytes {s t : State} (h : InStep s t) {a dst k n : Nat} (unconsumed : k + n ≤ 4 * s.cursor)
    (before : SameBytes a dst s t) : SameBytes a (dst + n) (s.copyOut dst k n) (t.copyOut dst k n) := by
  intro x from_a below
  rw [read_copyOut, read_copyOut]
  split
  case isTrue inChunk => rw [State.bufByte, State.bufByte, h.word (by omega)]
  case isFalse outside => exact before x from_a (by omega)

theorem InStep.copied {s t : State} (h : InStep s t) (dst k n : Nat) {cur : Nat} (fewer : cur ≤ s.cursor) :
    InStep { s.copyOut dst k n with cursor := cur } { t.copyOut dst k n with cursor := cur } := by
  obtain ⟨cfg, cursor, words, bit, byte, short, spare, wstate, windex, seeded⟩ := h.same
  exact ⟨h.prov, h.wf, cfg, rfl, fun i below => words i (lt_of_lt_of_le below fewer), bit, byte, short, spare, wstate,
    windex, seeded⟩

theorem bytesLoop_alike (n a dst count : Nat) {s t : State} (h : InStep s t) (before : SameBytes a dst s t) :
    Answer.Alike (SameBytes a (dst + count)) (bytesLoop n dst count s) (bytesLoop n dst count t) := by
  induction n generalizing dst count s t with
  | zero => exact .diverge
  | succ n ih =>
    simp only [bytesLoop, ← h.same.cursor]
    split
    case isTrue more =>
      have step := h.copied dst 0 (4 * s.cursor) (Nat.zero_le _)
      have copied := copyOut_sameBytes h (k := 0) (n := 4 * s.cursor) (by omega) before
      have refills := refill_inStep step
      have leftMemory := refill_ok { s.copyOut dst 0 (4 * s.cursor) with cursor := 0 }
      have rightMemory := refill_ok { t.copyOut dst 0 (4 * s.cursor) with cursor := 0 }
      generalize refill { s.copyOut dst 0 (4 * s.cursor) with cursor := 0 } = d at *
      generalize refill { t.copyOut dst 0 (4 * s.cursor) with cursor := 0 } = e at *
      cases d <;> cases e <;> simp only [Draw.InStep] at refills
      case got.got =>
        have total : dst + count = dst + 4 * s.cursor + (count - 4 * s.cursor) := by omega
        rw [total]
        refine ih _ _ refills.2 fun x from_a below => ?_
        rw [leftMemory.hm, rightMemory.hm]
        exact copied x from_a below
      case abort.abort =>
        obtain ⟨rfl, isError, h⟩ := refills
        exact .next (h.same.abort true _) rfl rfl rfl fun noError => absurd noError isError
      case diverge.diverge => exact .diverge
    case isFalse fits =>
      exact finish_alike (h.copied dst _ count (by omega)) none (copyOut_sameBytes h (by omega) before)

/-! ## Every command -/

/-- What two completed runs of a command have in common. -/
def SameOutput (i : Instr) (s : State) (u v : State) : Prop :=
  (hasResult i = true → u.res = v.res) ∧
    (i = .bytes → SameBytes (opU32 s.op0) (opU32 s.op0 + opU32 s.op1) u v)

theorem Answer.Alike.imp {Other : State → State → Prop} {a b : Answer} (h : Answer.Alike Same a b)
    (weaken : ∀ s t, Same s t → Other s t) : Answer.Alike Other a b := by
  cases h with
  | diverge => exact .diverge
  | next stream doneLeft doneRight err same =>
    exact .next stream doneLeft doneRight err fun noError => weaken _ _ (same noError)

theorem Answer.Alike.result {i : Instr} {s : State} {a b : Answer} (h : Answer.Alike SameRes a b)
    (notBytes : i ≠ .bytes) : Answer.Alike (SameOutput i s) a b :=
  h.imp fun _ _ same => ⟨fun _ => same, fun isBytes => absurd isBytes notBytes⟩

/-- New words for the unit start one stream, whatever the two states held before. -/
theorem seeded_alike {s t : State} (cfg : s.cfg = t.cfg) (internal : s.cfg.provider = .well512) (ws : Vector Word 16) :
    Answer.Alike (fun _ _ => True) (finish none (s.seedWith ws).flushForSeed)
      (finish none (t.seedWith ws).flushForSeed) := by
  rw [finish_seedWith_of_well512 internal, finish_seedWith_of_well512 (cfg ▸ internal)]
  exact .next ⟨cfg, rfl, fun k below => absurd below (Nat.not_lt_zero k), rfl, rfl, rfl, rfl, rfl, rfl, rfl⟩ rfl rfl rfl
    fun _ => trivial

section Sampler

variable {s t : State}

theorem rndCount_alike (h : InStep s t) (op0 : s.op0 = t.op0) (ty : IntType) :
    Answer.Alike SameRes (rndCount ty s) (rndCount ty t) := by
  simp only [rndCount, ← op0]
  split
  · exact raise_alike h (by decide)
  · exact sampleFrom_alike h _ _ _

theorem rndRange_alike (h : InStep s t) (op0 : s.op0 = t.op0) (op1 : s.op1 = t.op1) (ty : IntType) :
    Answer.Alike SameRes (rndRange ty s) (rndRange ty t) := by
  simp only [rndRange, ← op0, ← op1]
  split
  · exact raise_alike h (by decide)
  · exact sampleFrom_alike h _ _ _

theorem rndStartCount_alike (h : InStep s t) (op0 : s.op0 = t.op0) (op1 : s.op1 = t.op1) (ty : IntType) :
    Answer.Alike SameRes (rndStartCount ty s) (rndStartCount ty t) := by
  simp only [rndStartCount, ← op0, ← op1]
  split
  · exact raise_alike h (by decide)
  · split
    · exact raise_alike h (by decide)
    · exact sampleFrom_alike h _ _ _

end Sampler

theorem execUdblRange_alike {s t : State} (h : InStep s t) (op0 : s.op0 = t.op0) (op1 : s.op1 = t.op1) :
    Answer.Alike SameRes (execUdblRange s) (execUdblRange t) := by
  simp only [execUdblRange, ← op0, ← op1]
  split
  · exact raise_alike h (by decide)
  · split
    · exact raise_alike h (by decide)
    · exact udblRangeFrom_alike h _ _ _

theorem execUdblSlen_alike {s t : State} (h : InStep s t) (op0 : s.op0 = t.op0) (op1 : s.op1 = t.op1) :
    Answer.Alike SameRes (execUdblSlen s) (execUdblSlen t) := by
  simp only [execUdblSlen, ← op0, ← op1]
  split
  · exact raise_alike h (by decide)
  · exact thenFinish_alike _ (uniformDouble_inStep h)

theorem execBinom_alike {s t : State} (h : InStep s t) (op0 : s.op0 = t.op0) (op1 : s.op1 = t.op1) :
    Answer.Alike SameRes (execBinom s) (execBinom t) := by
  simp only [execBinom, ← op0, ← op1]
  split
  · exact raise_alike h (by decide)
  · split
    · exact raise_alike h (by decide)
    · exact binomFrom_alike _ _ _ h

theorem execBytes_alike {s t : State} (h : InStep s t) (op0 : s.op0 = t.op0) (op1 : s.op1 = t.op1) :
    Answer.Alike (SameBytes (opU32 s.op0) (opU32 s.op0 + opU32 s.op1)) (execBytes s) (execBytes t) := by
  simp only [execBytes, ← op0, ← op1]
  split
  · exact raise_alike h (by decide)
  · exact bytesLoop_alike _ _ _ _ h fun x from_dst below => absurd from_dst (Nat.not_le.mpr below)

/-- R164: one command on two states of one stream, its operands the same. -/
theorem exec_alike {i : Instr} {s t : State} (h : InStep s t) (op0 : s.op0 = t.op0) (op1 : s.op1 = t.op1)
    (staged : i = .w512Load → s.wstage = t.wstage) : Answer.Alike (SameOutput i s) (exec i s) (exec i t) := by
  cases i with
  | bytes => exact (execBytes_alike h op0 op1).imp fun _ _ same => ⟨by simp [hasResult], fun _ => same⟩
  | refill =>
    exact thenDo_alike (refill_inStep h) fun _ _ _ h => finish_alike h none ⟨by simp [hasResult], by simp⟩
  | w512Seed64 =>
    rw [exec_w512Seed64, exec_w512Seed64, ← h.same.cfg, ← op0]
    exact (seeded_alike h.same.cfg h.prov _).imp fun _ _ _ => ⟨by simp [hasResult], by simp⟩
  | w512Load =>
    rw [exec_w512Load, exec_w512Load, ← staged rfl]
    exact (seeded_alike h.same.cfg h.prov _).imp fun _ _ _ => ⟨by simp [hasResult], by simp⟩
  | w512Next => exact (execW512Next_alike h).result (by decide)
  | poisson => exact raise_alike h (by decide)
  | int32 => exact (thenFinish_alike _ (drawU32_inStep h)).result (by decide)
  | uint32 => exact (thenFinish_alike _ (drawU32_inStep h)).result (by decide)
  | int64 => exact (thenFinish_alike _ (drawU64_inStep h)).result (by decide)
  | uint64 => exact (thenFinish_alike _ (drawU64_inStep h)).result (by decide)
  | bool => exact (thenFinish_alike _ (drawSub_inStep _ h)).result (by decide)
  | byte => exact (thenFinish_alike _ (drawSub_inStep _ h)).result (by decide)
  | uint16 => exact (thenFinish_alike _ (drawSub_inStep _ h)).result (by decide)
  | smpl32 =>
    change Answer.Alike _ (execSmpl32 s) (execSmpl32 t)
    simp only [execSmpl32, ← op0]
    exact (sampleFrom_alike h _ _ _).result (by decide)
  | smpl64 =>
    change Answer.Alike _ (execSmpl64 s) (execSmpl64 t)
    simp only [execSmpl64, ← op0]
    exact (sampleFrom_alike h _ _ _).result (by decide)
  | rndcntU32 => exact (rndCount_alike h op0 _).result (by decide)
  | rndcntS32 => exact (rndCount_alike h op0 _).result (by decide)
  | rndcntU64 => exact (rndCount_alike h op0 _).result (by decide)
  | rndcntS64 => exact (rndCount_alike h op0 _).result (by decide)
  | rndrngU32 => exact (rndRange_alike h op0 op1 _).result (by decide)
  | rndrngS32 => exact (rndRange_alike h op0 op1 _).result (by decide)
  | rndrngU64 => exact (rndRange_alike h op0 op1 _).result (by decide)
  | rndrngS64 => exact (rndRange_alike h op0 op1 _).result (by decide)
  | rndscU32 => exact (rndStartCount_alike h op0 op1 _).result (by decide)
  | rndscS32 => exact (rndStartCount_alike h op0 op1 _).result (by decide)
  | rndscU64 => exact (rndStartCount_alike h op0 op1 _).result (by decide)
  | rndscS64 => exact (rndStartCount_alike h op0 op1 _).result (by decide)
  | udbl => exact (thenFinish_alike _ (uniformDouble_inStep h)).result (by decide)
  | uflt => exact (thenFinish_alike _ (uniformFloat_inStep h)).result (by decide)
  | udblRange => exact (execUdblRange_alike h op0 op1).result (by decide)
  | udblSlen => exact (execUdblSlen_alike h op0 op1).result (by decide)
  | gauss => exact (gauss_alike _ h).result (by decide)
  | gaussMs =>
    change Answer.Alike _ (execGaussMs s) (execGaussMs t)
    simp only [execGaussMs, ← op0, ← op1]
    exact (gauss_alike _ h).result (by decide)
  | expo => exact (expoFrom_alike _ h).result (by decide)
  | expoMean =>
    change Answer.Alike _ (execExpoMean s) (execExpoMean t)
    simp only [execExpoMean, ← op0]
    exact (expoFrom_alike _ h).result (by decide)
  | expoRate =>
    change Answer.Alike _ (execExpoRate s) (execExpoRate t)
    simp only [execExpoRate, ← op0]
    exact (expoFrom_alike _ h).result (by decide)
  | binom => exact (execBinom_alike h op0 op1).result (by decide)

/-- Settles O43: seeding starts one stream whatever came before, and on one stream every draw of a body, and so the
body, goes alike on both sides. -/
theorem seededSequencesAreDetermined : Obligations.SeededSequencesAreDetermined := by
  refine ⟨fun s t cfg internal op0 => ?seeding, fun i s t internal wf stream op0 op1 staged => ?command⟩
  case seeding =>
    have alike := seeded_alike cfg internal (seedWords s.cfg.digest s.op0)
    rw [exec_w512Seed64, exec_w512Seed64, ← cfg, ← op0]
    cases alike with
    | next sameStream _ _ _ _ => exact ⟨_, _, rfl, rfl, sameStream⟩
  case command =>
    have alike := exec_alike ⟨internal, wf, stream⟩ op0 op1 staged
    generalize exec i s = left at *
    generalize exec i t = right at *
    cases alike with
    | diverge => exact .inl ⟨rfl, rfl⟩
    | next sameStream doneLeft doneRight err same =>
      exact .inr ⟨_, _, rfl, rfl, sameStream, doneLeft, doneRight, err, fun noError => (same noError).1,
        fun isBytes noError => (same noError).2 isBytes⟩

end Sys2Proof.Machine
end

section
/-! When a body answers a next state (spec 70_reset_and_hazards.md R285): every body without a loop of draws always
does, and under an external provider the loops do too. -/

namespace Sys2Proof.Machine

/-- The answer is a next state. -/
def Answers (a : Answer) : Prop := ∃ t, a = .next t

theorem finish_answers (r : Option DWord) (s : State) : Answers (finish r s) := ⟨_, rfl⟩

theorem raise_answers (e : ErrCode) (s : State) : Answers (raise e s) := ⟨_, rfl⟩

theorem guarded_answers {c : Prop} [Decidable c] {e : ErrCode} {s : State} {a : Answer} (rest : Answers a) :
    Answers (if c then raise e s else a) := by
  split
  · exact raise_answers e s
  · exact rest

/-- A draw that ends, then a rest that answers. -/
theorem thenDo_answers {α : Type} {d : Draw α} {k : Frame} {f : α → State → Answer} (ends : d ≠ .diverge)
    (rest : ∀ x t, Answers (f x t)) : Answers (d.thenDo k f) := by
  cases d with
  | got x t => exact rest x t
  | wait t => exact ⟨_, rfl⟩
  | abort e t => exact ⟨_, rfl⟩
  | diverge => exact absurd rfl ends

theorem thenFinish_answers {α : Type} {d : Draw α} {k : Frame} (f : α → Option DWord) (ends : d ≠ .diverge) :
    Answers (d.thenDo k fun x s => finish (f x) s) :=
  thenDo_answers ends fun _ _ => finish_answers _ _

theorem uniformFloat_ne_diverge (s : State) : uniformFloat s ≠ .diverge :=
  Draw.bind_got_ne_diverge (drawU32_ne_diverge s) (fun x => uniformFloatBits (x.toNat % 2 ^ 24)) fun _ s => s

theorem refill_ne_diverge (s : State) : refill s ≠ .diverge := by
  have ends := needWords_ne_diverge (s.cursor + 1) s
  rwa [needWords, if_pos (Nat.lt_succ_self _)] at ends

/-! ## Bodies without a loop of draws -/

theorem gaussFromV_answers (u : F64) (post : GaussPost) (s : State) : Answers (gaussFromV u post s) :=
  thenDo_answers (uniformDouble_ne_diverge s) fun _ _ => finish_answers _ _

theorem gaussFromU_answers (post : GaussPost) (s : State) : Answers (gaussFromU post s) :=
  thenDo_answers (uniformDouble_ne_diverge s) fun u t => gaussFromV_answers u post t

theorem gauss_answers (post : GaussPost) (s : State) : Answers (gauss post s) := by
  unfold gauss
  split
  · exact finish_answers _ _
  · exact gaussFromU_answers post s

theorem expoFrom_answers (post : ExpoPost) (s : State) : Answers (expoFrom post s) :=
  thenFinish_answers _ (uniformDouble_ne_diverge s)

theorem udblSlenFrom_answers (start len : F64) (s : State) : Answers (udblSlenFrom start len s) :=
  thenFinish_answers _ (uniformDouble_ne_diverge s)

theorem binomFrom_answers (left k : Nat) (p : F64) (s : State) : Answers (binomFrom left k p s) := by
  induction left generalizing k s with
  | zero => exact finish_answers _ _
  | succ left ih => exact thenDo_answers (uniformDouble_ne_diverge s) fun _ t => ih _ t

/-- A refill that returns has filled the buffer. -/
theorem refill_got_cursor {s t : State} (h : refill s = .got () t) : t.cursor = s.cfg.words ∧ t.cfg = s.cfg := by
  cases internal : s.cfg.provider with
  | well512 =>
    cases seeded : s.seeded with
    | true => rw [refill_internal internal seeded] at h; cases h; exact ⟨rfl, rfl⟩
    | false => rw [refill_unseeded internal seeded] at h; cases h
  | extWord => rw [refill_external (by simp [internal])] at h; cases h
  | extByte => rw [refill_external (by simp [internal])] at h; cases h

/-- Each round of BYTES but one from an empty buffer copies a byte at least, so its rounds do not run out. -/
theorem bytesLoop_answers {n dst count : Nat} {s : State} (words : 1 ≤ s.cfg.words)
    (rounds : count + 1 < n ∨ 1 ≤ s.cursor ∧ count < n) : Answers (bytesLoop n dst count s) := by
  induction n generalizing dst count s with
  | zero => omega
  | succ n ih =>
    simp only [bytesLoop]
    split
    case isTrue more =>
      have ends := refill_ne_diverge { s.copyOut dst 0 (4 * s.cursor) with cursor := 0 }
      cases refilled : refill { s.copyOut dst 0 (4 * s.cursor) with cursor := 0 } with
      | got x t =>
        obtain ⟨cursor, cfg⟩ := refill_got_cursor refilled
        have fullBuffer : t.cursor = s.cfg.words := cursor
        exact ih (cfg ▸ words) (.inr (by omega))
      | wait t => exact ⟨_, rfl⟩
      | abort e t => exact ⟨_, rfl⟩
      | diverge => exact absurd refilled ends
    case isFalse => exact finish_answers _ _

theorem bytesFrom_answers (dst count : Nat) {s : State} (words : 1 ≤ s.cfg.words) : Answers (bytesFrom dst count s) :=
  bytesLoop_answers words (.inl (Nat.lt_succ_self _))

/-- A command answers where the loops it may enter do (42_sampler.md R171; 43_distributions.md R205). -/
theorem exec_answers (i : Instr) {s : State} (wf : s.cfg.wellFormed = true)
    (sampler : (samplerArgs i s).isSome → ∀ p start ty, Answers (sampleFrom p start ty s))
    (ranged : i = .udblRange → ∀ start len stop, Answers (udblRangeFrom start len stop s)) : Answers (exec i s) := by
  cases i with
  | int32 => exact thenFinish_answers _ (drawU32_ne_diverge s)
  | uint32 => exact thenFinish_answers _ (drawU32_ne_diverge s)
  | int64 => exact thenFinish_answers _ (drawU64_ne_diverge s)
  | uint64 => exact thenFinish_answers _ (drawU64_ne_diverge s)
  | bool => exact thenFinish_answers _ (drawSub_ne_diverge _ s)
  | byte => exact thenFinish_answers _ (drawSub_ne_diverge _ s)
  | uint16 => exact thenFinish_answers _ (drawSub_ne_diverge _ s)
  | bytes => exact guarded_answers (bytesFrom_answers _ _ (by have := words_pos wf; omega))
  | refill => exact thenFinish_answers (fun _ => none) (refill_ne_diverge s)
  | w512Seed64 => exact finish_answers _ _
  | w512Load => exact finish_answers _ _
  | w512Next =>
    cases seeded : s.seeded with
    | true => exact exec_w512Next_of_seeded seeded ▸ finish_answers _ _
    | false => exact exec_w512Next_of_unseeded seeded ▸ raise_answers _ _
  | smpl32 => exact sampler rfl _ _ _
  | smpl64 => exact sampler rfl _ _ _
  | rndcntU32 => exact guarded_answers (sampler rfl _ _ _)
  | rndcntS32 => exact guarded_answers (sampler rfl _ _ _)
  | rndcntU64 => exact guarded_answers (sampler rfl _ _ _)
  | rndcntS64 => exact guarded_answers (sampler rfl _ _ _)
  | rndrngU32 => exact guarded_answers (sampler rfl _ _ _)
  | rndrngS32 => exact guarded_answers (sampler rfl _ _ _)
  | rndrngU64 => exact guarded_answers (sampler rfl _ _ _)
  | rndrngS64 => exact guarded_answers (sampler rfl _ _ _)
  | rndscU32 => exact guarded_answers (guarded_answers (sampler rfl _ _ _))
  | rndscS32 => exact guarded_answers (guarded_answers (sampler rfl _ _ _))
  | rndscU64 => exact guarded_answers (guarded_answers (sampler rfl _ _ _))
  | rndscS64 => exact guarded_answers (guarded_answers (sampler rfl _ _ _))
  | udbl => exact thenFinish_answers _ (uniformDouble_ne_diverge s)
  | uflt => exact thenFinish_answers _ (uniformFloat_ne_diverge s)
  | udblRange => exact guarded_answers (guarded_answers (ranged rfl _ _ _))
  | udblSlen => exact guarded_answers (udblSlenFrom_answers _ _ s)
  | gauss => exact gauss_answers _ s
  | gaussMs => exact gauss_answers _ s
  | expo => exact expoFrom_answers _ s
  | expoMean => exact expoFrom_answers _ s
  | expoRate => exact expoFrom_answers _ s
  | binom => exact guarded_answers (guarded_answers (binomFrom_answers _ _ _ s))
  | poisson => exact raise_answers _ s

/-- Settles O21: no loop of draws is entered, the single draws end, and the rounds of BYTES do not run out. -/
theorem loopFreeCommandsAlwaysAnswer : Obligations.LoopFreeCommandsAlwaysAnswer := fun i _ wf noSampler notRanged =>
  exec_answers i wf (fun sampler => by simp [noSampler] at sampler) fun ranged => absurd ranged notRanged

/-! ## Under an external provider -/

section External

variable {s : State} (external : s.cfg.provider ≠ .well512) (inv : DrawInv s)
include external inv

theorem sampleFrom_answers (p : SamplePlan) (start : Int) (ty : IntType) : Answers (sampleFrom p start ty s) :=
  thenFinish_answers _
    (retry_ends (drawWidth_ne_diverge _) (drawWidth_ok _) drawWidth_supply external (supply_lt_loopBound inv))

theorem udblRangeFrom_answers (start len stop : F64) : Answers (udblRangeFrom start len stop s) :=
  thenFinish_answers _
    (retry_ends uniformDouble_ne_diverge uniformDouble_ok uniformDouble_supply external (supply_lt_loopBound inv))

theorem exec_answers_of_external (i : Instr) : Answers (exec i s) :=
  exec_answers i inv.cfgWf (fun _ => sampleFrom_answers external inv) fun _ => udblRangeFrom_answers external inv

theorem resume_answers_of_external (k : Frame) : Answers (resume k s) := by
  cases k with
  | int32 => exact exec_answers_of_external external inv .int32
  | uint32 => exact exec_answers_of_external external inv .uint32
  | int64 => exact exec_answers_of_external external inv .int64
  | uint64 => exact exec_answers_of_external external inv .uint64
  | bool => exact exec_answers_of_external external inv .bool
  | byte => exact exec_answers_of_external external inv .byte
  | uint16 => exact exec_answers_of_external external inv .uint16
  | bytes dst count => exact bytesFrom_answers dst count (by have := words_pos inv.cfgWf; omega)
  | refill => exact finish_answers _ _
  | sample p start ty => exact sampleFrom_answers external inv p start ty
  | udbl => exact exec_answers_of_external external inv .udbl
  | uflt => exact exec_answers_of_external external inv .uflt
  | udblRange start len stop => exact udblRangeFrom_answers external inv start len stop
  | udblSlen start len => exact udblSlenFrom_answers start len s
  | gaussU post => exact gaussFromU_answers post s
  | gaussV u post => exact gaussFromV_answers u post s
  | expo post => exact expoFrom_answers post s
  | binom left k p => exact binomFrom_answers left k p s

end External

theorem writeCmd_answers {s : State} (v : Word) (external : s.cfg.provider ≠ .well512) (inv : s.Inv) :
    Answers (writeCmd v s) := by
  cases suspended : s.refilling with
  | true => exact ⟨_, writeCmd_of_refilling v suspended⟩
  | false =>
    by_cases command : ∃ i, decode v = .ok i
    · obtain ⟨i, decoded⟩ := command
      rw [writeCmd_of_command suspended decoded]
      exact exec_answers_of_external (s := s.clearStatus.latch _) external (inv.latched suspended _).draw i
    · exact ⟨_, writeCmd_of_not_command suspended (not_exists.mp command)⟩

theorem writeFill_answers {s : State} (v : Word) (external : s.cfg.provider ≠ .well512) (inv : s.Inv) :
    Answers (writeFill v s) := by
  cases refilling : s.refilling with
  | false => exact ⟨_, writeFill_of_idle v refilling⟩
  | true =>
    by_cases last : s.fillCount + 1 = fillUnits s.cfg
    · obtain ⟨⟨k, waiting, -⟩, -⟩ := inv.suspended refilling
      rw [writeFill_of_last v refilling last waiting]
      exact resume_answers_of_external (s := (s.takeUnit v).refillDone) external (resumed_runInv v inv refilling).draw k
    · exact ⟨_, writeFill_of_more v refilling last⟩

/-- Settles O20: an access of the interface is not refused, and under an external provider each loop of draws uses up
its supply before its rounds run out. -/
theorem externalProviderStepsAlwaysAnswer : Obligations.ExternalProviderStepsAlwaysAnswer := by
  intro s e rest inv external pending write read
  rw [step_of_bus_cons inv.cfgWf pending]
  have popped : ({ s with bus := rest } : State).Inv := (bus_hostChange s rest).inv inv
  obtain ⟨v, h⟩ | ⟨v, h⟩ | ⟨t, -, h⟩ | ⟨-, h⟩ | ⟨outside, -⟩ := performs e { s with bus := rest }
  · exact h ▸ writeCmd_answers v external popped
  · exact h ▸ writeFill_answers v external popped
  · exact ⟨t, h⟩
  · exact ⟨_, h⟩
  · refine absurd ?_ outside
    cases e with
    | write w a v => exact write w a v rfl
    | read w a => exact read w a rfl
    | reset => trivial
    | hostStore a v => trivial

end Sys2Proof.Machine
end

section
/-! BYTES and REFILL (spec 40_word_engine.md R123, R124): what one round of the chunk loop leaves, and how the rounds
after it depend on nothing else. -/

namespace Sys2Proof.Machine

/-! ## One round of BYTES -/

/-- The state after a whole chunk: the unconsumed bytes are written and the buffer is empty. -/
def State.drained (s : State) (dst : Nat) : State := { s.copyOut dst 0 (4 * s.cursor) with cursor := 0 }

theorem read_drained (s : State) (dst a : Nat) :
    Memory.read (s.drained dst).hm a =
      if dst ≤ a ∧ a < dst + 4 * s.cursor then some (s.bufByte (a - dst)) else Memory.read s.hm a := by
  have copied := read_copyOut s dst 0 (4 * s.cursor) a
  rw [Nat.zero_add] at copied
  exact copied

section Round

variable {dst count : Nat} {s : State}

/-- The last round: what is asked for is in the buffer. -/
theorem bytesLoop_of_enough (n : Nat) (enough : count ≤ 4 * s.cursor) :
    bytesLoop (n + 1) dst count s =
      finish none { s.copyOut dst (4 * s.cursor - count) count with cursor := (4 * s.cursor - count) / 4 } := by
  simp only [bytesLoop, if_neg (Nat.not_lt.mpr enough)]

theorem bytesLoop_external (n : Nat) (external : s.cfg.provider ≠ .well512) (more : 4 * s.cursor < count) :
    bytesLoop (n + 1) dst count s =
      .next ((s.drained dst).startFill.suspend (.bytes (dst + 4 * s.cursor) (count - 4 * s.cursor))) := by
  have waits : refill (s.drained dst) = .wait (s.drained dst).startFill := refill_external external
  simp only [State.drained] at waits
  simp only [bytesLoop, if_pos more, waits]
  rfl

theorem bytesLoop_internal (n : Nat) (internal : s.cfg.provider = .well512) (seeded : s.seeded = true)
    (more : 4 * s.cursor < count) :
    bytesLoop (n + 1) dst count s =
      bytesLoop n (dst + 4 * s.cursor) (count - 4 * s.cursor) (s.drained dst).fillFromWell.refillDone := by
  have refills : refill (s.drained dst) = .got () (s.drained dst).fillFromWell.refillDone :=
    refill_internal internal seeded
  simp only [State.drained] at refills
  simp only [bytesLoop, if_pos more, refills]
  rfl

theorem bytesLoop_unseeded (n : Nat) (internal : s.cfg.provider = .well512) (unseeded : s.seeded = false)
    (more : 4 * s.cursor < count) :
    bytesLoop (n + 1) dst count s = .next ((s.drained dst).abort true .unseeded) := by
  have aborts : refill (s.drained dst) = .abort .unseeded (s.drained dst) := refill_unseeded internal unseeded
  simp only [State.drained] at aborts
  simp only [bytesLoop, if_pos more, aborts]
  rfl

end Round

/-- BYTES with its range within host memory is its loop. -/
theorem exec_bytes {s : State} (range : opU32 s.op0 + opU32 s.op1 ≤ 2 ^ 32) :
    exec .bytes s = bytesFrom (opU32 s.op0) (opU32 s.op1) s :=
  if_neg (Nat.not_lt.mpr range)

/-- Settles O33: BYTES is one round, whose copy is read back by `read_copyOut`. -/
theorem bytesWithinTheBuffer : Obligations.BytesWithinTheBuffer := by
  rintro s _ _ rfl rfl range enough
  refine ⟨_, (exec_bytes range).trans (bytesLoop_of_enough _ enough), fun a => ?_⟩
  exact read_copyOut s (opU32 s.op0) _ (opU32 s.op1) a

/-- Settles O34: one round, and a frame whose body is the loop with the advanced locals. -/
theorem bytesSuspendsAtARefill : Obligations.BytesSuspendsAtARefill := by
  rintro s _ _ external rfl rfl range more
  refine ⟨_, _, (exec_bytes range).trans (bytesLoop_external _ external more), read_drained s _, fun t dst count => ?_⟩
  rw [exec_bytes (by omega), dst, count]
  rfl

/-! ## The rounds that follow -/

/-- The state with other latched operands. -/
def State.withOps (s : State) (a b : DWord) : State := { s with op0 := a, op1 := b }

theorem refill_withOps {s : State} (a b : DWord) (internal : s.cfg.provider = .well512) (seeded : s.seeded = true) :
    refill (s.withOps a b) = .got () (s.fillFromWell.refillDone.withOps a b) :=
  refill_internal internal seeded

/-- Under a seeded unit the loop completes the same way with more rounds to spare, whatever operands are latched. -/
theorem bytesLoop_withOps {n dst count : Nat} {s t : State} (a b : DWord) (internal : s.cfg.provider = .well512)
    (seeded : s.seeded = true) (ran : bytesLoop n dst count s = .next t) (m : Nat) :
    bytesLoop (n + m) dst count (s.withOps a b) = .next (t.withOps a b) ∧ t.done = true ∧ t.err = .none := by
  induction n generalizing dst count s with
  | zero => cases ran
  | succ n ih =>
    rw [Nat.succ_add]
    by_cases more : 4 * s.cursor < count
    · rw [bytesLoop_internal n internal seeded more] at ran
      rw [bytesLoop_internal (s := s.withOps a b) _ internal seeded more]
      exact ih (s := (s.drained dst).fillFromWell.refillDone) internal seeded ran
    · rw [bytesLoop_of_enough n (Nat.not_lt.mp more)] at ran
      rw [bytesLoop_of_enough (s := s.withOps a b) _ (Nat.not_lt.mp more)]
      cases ran
      exact ⟨rfl, rfl, rfl⟩

theorem opU32_ofNat {n : Nat} (small : n < 2 ^ 32) : opU32 (BitVec.ofNat 64 n) = n := by
  simp only [opU32, BitVec.extractLsb'_toNat, BitVec.toNat_ofNat, Nat.shiftRight_zero]
  omega

/-- Settles O35: seeded, the first round leads to the loop of the advanced operands, which completes on either side's
number of rounds; unseeded, the round aborts in its refill. -/
theorem bytesAcrossInternalRefills : Obligations.BytesAcrossInternalRefills := by
  rintro s _ _ wf internal rfl rfl range more
  refine ⟨(s.drained (opU32 s.op0)).hm, read_drained s _, fun seeded => ?seeded, fun unseeded => ?unseeded⟩
  case unseeded => exact (exec_bytes range).trans (bytesLoop_unseeded _ internal unseeded more)
  case seeded =>
    have countSmall : opU32 s.op1 < 2 ^ 32 := (s.op1.extractLsb' 0 32).isLt
    obtain ⟨dst, hDst⟩ : ∃ n, n = opU32 s.op0 + 4 * s.cursor := ⟨_, rfl⟩
    obtain ⟨count, hCount⟩ : ∃ n, n = opU32 s.op1 - 4 * s.cursor := ⟨_, rfl⟩
    obtain ⟨after, hAfter⟩ : ∃ t, t = (s.drained (opU32 s.op0)).fillFromWell.refillDone := ⟨_, rfl⟩
    have filled : after.cursor = s.cfg.words ∧ after.cfg = s.cfg ∧ after.seeded = true := by
      rw [hAfter]
      exact ⟨rfl, rfl, seeded⟩
    obtain ⟨cursor, cfg, seeded'⟩ := filled
    have internal' : after.cfg.provider = .well512 := cfg ▸ internal
    have words : 2 ≤ s.cfg.words := (words_pos wf).1
    obtain ⟨v, ran⟩ : Answers (bytesLoop (count + 1) dst count after) :=
      bytesLoop_answers (by rw [cfg]; omega) (.inr ⟨by omega, by omega⟩)
    have advanced := bytesLoop_withOps (BitVec.ofNat 64 dst) (BitVec.ofNat 64 count) internal' seeded' ran 1
    have whole := bytesLoop_withOps s.op0 s.op1 internal' seeded' ran (4 * s.cursor)
    rw [← hDst, ← hCount]
    refine ⟨v.withOps (BitVec.ofNat 64 dst) (BitVec.ofNat 64 count), ?_, advanced.2.1, advanced.2.2, ?_⟩
    · have opDst := opU32_ofNat (n := dst) (by omega)
      have opCount := opU32_ofNat (n := count) (by omega)
      rw [exec_bytes (by simp only [opDst, opCount]; omega)]
      simp only [opDst, opCount]
      subst hAfter
      exact advanced.1
    · have rounds : opU32 s.op1 + 1 = count + 1 + 4 * s.cursor := by omega
      rw [exec_bytes range, bytesFrom, bytesLoop_internal _ internal seeded more, rounds, ← hDst, ← hCount]
      subst hAfter
      exact whole.1

/-- Settles O36: by provider, where the refill returns, aborts or waits. -/
theorem refillReplacesTheBuffer : Obligations.RefillReplacesTheBuffer := by
  refine fun s => ⟨fun internal seeded => ?_, fun internal unseeded => ?_, fun external => ⟨.refill, ?_, fun _ => rfl⟩⟩
  · change (refill s).thenDo _ _ = _
    rw [refill_internal internal seeded]
    rfl
  · change (refill s).thenDo _ _ = _
    rw [refill_unseeded internal unseeded]
    rfl
  · change (refill s).thenDo _ _ = _
    rw [refill_external external]
    rfl

end Sys2Proof.Machine
end

section
/-! The draw commands with words or fields at hand (spec 40_word_engine.md R110 to R122), and runs of them. -/

namespace Sys2Proof.Machine

/-! ## Draws of words -/

/-- A draw that returns at once, then its completion. -/
theorem thenFinish_got {α : Type} {d : Draw α} {k : Frame} {f : α → Option DWord} {x : α} {t : State}
    (drawn : d = .got x t) : (d.thenDo k fun x s => finish (f x) s) = .next (t.complete (f x)) := by
  rw [drawn]
  rfl

theorem placeS32_toInt (w : Word) : placeS32 w.toInt = w.signExtend 64 := by rw [placeS32, BitVec.ofInt_toInt]

theorem placeS64_toInt (x : DWord) : placeS64 x.toInt = x := BitVec.ofInt_toInt

theorem placeUnsigned_toNat_dword (x : DWord) : placeUnsigned x.toNat = x := by
  rw [placeUnsigned, BitVec.ofNat_toNat, BitVec.setWidth_eq]

theorem exec_uint32_ready {s : State} (ready : 1 ≤ s.cursor) :
    exec .uint32 s = .next (({ s with cursor := s.cursor - 1 } : State).complete
      (some ((s.word (s.cursor - 1)).zeroExtend 64))) := by
  rw [← placeUnsigned_toNat]
  exact thenFinish_got (drawU32_ready ready)

/-- Settles O27: the draw takes the top word, and the two placements extend it. -/
theorem wordDrawsTakeTheTopWord : Obligations.WordDrawsTakeTheTopWord := by
  refine fun s ready => ⟨?_, exec_uint32_ready ready⟩
  refine (thenFinish_got (drawU32_ready ready)).trans ?_
  rw [placeS32_toInt]
  rfl

/-- Settles O28: the draw takes two words, and both placements keep the 64 bits. -/
theorem doubleDrawsTakeTwoWords : Obligations.DoubleDrawsTakeTwoWords := by
  rintro s i (rfl | rfl) ready
  · refine (thenFinish_got (drawU64_ready ready)).trans ?_
    rw [placeS64_toInt]
    rfl
  · refine (thenFinish_got (drawU64_ready ready)).trans ?_
    rw [placeUnsigned_toNat_dword]
    rfl

/-! ## Draws of fields -/

/-- The command that draws from a cache (R120 to R122). -/
def Cache.command : Cache → Instr
  | .bit => .bool
  | .byte => .byte
  | .short => .uint16

/-- R112: a field of a word, placed. -/
theorem placeUnsigned_field (w : Word) (j k : Nat) :
    placeUnsigned (w.toNat / 2 ^ j % 2 ^ k) = (w.extractLsb' j k).zeroExtend 64 := by
  rw [← Nat.shiftRight_eq_div_pow, ← BitVec.extractLsb'_toNat]
  exact BitVec.ofNat_toNat 64 _

theorem placeUnsigned_lowField (w : Word) (k : Nat) :
    placeUnsigned (w.toNat % 2 ^ k) = (w.extractLsb' 0 k).zeroExtend 64 := by
  have field := placeUnsigned_field w 0 k
  rwa [pow_zero, Nat.div_one] at field

theorem exec_cached {c : Cache} {s : State} (cached : 2 ^ c.width ≤ (s.cache c).toNat) :
    exec c.command s = .next ((s.setCache c (s.cache c >>> c.width)).complete
      (some (placeUnsigned ((s.cache c).toNat % 2 ^ c.width)))) := by
  cases c <;> exact thenFinish_got (drawSub_cached cached)

theorem exec_fresh {c : Cache} {s : State} (empty : (s.cache c).toNat < 2 ^ c.width) (ready : 1 ≤ s.cursor) :
    exec c.command s = .next ((({ s with cursor := s.cursor - 1 } : State).setCache c
        ((s.word (s.cursor - 1) >>> c.width) ||| (1#32 <<< (32 - c.width)))).complete
      (some (placeUnsigned ((s.word (s.cursor - 1)).toNat % 2 ^ c.width)))) := by
  cases c <;> exact thenFinish_got (drawSub_fresh empty ready)

/-- Settles O29: the three commands are one, on their caches. -/
theorem cachedFieldsComeFirst : Obligations.CachedFieldsComeFirst := by
  refine fun s => ⟨fun cached => ?_, fun cached => ?_, fun cached => ?_⟩
  · rw [← placeUnsigned_lowField]; exact exec_cached (c := .bit) cached
  · rw [← placeUnsigned_lowField]; exact exec_cached (c := .byte) cached
  · rw [← placeUnsigned_lowField]; exact exec_cached (c := .short) cached

/-- Settles O30: the three commands are one, on their caches; the sentinels are 1 shifted up by the other fields. -/
theorem freshFieldsSeedTheCache : Obligations.FreshFieldsSeedTheCache := by
  rintro s _ ready rfl
  refine ⟨fun empty => ?_, fun empty => ?_, fun empty => ?_⟩
  · rw [← placeUnsigned_lowField]; exact exec_fresh (c := .bit) empty ready
  · rw [← placeUnsigned_lowField]; exact exec_fresh (c := .byte) empty ready
  · rw [← placeUnsigned_lowField]; exact exec_fresh (c := .short) empty ready

/-! ## Runs of one command -/

theorem execAll_append {is js : List Instr} {s t : State} (ran : execAll is s = .next t) :
    execAll (is ++ js) s = execAll js t := by
  induction is generalizing s with
  | nil => cases ran; rfl
  | cons i is ih =>
    simp only [execAll, List.cons_append] at ran ⊢
    cases first : exec i s with
    | next u => rw [first] at ran; exact ih ran
    | fault r => rw [first] at ran; cases ran
    | refused r => rw [first] at ran; cases ran

theorem execAll_singleton (i : Instr) (s : State) : execAll [i] s = exec i s := by
  simp only [execAll]
  cases exec i s <;> rfl

/-- One more command at the end of a run. -/
theorem execAll_replicate_succ {n : Nat} {i : Instr} {s t : State} (ran : execAll (List.replicate n i) s = .next t) :
    execAll (List.replicate (n + 1) i) s = exec i t := by
  rw [List.replicate_succ', execAll_append ran, execAll_singleton]

/-- After `j + 1` draws from the word `w` the cache holds the fields above them under the sentinel. -/
theorem execAll_fields {c : Cache} {s : State} {w : Word} (empty : (s.cache c).toNat < 2 ^ c.width)
    (ready : 1 ≤ s.cursor) (top : w = s.word (s.cursor - 1)) (j : Nat) (fields : c.width * (j + 1) ≤ 32) :
    ∃ t, execAll (List.replicate (j + 1) c.command) s = .next t ∧
      t.res = (w.extractLsb' (c.width * j) c.width).zeroExtend 64 ∧ t.cursor = s.cursor - 1 ∧
      (t.cache c).toNat = w.toNat / 2 ^ (c.width * (j + 1)) + 2 ^ (32 - c.width * (j + 1)) := by
  have width : 1 ≤ c.width := by cases c <;> decide
  induction j with
  | zero =>
    refine ⟨_, (execAll_singleton _ s).trans (exec_fresh empty ready), ?_, ?_, ?_⟩
    · rw [complete_res, Option.getD_some, placeUnsigned_lowField, ← top, Nat.mul_zero]
    · simp
    · have cached := toNat_or_sentinel w c.width width (by omega)
      rw [top] at cached ⊢
      rw [zero_add, mul_one, ← cached]
      cases c <;> rfl
  | succ j ih =>
    rw [Nat.mul_add_one] at fields
    obtain ⟨t, ran, -, cursor, cache⟩ := ih (by omega)
    obtain ⟨a, hA⟩ : ∃ a, a = c.width * (j + 1) := ⟨_, rfl⟩
    rw [← hA] at cache fields
    have sentinel : 2 ^ (32 - a) = 2 ^ (32 - (a + c.width)) * 2 ^ c.width := by
      rw [← pow_add]
      congr 1
      omega
    have cached : 2 ^ c.width ≤ (t.cache c).toNat := by
      rw [cache]
      exact le_trans (Nat.pow_le_pow_right (by decide) (by omega)) (Nat.le_add_left _ _)
    refine ⟨_, (execAll_replicate_succ ran).trans (exec_cached cached), ?_, ?_, ?_⟩
    · rw [complete_res, Option.getD_some, cache, sentinel, Nat.add_mul_mod_self_right, placeUnsigned_field, hA]
    · simp [cursor]
    · have shifted : (t.cache c >>> c.width).toNat = w.toNat / 2 ^ (a + c.width) + 2 ^ (32 - (a + c.width)) := by
        rw [BitVec.toNat_ushiftRight, Nat.shiftRight_eq_div_pow, cache, sentinel,
          Nat.add_mul_div_right _ _ (by positivity), Nat.div_div_eq_div_mul, ← pow_add]
      rw [Nat.mul_add_one, ← hA, ← shifted]
      cases c <;> rfl

/-- Settles O31: a run of draws from one cache, for each of the three. -/
theorem oneWordGivesAllItsFields : Obligations.OneWordGivesAllItsFields := by
  intro s w ready top
  refine ⟨fun empty j below => ?_, fun empty j below => ?_, fun empty j below => ?_⟩
  · obtain ⟨t, ran, res, cursor, -⟩ := execAll_fields (c := .bit) empty ready top j (by simp only [Cache.width]; omega)
    exact ⟨t, ran, by simpa only [Cache.width, one_mul] using res, cursor⟩
  · obtain ⟨t, ran, res, cursor, -⟩ := execAll_fields (c := .byte) empty ready top j (by simp only [Cache.width]; omega)
    exact ⟨t, ran, res, cursor⟩
  · obtain ⟨t, ran, res, cursor, -⟩ := execAll_fields (c := .short) empty ready top j
      (by simp only [Cache.width]; omega)
    exact ⟨t, ran, res, cursor⟩

/-- Settles O32: by induction on the run; each command takes the word under the last. -/
theorem drawOrderIsTheReverseOfTheFill : Obligations.DrawOrderIsTheReverseOfTheFill := by
  intro s full j below
  induction j with
  | zero =>
    refine ⟨_, (execAll_singleton _ s).trans (exec_uint32_ready (by omega)), ?_, ?_, rfl⟩
    · rw [full]; rfl
    · rw [← full]; rfl
  | succ j ih =>
    obtain ⟨t, ran, -, cursor, buffer⟩ := ih (by omega)
    refine ⟨_, (execAll_replicate_succ ran).trans (exec_uint32_ready (by omega)), ?_, ?_, buffer⟩
    · rw [complete_res, Option.getD_some, State.word, cursor, buffer, Nat.sub_sub]
    · show t.cursor - 1 = _
      omega

end Sys2Proof.Machine
end

section
/-! The rejection sampler (spec 42_sampler.md R170 to R186): its plan, which SampleMax each command is, and
its draws. -/

namespace Sys2Proof.Machine

/-! ## The plan of SampleMax -/

theorem mx_lt_two_pow_64 {mx d : Nat} (domain : d = 32 ∨ d = 64) (fits : mx < 2 ^ d) : mx < 2 ^ 64 := by
  obtain rfl | rfl := domain <;> omega

/-- The plan, named by any width that is least. -/
theorem samplePlan_of_leastWidth {mx d : Nat} {w : DrawWidth} (domain : d = 32 ∨ d = 64) (fits : mx < 2 ^ d)
    (least : leastWidth mx w) : samplePlan mx d = ⟨w, usableDraws mx w, mx + 1⟩ := by
  rw [samplePlan_eq domain, leastWidth_unique least (chooseWidth_least (mx_lt_two_pow_64 domain fits))]

theorem leastWidth_bits_le {mx d : Nat} {w : DrawWidth} (domain : d = 32 ∨ d = 64) (fits : mx < 2 ^ d)
    (least : leastWidth mx w) : w.bits ≤ d := by
  obtain rfl | rfl := domain
  · exact least.2 .w32 fits
  · exact least.2 .w64 fits

/-- R172: every multiple of the count that a draw can reach is within the usable range. -/
theorem le_usableDraws {mx m : Nat} {w : DrawWidth} (multiple : m % (mx + 1) = 0) (reached : m ≤ 2 ^ w.bits) :
    m ≤ usableDraws mx w := by
  obtain ⟨q, rfl⟩ := Nat.dvd_of_mod_eq_zero multiple
  have most : q ≤ 2 ^ w.bits / (mx + 1) := (Nat.le_div_iff_mul_le (Nat.succ_pos mx)).mpr (by rwa [mul_comm])
  rw [usableDraws, mul_comm]
  exact Nat.mul_le_mul_right _ most

theorem usableDraws_le (mx : Nat) (w : DrawWidth) : usableDraws mx w ≤ 2 ^ w.bits := Nat.div_mul_le_self _ _

theorem count_le_usableDraws {mx : Nat} {w : DrawWidth} (covers : mx + 1 ≤ 2 ^ w.bits) : mx + 1 ≤ usableDraws mx w :=
  le_usableDraws (Nat.mod_self _) covers

/-- R172: fewer than half of the draws are rejected. -/
theorem lt_two_mul_usableDraws {mx : Nat} {w : DrawWidth} (covers : mx + 1 ≤ 2 ^ w.bits) :
    2 ^ w.bits < 2 * usableDraws mx w := by
  have count := count_le_usableDraws covers
  have rejected : 2 ^ w.bits % (mx + 1) < mx + 1 := Nat.mod_lt _ (Nat.succ_pos mx)
  have split : usableDraws mx w + 2 ^ w.bits % (mx + 1) = 2 ^ w.bits := Nat.div_add_mod' _ _
  omega

/-- Settles O44: the plan is the least width, the usable range of that width, and the count. -/
theorem samplePlanIsTheSpecs : Obligations.SamplePlanIsTheSpecs := by
  intro mx d domain fits
  have least := chooseWidth_least (mx_lt_two_pow_64 domain fits)
  have most := leastWidth_bits_le domain fits least
  rw [samplePlan_of_leastWidth domain fits least]
  refine ⟨rfl, least, most, rfl, fun m => le_usableDraws, count_le_usableDraws least.1, usableDraws_le mx _,
    lt_two_mul_usableDraws least.1, fun whole => le_antisymm most ?_⟩
  exact (Nat.pow_le_pow_iff_right Nat.one_lt_two).mp (whole ▸ least.1)

/-! ## The commands -/

/-- The answer is SampleMax(mx, D) added to `start`, and what that can return lies in the type. -/
structure SamplesFrom (a : Answer) (mx : Nat) (start : Int) (ty : IntType) (s : State) : Prop where
  eq : a = sampleMax mx start ty s
  fits : mx < 2 ^ ty.domain
  low : ty.least ≤ start
  high : start + mx ≤ ty.greatest

section Kinds

variable {ty : IntType} {s : State}

theorem rndCount_samples (count : 1 ≤ ty.read s.op0) :
    SamplesFrom (rndCount ty s) (ty.read s.op0 - 1).toNat 0 ty s := by
  have bounds := ty.read_bounds s.op0
  refine ⟨if_neg (Int.not_lt.mpr count), ?_, ?_, ?_⟩ <;>
    cases ty <;> simp only [IntType.domain, IntType.least, IntType.greatest] at * <;> omega

theorem rndRange_samples (range : ty.read s.op0 ≤ ty.read s.op1) :
    SamplesFrom (rndRange ty s) (ty.read s.op1 - ty.read s.op0).toNat (ty.read s.op0) ty s := by
  have start := ty.read_bounds s.op0
  have stop := ty.read_bounds s.op1
  refine ⟨if_neg (Int.not_lt.mpr range), ?_, ?_, ?_⟩ <;>
    cases ty <;> simp only [IntType.domain, IntType.least, IntType.greatest] at * <;> omega

theorem rndStartCount_samples (count : 1 ≤ ty.read s.op1) (top : ty.read s.op0 + ty.read s.op1 ≤ ty.greatest) :
    SamplesFrom (rndStartCount ty s) (ty.read s.op1 - 1).toNat (ty.read s.op0) ty s := by
  have start := ty.read_bounds s.op0
  refine ⟨(if_neg (Int.not_lt.mpr count)).trans (if_neg (Int.not_lt.mpr top)), ?_, ?_, ?_⟩ <;>
    cases ty <;> simp only [IntType.domain, IntType.least, IntType.greatest] at * <;> omega

theorem SamplesFrom.congr {a : Answer} {mx mx' : Nat} {start : Int} (h : SamplesFrom a mx start ty s)
    (same : mx = mx') : SamplesFrom a mx' start ty s := same ▸ h

end Kinds

/-- R173 to R186: with its operands in range a sampler command is SampleMax of its arguments. -/
theorem exec_samples {i : Instr} {s : State} {mx : Nat} {start : Int} {ty : IntType}
    (args : samplerArgs i s = some (mx, start, ty)) (inRange : ¬argError i s) :
    SamplesFrom (exec i s) mx start ty s := by
  have lim32 : opU32 s.op0 < 2 ^ 32 := (s.op0.extractLsb' 0 32).isLt
  have lim64 : opU64 s.op0 < 2 ^ 64 := s.op0.isLt
  cases i <;> cases args <;> simp only [argError, not_or, not_lt] at inRange
  case smpl32 => exact ⟨rfl, lim32, le_rfl, by simp only [IntType.greatest]; omega⟩
  case smpl64 => exact ⟨rfl, lim64, le_rfl, by simp only [IntType.greatest]; omega⟩
  case rndcntU32 =>
    exact (rndCount_samples (ty := .u32) (Int.ofNat_le.mpr inRange)).congr (by simp only [IntType.read]; omega)
  case rndcntS32 => exact rndCount_samples (ty := .s32) inRange
  case rndcntU64 =>
    exact (rndCount_samples (ty := .u64) (Int.ofNat_le.mpr inRange)).congr (by simp only [IntType.read]; omega)
  case rndcntS64 => exact rndCount_samples (ty := .s64) inRange
  case rndrngU32 =>
    exact (rndRange_samples (ty := .u32) (Int.ofNat_le.mpr inRange)).congr (by simp only [IntType.read]; omega)
  case rndrngS32 => exact rndRange_samples (ty := .s32) inRange
  case rndrngU64 =>
    exact (rndRange_samples (ty := .u64) (Int.ofNat_le.mpr inRange)).congr (by simp only [IntType.read]; omega)
  case rndrngS64 => exact rndRange_samples (ty := .s64) inRange
  case rndscU32 =>
    exact (rndStartCount_samples (ty := .u32) (Int.ofNat_le.mpr inRange.1)
      (by simp only [IntType.read, IntType.greatest]; omega)).congr (by simp only [IntType.read]; omega)
  case rndscS32 => exact rndStartCount_samples (ty := .s32) inRange.1 inRange.2
  case rndscU64 =>
    exact (rndStartCount_samples (ty := .u64) (Int.ofNat_le.mpr inRange.1)
      (by simp only [IntType.read, IntType.greatest]; omega)).congr (by simp only [IntType.read]; omega)
  case rndscS64 => exact rndStartCount_samples (ty := .s64) inRange.1 inRange.2

/-- The plan of a command's SampleMax, named by the least width. -/
theorem SamplesFrom.eq_sampleFrom {a : Answer} {mx : Nat} {start : Int} {ty : IntType} {s : State} {w : DrawWidth}
    (h : SamplesFrom a mx start ty s) (least : leastWidth mx w) :
    a = sampleFrom ⟨w, usableDraws mx w, mx + 1⟩ start ty s := by
  rw [h.eq, sampleMax, samplePlan_of_leastWidth ty.domain_cases h.fits least]

theorem accept_eq_some {p : SamplePlan} {x : Nat} (usable : x < p.usable) : p.accept x = some (x % p.count) :=
  if_pos usable

theorem accept_eq_none {p : SamplePlan} {x : Nat} (unusable : p.usable ≤ x) : p.accept x = none :=
  if_neg (Nat.not_lt.mpr unusable)

/-- What the loop accepts is a remainder by the count. -/
theorem lt_count_of_accept {p : SamplePlan} {x y : Nat} (count : 0 < p.count) (accepted : p.accept x = some y) :
    y < p.count := by
  unfold SamplePlan.accept at accepted
  split at accepted
  · cases accepted
    exact Nat.mod_lt _ count
  · cases accepted

/-- A loop whose first draw is accepted ends with it. -/
theorem retry_first {α β : Type} {draw : State → Draw α} {accept : α → Option β} {s t : State} {x : α} {y : β}
    (drawn : draw s = .got x t) (accepted : accept x = some y) : retry draw accept s.loopBound s = .got y t := by
  obtain ⟨n, rounds⟩ := loopBound_succ s
  simp only [rounds, retry, drawn, accepted]

/-- Settles O45: the loop's first draw is the raw draw, and it is accepted. -/
theorem samplersCompleteOnAnAcceptedDraw : Obligations.SamplersCompleteOnAnAcceptedDraw := by
  intro i s mx start ty w args inRange least ready usable
  rw [(exec_samples args inRange).eq_sampleFrom least]
  exact thenFinish_got (retry_first (drawWidth_ready ready) (accept_eq_some usable))

/-- Settles O46: the draws before the last are rejected, and the bound on the loop's rounds does not cut it short. -/
theorem samplersRedrawUntilAccepted : Obligations.SamplersRedrawUntilAccepted := by
  intro i s mx start ty w n f x inv args inRange least first draws rejected usable
  rw [(exec_samples args inRange).eq_sampleFrom least]
  exact thenFinish_got (retry_bound (drawWidth_ne_diverge w) (drawWidth_ok w) (drawWidth_alike w) inv.drawInv n f x
    first draws (fun j below => accept_eq_none (rejected j below)) (accept_eq_some usable))

/-- A draw, then its completion, that has completed with no error: the draw returned. -/
theorem thenFinish_completed {α : Type} {d : Draw α} {k : Frame} {f : α → Option DWord} {s t : State} (ok : d.Ok s)
    (ran : d.thenDo k (fun x s => finish (f x) s) = .next t) (noError : t.err = .none) (idle : t.cont = .idle) :
    ∃ x u, d = .got x u ∧ t = u.complete (f x) := by
  cases d with
  | got x u =>
    cases ran
    exact ⟨x, u, rfl, rfl⟩
  | wait u =>
    cases ran
    cases idle
  | abort e u =>
    obtain ⟨-, rfl, -⟩ := ok
    cases ran
    cases noError
  | diverge => cases ran

/-- Settles O47: the bounds are those of the command's SampleMax, and what its loop returns is below the count. -/
theorem sampledResultsLieInRange : Obligations.SampledResultsLieInRange := by
  intro i s t mx start ty args inRange
  have samples := exec_samples args inRange
  refine ⟨samples.low, samples.high, fun ran noError idle => ?_⟩
  rw [samples.eq] at ran
  obtain ⟨x, u, returned, completed⟩ := thenFinish_completed (retry_ok (drawWidth_ok _) _ _ s) ran noError idle
  obtain ⟨raw, accepted⟩ := retry_accepted returned
  have count := (samplePlan_spec ty.domain_cases samples.fits).1
  have below := lt_count_of_accept (by omega) accepted
  exact ⟨start + x, by omega, by omega, by rw [completed]; rfl⟩

end Sys2Proof.Machine
end

section
/-! A command whose next draw needs a refill (spec 40_word_engine.md R101, R103; 60_exceptions.md R246). -/

namespace Sys2Proof.Machine

/-! ## Bodies at a draw that refills -/

/-- How a body goes on whose next draw needs a refill, by provider: it waits in the frame `k`, it is the body on the
refilled state, or it aborts. -/
structure BodyRefills (B : State → Answer) (k : Frame) (s : State) : Prop where
  external : s.cfg.provider ≠ .well512 → B s = .next (s.startFill.suspend k)
  internal : s.cfg.provider = .well512 → s.seeded = true → B s = B s.fillFromWell.refillDone
  unseeded : s.cfg.provider = .well512 → s.seeded = false → B s = .next (s.abort true .unseeded)

theorem DrawRefills.thenDo {α : Type} {d : State → Draw α} {s : State} (h : DrawRefills d s) (k : Frame)
    (f : α → State → Answer) : BodyRefills (fun s => (d s).thenDo k f) k s where
  external hp := by simp only [h.external hp]; rfl
  internal hp hs := by simp only [h.internal hp hs]
  unseeded hp hs := by simp only [h.unseeded hp hs]; rfl

/-- What a command's body reads before its first draw: the latched operands and the spare. -/
structure SameInputs (s t : State) : Prop where
  op0 : t.op0 = s.op0
  op1 : t.op1 = s.op1
  spare : t.gaussSpare = s.gaussSpare

/-- From the inputs of `s` the command is a body that refills at its next draw, and its frame stands for that body. -/
def RefillsFirst (i : Instr) (s : State) : Prop :=
  ∃ (k : Frame) (B : State → Answer), BodyRefills B k s ∧ (∀ t, resume k t = B t) ∧ ∀ t, SameInputs s t → exec i t = B t

/-! ## The commands -/

/-- The argument check reads the operands only. -/
theorem argError_congr {s t : State} (inputs : SameInputs s t) (i : Instr) : argError i t = argError i s := by
  cases i <;> simp only [argError, inputs.op0, inputs.op1]

theorem samplerArgs_congr {s t : State} (inputs : SameInputs s t) (i : Instr) : samplerArgs i t = samplerArgs i s := by
  cases i <;> simp only [samplerArgs, inputs.op0, inputs.op1]

theorem execUdblRange_inRange {s : State} (inRange : ¬argError .udblRange s) :
    exec .udblRange s = udblRangeFrom s.op0 (fsub s.op1 s.op0) s.op1 s := by
  simp only [argError, not_or, not_not, Bool.not_eq_false] at inRange
  obtain ⟨⟨startFinite, stopFinite, below⟩, lenFinite⟩ := inRange
  change execUdblRange s = _
  simp [execUdblRange, startFinite, stopFinite, below, lenFinite]

theorem execUdblSlen_inRange {s : State} (inRange : ¬argError .udblSlen s) :
    exec .udblSlen s = udblSlenFrom s.op0 s.op1 s := by
  simp only [argError, not_not] at inRange
  obtain ⟨startFinite, lenFinite, nonneg⟩ := inRange
  change execUdblSlen s = _
  simp only [execUdblSlen, startFinite, lenFinite, nonneg]
  rfl

theorem execBinom_inRange {s : State} (inRange : ¬argError .binom s) :
    exec .binom s = binomFrom (opS32 s.op0).toNat 0 s.op1 s := by
  simp only [argError, not_or, not_lt, not_not] at inRange
  obtain ⟨count, nonneg, atMostOne⟩ := inRange
  change execBinom s = _
  simp only [execBinom, if_neg (not_lt.mpr count), oneF64, nonneg, atMostOne]
  rfl

theorem exec_gauss_empty {s : State} (empty : isNaN s.gaussSpare = true) :
    exec .gauss s = gaussFromU .plain s := by
  change gauss .plain s = _
  simp [gauss, empty]

theorem exec_gaussMs_empty {s : State} (empty : isNaN s.gaussSpare = true) :
    exec .gaussMs s = gaussFromU (.meanStd s.op0 s.op1) s := by
  change gauss (.meanStd s.op0 s.op1) s = _
  simp [gauss, empty]

/-- A sampler's loop starts with a raw draw of the least width. -/
theorem sampler_refillsFirst {i : Instr} {s : State} {mx : Nat} {start : Int} {ty : IntType}
    (args : samplerArgs i s = some (mx, start, ty)) (inRange : ¬argError i s) {w : DrawWidth}
    (least : leastWidth mx w) (words : 2 ≤ s.cfg.words) (notReady : ¬w.ready s) : RefillsFirst i s :=
  ⟨.sample ⟨w, usableDraws mx w, mx + 1⟩ start ty, sampleFrom ⟨w, usableDraws mx w, mx + 1⟩ start ty,
    (retry_refills (drawWidth_refills words notReady)).thenDo _ _, fun _ => rfl, fun t inputs =>
      (exec_samples ((samplerArgs_congr inputs i).trans args) (by rwa [argError_congr inputs])).eq_sampleFrom least⟩

/-- What `firstDrawRefills` says of a sampler command. -/
theorem sampler_of_firstDrawRefills {i : Instr} {s : State} {mx : Nat} {start : Int} {ty : IntType}
    (args : samplerArgs i s = some (mx, start, ty)) (refills : firstDrawRefills i s) :
    ¬argError i s ∧ ∃ w, leastWidth mx w ∧ ¬w.ready s := by
  cases i <;> cases args <;> exact refills

theorem binom_refillsFirst {s : State} (inRange : ¬argError .binom s) (trials : 1 ≤ opS32 s.op0)
    (words : 2 ≤ s.cfg.words) (short : s.cursor < 2) : RefillsFirst .binom s := by
  obtain ⟨n, count⟩ : ∃ n, (opS32 s.op0).toNat = n + 1 := ⟨(opS32 s.op0).toNat - 1, by omega⟩
  refine ⟨.binom (n + 1) 0 s.op1, binomFrom (n + 1) 0 s.op1, (uniformDouble_refills words short).thenDo _ _,
    fun _ => rfl, fun t inputs => ?_⟩
  rw [execBinom_inRange (by rwa [argError_congr inputs]), inputs.op0, inputs.op1, count]

theorem refillsFirst {i : Instr} {s : State} (words : 2 ≤ s.cfg.words) (refills : firstDrawRefills i s) :
    RefillsFirst i s := by
  cases args : samplerArgs i s with
  | some arg =>
    obtain ⟨inRange, w, least, notReady⟩ := sampler_of_firstDrawRefills args refills
    exact sampler_refillsFirst args inRange least words notReady
  | none =>
    have one : 1 ≤ s.cfg.words := by omega
    cases i with
    | int32 => exact ⟨.int32, exec .int32, (drawU32_refills one refills).thenDo _ _, fun _ => rfl, fun _ _ => rfl⟩
    | uint32 => exact ⟨.uint32, exec .uint32, (drawU32_refills one refills).thenDo _ _, fun _ => rfl, fun _ _ => rfl⟩
    | int64 => exact ⟨.int64, exec .int64, (drawU64_refills words refills).thenDo _ _, fun _ => rfl, fun _ _ => rfl⟩
    | uint64 => exact ⟨.uint64, exec .uint64, (drawU64_refills words refills).thenDo _ _, fun _ => rfl, fun _ _ => rfl⟩
    | bool =>
      exact ⟨.bool, exec .bool, (drawSub_refills (c := .bit) one refills.1 refills.2).thenDo _ _, fun _ => rfl,
        fun _ _ => rfl⟩
    | byte =>
      exact ⟨.byte, exec .byte, (drawSub_refills (c := .byte) one refills.1 refills.2).thenDo _ _, fun _ => rfl,
        fun _ _ => rfl⟩
    | uint16 =>
      exact ⟨.uint16, exec .uint16, (drawSub_refills (c := .short) one refills.1 refills.2).thenDo _ _, fun _ => rfl,
        fun _ _ => rfl⟩
    | udbl => exact ⟨.udbl, exec .udbl, (uniformDouble_refills words refills).thenDo _ _, fun _ => rfl, fun _ _ => rfl⟩
    | uflt => exact ⟨.uflt, exec .uflt, (uniformFloat_refills one refills).thenDo _ _, fun _ => rfl, fun _ _ => rfl⟩
    | udblRange =>
      exact ⟨_, udblRangeFrom s.op0 (fsub s.op1 s.op0) s.op1,
        (retry_refills (uniformDouble_refills words refills.2)).thenDo _ _, fun _ => rfl, fun t inputs => by
          rw [execUdblRange_inRange (by rw [argError_congr inputs]; exact refills.1), inputs.op0, inputs.op1]⟩
    | udblSlen =>
      exact ⟨_, udblSlenFrom s.op0 s.op1, (uniformDouble_refills words refills.2).thenDo _ _, fun _ => rfl,
        fun t inputs => by
          rw [execUdblSlen_inRange (by rw [argError_congr inputs]; exact refills.1), inputs.op0, inputs.op1]⟩
    | gauss =>
      exact ⟨_, gaussFromU .plain, (uniformDouble_refills words refills.2).thenDo _ _, fun _ => rfl,
        fun t inputs => exec_gauss_empty (inputs.spare ▸ refills.1)⟩
    | gaussMs =>
      exact ⟨_, gaussFromU (.meanStd s.op0 s.op1), (uniformDouble_refills words refills.2).thenDo _ _, fun _ => rfl,
        fun t inputs => by rw [exec_gaussMs_empty (inputs.spare ▸ refills.1), inputs.op0, inputs.op1]⟩
    | expo =>
      exact ⟨_, expoFrom .plain, (uniformDouble_refills words refills).thenDo _ _, fun _ => rfl, fun _ _ => rfl⟩
    | expoMean =>
      exact ⟨_, expoFrom (.mean s.op0), (uniformDouble_refills words refills).thenDo _ _, fun _ => rfl,
        fun t inputs => inputs.op0 ▸ rfl⟩
    | expoRate =>
      exact ⟨_, expoFrom (.rate s.op0), (uniformDouble_refills words refills).thenDo _ _, fun _ => rfl,
        fun t inputs => inputs.op0 ▸ rfl⟩
    | binom => exact binom_refillsFirst refills.1 refills.2.1 words refills.2.2
    | bytes => exact refills.elim
    | refill => exact refills.elim
    | w512Seed64 => exact refills.elim
    | w512Load => exact refills.elim
    | w512Next => exact refills.elim
    | poisson => exact refills.elim
    | _ => exact absurd args (Option.some_ne_none _)

/-- Settles O26: each such command is one body, its draw or its loop of draws first, whose frame is that body. -/
theorem aDrawRefillsFirst : Obligations.ADrawRefillsFirst := by
  intro i s wf refills
  obtain ⟨k, B, body, frame, command⟩ := refillsFirst (words_pos wf).1 refills
  have here := command s ⟨rfl, rfl, rfl⟩
  refine ⟨fun external => ⟨k, here.trans (body.external external), fun t op0 op1 spare => ?_⟩,
    fun internal seeded => ?_, fun internal unseeded => here.trans (body.unseeded internal unseeded)⟩
  · rw [frame, command t ⟨op0, op1, spare⟩]
  · have refilled := command s.fillFromWell.refillDone ⟨rfl, rfl, rfl⟩
    exact here.trans ((body.internal internal seeded).trans refilled.symm)

end Sys2Proof.Machine
end

section
/-! The uniform draws are exact (spec 43_distributions.md R201 to R204): `x / 2^(p + 1)` has a pattern of its own where
`x` has at most `p + 1` bits, `p` the format's fraction bits, so rounding leaves it. -/

namespace Sys2Proof.Machine

/-- The significand of `x`, its leading bit brought up to bit `p`. -/
def normalized (p x : Nat) : Nat := x * 2 ^ (p - Nat.log2 x)

section Fraction

variable {p x : Nat} (pos : 0 < x) (small : x < 2 ^ (p + 1))
include pos small

theorem log2_le_of_fraction : Nat.log2 x ≤ p := by
  have leading : 2 ^ Nat.log2 x < 2 ^ (p + 1) := lt_of_le_of_lt (Nat.log2_self_le pos.ne') small
  exact Nat.lt_succ_iff.mp ((Nat.pow_lt_pow_iff_right Nat.one_lt_two).mp leading)

theorem normalized_bounds : 2 ^ p ≤ normalized p x ∧ normalized p x < 2 ^ (p + 1) := by
  have most := log2_le_of_fraction pos small
  have low : 2 ^ Nat.log2 x ≤ x := Nat.log2_self_le pos.ne'
  have high : x < 2 ^ (Nat.log2 x + 1) := Nat.lt_log2_self
  have scale : 0 < 2 ^ (p - Nat.log2 x) := by positivity
  constructor
  · calc 2 ^ p = 2 ^ Nat.log2 x * 2 ^ (p - Nat.log2 x) := by rw [← pow_add]; congr 1; omega
      _ ≤ normalized p x := Nat.mul_le_mul_right _ low
  · calc normalized p x < 2 ^ (Nat.log2 x + 1) * 2 ^ (p - Nat.log2 x) := Nat.mul_lt_mul_of_pos_right high scale
      _ = 2 ^ (p + 1) := by rw [← pow_add]; congr 1; omega

/-- The normalized significand at its exponent is the fraction. -/
theorem normalized_value {e : Int} (exponent : e = (Nat.log2 x : Int) - (2 * p + 1)) :
    (normalized p x : ℚ) * 2 ^ e = x / 2 ^ (p + 1) := by
  have most := log2_le_of_fraction pos small
  have split : ((p - Nat.log2 x : Nat) : Int) + e = -((p + 1 : Nat) : Int) := by omega
  rw [normalized, Nat.cast_mul, Nat.cast_pow, Nat.cast_ofNat, mul_assoc, ← zpow_natCast (2 : ℚ) (p - Nat.log2 x),
    ← zpow_add₀ (by norm_num), split, zpow_neg, zpow_natCast, div_eq_mul_inv]

/-- Rounding a fraction of `p + 1` bits keeps every bit of it. -/
theorem round_fraction {f : FloatFormat} (mant : f.mant = p) {k : Nat}
    (exponent : (k : Int) = (Nat.log2 x : Int) - (2 * p + 1) - f.minExp)
    (fits : normalized p x + k * 2 ^ p ≤ f.infBits) :
    f.round x (-(p + 1)) false = normalized p x + k * 2 ^ p := by
  have most := log2_le_of_fraction pos small
  have lead : max ((Nat.log2 x : Int) + -(p + 1) - p) f.minExp = (Nat.log2 x : Int) - (2 * p + 1) := by omega
  have shift : (-((p : Int) + 1) - ((Nat.log2 x : Int) - (2 * p + 1))).toNat = p - Nat.log2 x := by omega
  have binade : ((Nat.log2 x : Int) - (2 * p + 1) - f.minExp).toNat = k := by omega
  have exact' : (Nat.log2 x : Int) - (2 * p + 1) ≤ -(p + 1) := by omega
  simp only [FloatFormat.round, mant, if_neg pos.ne', lead, shift, binade, if_pos exact']
  exact Nat.min_eq_left fits

end Fraction

/-! ## binary64 -/

/-- R201: a uniform double is x / 2^53, finite and of positive sign. -/
theorem uniformDoubleBits_exact {x : Nat} (small : x < 2 ^ 53) :
    isFinite (uniformDoubleBits x) = true ∧ fsign (uniformDoubleBits x) = false ∧
      frat (uniformDoubleBits x) = (x : ℚ) / 2 ^ 53 := by
  obtain rfl | pos := Nat.eq_zero_or_pos x
  · obtain ⟨finite, value⟩ := frat_zero false
    have zero : uniformDoubleBits 0 = fpack false 0 := by simp [uniformDoubleBits, FloatFormat.round]
    rw [zero]
    exact ⟨finite, fsign_fpack false (n := 0) (by norm_num), value.trans (by norm_num)⟩
  · have most := log2_le_of_fraction (p := 52) pos small
    obtain ⟨low, high⟩ := normalized_bounds (p := 52) pos small
    have minExp : binary64.minExp = -1074 := by decide
    have infBits : binary64.infBits = 2047 * 2 ^ 52 := by decide
    have fits : normalized 52 x + (Nat.log2 x + 969) * 2 ^ 52 < 2047 * 2 ^ 52 := by omega
    have bits : uniformDoubleBits x = fpack false (normalized 52 x + (Nat.log2 x + 969) * 2 ^ 52) := by
      have rounded := round_fraction (p := 52) (f := binary64) (k := Nat.log2 x + 969) pos small rfl
        (by rw [minExp]; push_cast; ring) (by rw [infBits]; exact fits.le)
      exact congrArg (fpack false) rounded
    rw [bits]
    refine ⟨?_, fsign_fpack false (by omega), ?_⟩
    · rw [isFinite_iff, fexp_fpack false (by omega)]
      omega
    · rw [frat_fpack false (by omega) (.inr low) (by omega), if_neg (by decide), one_mul]
      exact normalized_value (p := 52) pos small (by push_cast; ring)

theorem uniformAt_exact (s : State) (c : Nat) :
    isFinite (s.uniformAt c) = true ∧ fsign (s.uniformAt c) = false ∧
      frat (s.uniformAt c) = ((s.word c ++ s.word (c + 1)).toNat % 2 ^ 53 : Nat) / 2 ^ 53 :=
  uniformDoubleBits_exact (Nat.mod_lt _ (by positivity))

/-- A value that is no NaN is placed as it is (R208). -/
theorem canonical_of_not_nan {x : F64} (h : isNaN x = false) : canonical x = x := by simp [canonical, h]

/-- Settles O50: the command places the uniform double of the two words drawn, which is exact. -/
theorem uniformDoubleIsExact : Obligations.UniformDoubleIsExact := by
  rintro s _ ready rfl
  obtain ⟨finite, sign, value⟩ := uniformAt_exact s (s.cursor - 2)
  refine ⟨s.uniformAt (s.cursor - 2), ?_, rfl, finite, sign, ?_⟩
  · refine (thenFinish_got (uniformDouble_ready ready)).trans ?_
    rw [placeF64, canonical_of_not_nan (finite_flags finite).1]
    rfl
  · rw [show s.cursor - 2 + 1 = s.cursor - 1 by omega] at value
    exact value

/-! ## binary32 -/

theorem f32rat_of_normal {r : F32} {n k : Nat} (bits : r.toNat = n + k * 2 ^ 23) (low : 2 ^ 23 ≤ n)
    (high : n < 2 ^ 24) (exponent : k < 254) :
    r.getLsbD 31 = false ∧ r.toNat / 2 ^ 23 % 2 ^ 8 ≠ 255 ∧ f32rat r = n * 2 ^ ((k : Int) - 149) := by
  have sign : r.getLsbD 31 = false := by
    rw [BitVec.getLsbD, Nat.testBit_eq_decide_div_mod_eq, decide_eq_false_iff_not]
    omega
  have field : r.toNat / 2 ^ 23 % 2 ^ 8 = k + 1 := by omega
  have significand : r.toNat % 2 ^ 23 + 2 ^ 23 = n := by omega
  refine ⟨sign, by omega, ?_⟩
  simp only [f32rat, sign, field, significand, Bool.false_eq_true, if_false, one_mul, if_neg (Nat.succ_ne_zero k),
    Nat.max_eq_left (Nat.succ_pos k)]
  congr 2
  push_cast
  ring

/-- R203: a uniform float is x / 2^24, finite and of positive sign. -/
theorem uniformFloatBits_exact {x : Nat} (small : x < 2 ^ 24) :
    (uniformFloatBits x).getLsbD 31 = false ∧ (uniformFloatBits x).toNat / 2 ^ 23 % 2 ^ 8 ≠ 255 ∧
      f32rat (uniformFloatBits x) = (x : ℚ) / 2 ^ 24 := by
  obtain rfl | pos := Nat.eq_zero_or_pos x
  · have zero : uniformFloatBits 0 = 0 := rfl
    rw [zero]
    exact ⟨rfl, by decide, by simp [f32rat]⟩
  · have most := log2_le_of_fraction (p := 23) pos small
    obtain ⟨low, high⟩ := normalized_bounds (p := 23) pos small
    have minExp : binary32.minExp = -149 := by decide
    have infBits : binary32.infBits = 255 * 2 ^ 23 := by decide
    have bits : (uniformFloatBits x).toNat = normalized 23 x + (Nat.log2 x + 102) * 2 ^ 23 := by
      have rounded := round_fraction (p := 23) (f := binary32) (k := Nat.log2 x + 102) pos small rfl
        (by rw [minExp]; push_cast; ring) (by rw [infBits]; omega)
      rw [uniformFloatBits, BitVec.toNat_ofNat]
      refine (congrArg (· % 2 ^ 32) rounded).trans (Nat.mod_eq_of_lt (by omega))
    obtain ⟨sign, finite, value⟩ := f32rat_of_normal bits low high (by omega)
    exact ⟨sign, finite, value.trans (normalized_value (p := 23) pos small (by push_cast; ring))⟩

theorem uniformFloat_ready {s : State} (ready : 1 ≤ s.cursor) :
    uniformFloat s =
      .got (uniformFloatBits ((s.word (s.cursor - 1)).toNat % 2 ^ 24)) { s with cursor := s.cursor - 1 } := by
  rw [uniformFloat, drawU32_ready ready]
  rfl

/-- Settles O51: the command places the uniform float of the word drawn, which is exact. -/
theorem uniformFloatIsExact : Obligations.UniformFloatIsExact := by
  rintro s _ ready rfl
  exact ⟨_, thenFinish_got (uniformFloat_ready ready), uniformFloatBits_exact (Nat.mod_lt _ (by positivity))⟩

end Sys2Proof.Machine
end

section
/-! The distribution commands with words at hand (spec 43_distributions.md R205 to R223), and the loop of UDBL_RANGE. -/

namespace Sys2Proof.Machine

/-! ## UDBL_RANGE and UDBL_SLEN -/

/-- Settles O54: one uniform draw, scaled and placed. -/
theorem startLengthDoubleIsOneDraw : Obligations.StartLengthDoubleIsOneDraw := by
  intro s inRange ready
  rw [execUdblSlen_inRange inRange]
  exact thenFinish_got (uniformDouble_ready ready)

theorem not_nan_of_flt {a b : F64} (below : flt a b = true) : isNaN a = false := by
  simp only [flt, Bool.and_eq_true, Bool.not_eq_true'] at below
  exact below.1.1

theorem acceptBelow_eq_some {start len stop u : F64} (below : flt (scaledDouble len start u) stop = true) :
    acceptBelow start len stop u = some (scaledDouble len start u) :=
  if_pos below

theorem acceptBelow_eq_none {start len stop u : F64} (notBelow : flt (scaledDouble len start u) stop = false) :
    acceptBelow start len stop u = none :=
  if_neg (by simp [notBelow])

/-- R205: what the loop returns is below the end. -/
theorem flt_of_acceptBelow {start len stop u r : F64} (accepted : acceptBelow start len stop u = some r) :
    flt r stop = true := by
  unfold acceptBelow at accepted
  split at accepted
  case isTrue below => cases accepted; exact below
  case isFalse => cases accepted

/-- A value below the end is no NaN, so the command completes with it as it is. -/
theorem udblRangeFrom_returned {start len stop r : F64} {s t : State}
    (returned : retry uniformDouble (acceptBelow start len stop) s.loopBound s = .got r t)
    (below : flt r stop = true) : udblRangeFrom start len stop s = .next (t.complete (some r)) := by
  refine (thenFinish_got returned).trans ?_
  rw [placeF64, canonical_of_not_nan (not_nan_of_flt below)]

/-- Settles O52: the draws before the last are rejected, and the bound on the loop's rounds does not cut it short. -/
theorem rangedDoubleRedrawsUntilBelowTheEnd : Obligations.RangedDoubleRedrawsUntilBelowTheEnd := by
  intro s n f u r inv inRange first draws value rejected below
  rw [execUdblRange_inRange inRange]
  have scaled (j : Nat) : scaledDouble (fsub s.op1 s.op0) s.op0 (u j) = r j := (value j).symm
  have accepted := acceptBelow_eq_some (u := u n) (by rw [scaled n]; exact below)
  have returned := retry_bound uniformDouble_ne_diverge uniformDouble_ok uniformDouble_alike inv.drawInv n f u first
    draws (fun j before => acceptBelow_eq_none (by rw [scaled j]; exact rejected j before)) accepted
  rw [scaled n] at returned
  exact udblRangeFrom_returned returned below

/-- Settles O53: an acceptable first draw ends the loop, and no other value leaves it. -/
theorem rangedDoubleStaysBelowTheEnd : Obligations.RangedDoubleStaysBelowTheEnd := by
  intro s inRange
  rw [execUdblRange_inRange inRange]
  refine ⟨?_, fun t ran noError idle => ?_⟩
  · rintro _ ready rfl below
    exact udblRangeFrom_returned (retry_first (uniformDouble_ready ready) (acceptBelow_eq_some below)) below
  · obtain ⟨r, u, returned, -⟩ := thenFinish_completed (retry_ok uniformDouble_ok _ _ s) ran noError idle
    obtain ⟨v, accepted⟩ := retry_accepted returned
    have below := flt_of_acceptBelow accepted
    cases (udblRangeFrom_returned returned below).symm.trans ran
    exact below

/-! ## GAUSS and GAUSS_MS -/

theorem gauss_pending {s : State} (post : GaussPost) (pending : isNaN s.gaussSpare = false) :
    gauss post s =
      finish (some (placeF64 (post.apply s.gaussSpare))) { s with gaussSpare := canonicalNaN } := by
  simp [gauss, pending]

/-- Settles O55: a pending spare is no NaN, so GAUSS places it as it is. -/
theorem pendingSpareIsReturned : Obligations.PendingSpareIsReturned := by
  refine fun s pending => ⟨(gauss_pending .plain pending).trans ?_, gauss_pending (.meanStd s.op0 s.op1) pending⟩
  rw [GaussPost.apply, placeF64, canonical_of_not_nan pending]
  rfl

theorem thenDo_got {α : Type} {d : Draw α} {k : Frame} {f : α → State → Answer} {x : α} {t : State}
    (drawn : d = .got x t) : d.thenDo k f = f x t := by
  rw [drawn]
  rfl

/-- R210: two uniforms are drawn, u and then v from the words below. -/
theorem gaussFromU_ready {s : State} (post : GaussPost) (ready : 4 ≤ s.cursor) :
    gaussFromU post s =
      gaussPair (s.uniformAt (s.cursor - 2)) (s.uniformAt (s.cursor - 4)) post { s with cursor := s.cursor - 4 } := by
  have first := uniformDouble_ready (s := s) (by omega)
  have second := uniformDouble_ready (s := { s with cursor := s.cursor - 2 }) (by show 2 ≤ s.cursor - 2; omega)
  exact (thenDo_got first).trans (thenDo_got second)

/-- Settles O56: with no spare both commands make a fresh pair. -/
theorem freshPairLeavesASpare : Obligations.FreshPairLeavesASpare := by
  rintro s _ _ _ _ _ empty ready rfl rfl rfl rfl rfl
  exact ⟨(exec_gauss_empty empty).trans (gaussFromU_ready _ ready),
    (exec_gaussMs_empty empty).trans (gaussFromU_ready _ ready)⟩

/-! ## EXPO, EXPO_MEAN and EXPO_RATE -/

theorem expoFrom_ready {s : State} (post : ExpoPost) (ready : 2 ≤ s.cursor) :
    expoFrom post s = .next (({ s with cursor := s.cursor - 2 } : State).complete
      (some (canonical (post.apply (fneg (Config.fpLn (s.uniformAt (s.cursor - 2)))))))) :=
  thenFinish_got (uniformDouble_ready ready)

/-- Settles O57: the three commands are one draw, scaled as each scales it. -/
theorem exponentialIsMinusLn : Obligations.ExponentialIsMinusLn := by
  rintro s _ ready rfl
  exact ⟨expoFrom_ready .plain ready, expoFrom_ready (.mean s.op0) ready, expoFrom_ready (.rate s.op0) ready⟩

/-! ## BINOM -/

/-- How many of the `n` uniform doubles below cursor `c` are below `p`. -/
def State.successes (s : State) (c n : Nat) (p : F64) : Nat :=
  ((List.range n).filter fun j => flt (s.uniformAt (c - 2 * j - 2)) p).length

/-- The first trial, then the others from the words below. -/
theorem successes_succ (s : State) (c n : Nat) (p : F64) :
    s.successes c (n + 1) p = (if flt (s.uniformAt (c - 2)) p then 1 else 0) + s.successes (c - 2) n p := by
  have below (j : Nat) : c - 2 * (j + 1) - 2 = c - 2 - 2 * j - 2 := by omega
  simp only [State.successes, List.range_succ_eq_map, List.filter_cons, List.filter_map, Nat.mul_zero, Nat.sub_zero]
  split <;> simp [Function.comp_def, below, Nat.add_comm]

theorem binomFrom_ready {left k : Nat} {p : F64} {s : State} (ready : 2 * left ≤ s.cursor) :
    binomFrom left k p s = .next (({ s with cursor := s.cursor - 2 * left } : State).complete
      (some (placeUnsigned (k + s.successes s.cursor left p)))) := by
  induction left generalizing k s with
  | zero => rfl
  | succ left ih =>
    have first := uniformDouble_ready (s := s) (by omega)
    refine (thenDo_got first).trans ((ih (by show 2 * left ≤ s.cursor - 2; omega)).trans ?_)
    have cursor : s.cursor - 2 - 2 * left = s.cursor - 2 * (left + 1) := by omega
    have count : (if flt (s.uniformAt (s.cursor - 2)) p then k + 1 else k) + s.successes (s.cursor - 2) left p =
        k + s.successes s.cursor (left + 1) p := by
      rw [successes_succ]
      split <;> omega
    rw [← count, ← cursor]
    rfl

/-- Settles O58: the trials take the uniform doubles from the top of the buffer down. -/
theorem binomialCountsSuccesses : Obligations.BinomialCountsSuccesses := by
  intro s n inRange trials ready
  have count : (opS32 s.op0).toNat = n := by rw [trials, Int.toNat_natCast]
  rw [execBinom_inRange inRange, count, binomFrom_ready ready, Nat.zero_add]
  rfl

end Sys2Proof.Machine
end

section
/-! Single accesses (spec 20_memory.md R67, R70; 10_state.md R42, R47), and a whole fill through the port
(20_memory.md R61, R75; 40_word_engine.md R104). -/

namespace Sys2Proof.Machine

/-! ## One access -/

theorem perform_word_read (s : State) {off : Nat} (aligned : off % 4 = 0) :
    perform (.read .word (s.cfg.base + off)) s = .next { s with rdata := s.regRead off } := by
  refine (guardAccess_of_interface (by omega) _).trans ?_
  simp [State.readAt, offsetOf]

/-- Settles O5: the step performs the event at the head of the bus, one case per kind of event. -/
theorem eachAccessIsOneStep : Obligations.EachAccessIsOneStep := by
  intro s rest wf
  refine ⟨fun empty => by simp [step, wf, empty], fun off v aligned pending => ?_, fun off aligned pending => ?_,
    fun a v pending => ⟨Memory.write s.hm a.toNat v, step_of_bus_cons wf pending, fun b => ?_⟩⟩
  · exact (step_of_bus_cons wf pending).trans (perform_word_write { s with bus := rest } v aligned)
  · exact (step_of_bus_cons wf pending).trans (perform_word_read { s with bus := rest } aligned)
  · by_cases stored : b = a.toNat
    · rw [if_pos stored, stored, Memory.read_write_same]
    · rw [if_neg stored, Memory.read_write_other _ _ _ _ stored]

theorem setLo_halves (x : DWord) (v : Word) :
    (setLo x v).extractLsb' 0 32 = v ∧ (setLo x v).extractLsb' 32 32 = x.extractLsb' 32 32 :=
  ⟨BitVec.extractLsb'_append_eq_right, BitVec.extractLsb'_append_eq_left⟩

theorem setHi_halves (x : DWord) (v : Word) :
    (setHi x v).extractLsb' 32 32 = v ∧ (setHi x v).extractLsb' 0 32 = x.extractLsb' 0 32 :=
  ⟨BitVec.extractLsb'_append_eq_left, BitVec.extractLsb'_append_eq_right⟩

theorem regWrite_wstage (s : State) (v : Word) (k : Fin 16) :
    regWrite (0x40 + 4 * k.val) v s = .next { s with wstage := s.wstage.set k.val v } := by
  rw [regWrite_of_not_mem s v (by simp; omega), wstageIndex_wstage, Option.elim_some]

/-- Settles O9: a write to half an operand joins the new half to the old other half, and a staging write replaces one
word of the vector. -/
theorem operandWritesReplaceTheirHalf : Obligations.OperandWritesReplaceTheirHalf := by
  intro s v
  refine ⟨?readBack, ⟨_, rfl, setLo_halves s.arg0 v⟩, ⟨_, rfl, setHi_halves s.arg0 v⟩,
    ⟨_, rfl, setLo_halves s.arg1 v⟩, ⟨_, rfl, setHi_halves s.arg1 v⟩,
    fun k => ⟨_, regWrite_wstage s v k, ?staging, fun j => get_set_fin s.wstage k j v⟩⟩
  case readBack =>
    rintro off (rfl | rfl | rfl | rfl)
    · exact ⟨_, rfl, (setLo_halves s.arg0 v).1⟩
    · exact ⟨_, rfl, (setHi_halves s.arg0 v).1⟩
    · exact ⟨_, rfl, (setLo_halves s.arg1 v).1⟩
    · exact ⟨_, rfl, (setHi_halves s.arg1 v).1⟩
  case staging => rw [regRead_wstage, get_set_fin, if_pos rfl]

/-! ## A whole fill -/

/-- The state after a list of fill units, none of them the last. -/
def State.takeUnits (s : State) (vs : List Word) : State := vs.foldl State.takeUnit s

/-- Fill units touch the buffer and fill_count only. -/
theorem takeUnits_eq (s : State) (vs : List Word) :
    s.takeUnits vs = { s with buffer := (s.takeUnits vs).buffer, fillCount := s.fillCount + vs.length } := by
  induction vs generalizing s with
  | nil => rfl
  | cons v vs ih =>
    have length : s.fillCount + (v :: vs).length = (s.takeUnit v).fillCount + vs.length := by
      rw [takeUnit_fillCount, List.length_cons]
      omega
    rw [length]
    exact ih (s.takeUnit v)

@[simp] theorem takeUnits_buffer_length (s : State) (vs : List Word) :
    (s.takeUnits vs).buffer.length = s.buffer.length := by
  induction vs generalizing s with
  | nil => rfl
  | cons v vs ih => exact (ih (s.takeUnit v)).trans (bufferWithUnit_length s v)

/-- Where each unit replaces one place of a view of the buffer, it is there after all of them, and the places before the
first unit stand. -/
theorem takeUnits_view {γ : Type} {view : List Word → Nat → γ} {unit : Word → γ} {kind : ProviderKind}
    (lands : ∀ (s : State) (v : Word), s.cfg.provider = kind → s.buffer.length = s.cfg.words →
      s.fillCount < fillUnits s.cfg →
      ∀ k, view (s.bufferWithUnit v) k = if k = s.fillCount then unit v else view s.buffer k)
    {s : State} {vs : List Word} (provider : s.cfg.provider = kind) (length : s.buffer.length = s.cfg.words)
    (room : s.fillCount + vs.length ≤ fillUnits s.cfg) :
    (∀ j < s.fillCount, view (s.takeUnits vs).buffer j = view s.buffer j) ∧
      ∀ j < vs.length, view (s.takeUnits vs).buffer (s.fillCount + j) = unit (vs.getD j 0) := by
  induction vs generalizing s with
  | nil => exact ⟨fun _ _ => rfl, fun j below => absurd below (Nat.not_lt_zero j)⟩
  | cons v vs ih =>
    rw [List.length_cons] at room
    have landed := lands s v provider length (by omega)
    obtain ⟨before, after⟩ := ih (s := s.takeUnit v) provider ((bufferWithUnit_length s v).trans length)
      (by rw [takeUnit_fillCount, takeUnit_cfg]; omega)
    rw [takeUnit_fillCount] at before after
    refine ⟨fun j below => ?_, fun j below => ?_⟩
    · exact (before j (by omega)).trans ((landed j).trans (if_neg (by omega)))
    · cases j with
      | zero => exact (before s.fillCount (by omega)).trans ((landed _).trans (if_pos rfl))
      | succ j =>
        have shifted := after j (by simpa using below)
        rwa [Nat.add_assoc, Nat.add_comm 1 j] at shifted

/-- Under EXT_WORD the `j`-th unit is the `j`-th word after the units already there. -/
theorem takeUnits_word {s : State} {vs : List Word} (kind : s.cfg.provider = .extWord)
    (length : s.buffer.length = s.cfg.words) (room : s.fillCount + vs.length ≤ fillUnits s.cfg) :
    ∀ j < vs.length, (s.takeUnits vs).buffer.getD (s.fillCount + j) 0 = vs.getD j 0 :=
  (takeUnits_view (view := fun b k => b.getD k 0) (unit := id) (fun t v provider size more => by
    refine bufferWithUnit_getD_of_extWord v provider ?_
    simpa [fillUnits, provider, size] using more) kind length room).2

/-- Under EXT_BYTE the `j`-th unit is the `j`-th byte of the view after the units already there. -/
theorem takeUnits_byte {s : State} {vs : List Word} (kind : s.cfg.provider = .extByte)
    (length : s.buffer.length = s.cfg.words) (room : s.fillCount + vs.length ≤ fillUnits s.cfg) :
    ∀ j < vs.length, byteOf ((s.takeUnits vs).buffer.getD ((s.fillCount + j) / 4) 0) ((s.fillCount + j) % 4) =
      (vs.getD j 0).extractLsb' 0 8 :=
  (takeUnits_view (view := fun b k => byteOf (b.getD (k / 4) 0) (k % 4)) (unit := fun v => v.extractLsb' 0 8)
    (fun t v provider size more => by
      refine bufferWithUnit_byte_of_extByte v provider ?_
      simpa [fillUnits, provider, size] using more) kind length room).2

/-! ## The run of its writes -/

theorem runSteps_one (s : State) : runSteps 1 s = step s := by
  simp only [runSteps]
  cases step s <;> rfl

theorem runSteps_succ {n : Nat} {s t : State} (ran : step s = .next t) : runSteps (n + 1) s = runSteps n t := by
  simp only [runSteps, ran]

/-- The state with other accesses pending. -/
def State.withBus (s : State) (es : List Event) : State := { s with bus := es }

/-- The events of a list of FILL_DATA writes. -/
def fillWrites (c : Config) (vs : List Word) : List Event := vs.map fun v => .write .word (c.base + 0x28) v

theorem step_fillWrite {s : State} {v : Word} {es : List Event} (wf : s.cfg.wellFormed = true)
    (pending : s.bus = .write .word (s.cfg.base + 0x28) v :: es) : step s = writeFill v (s.withBus es) :=
  (step_of_bus_cons wf pending).trans (perform_word_write (s.withBus es) v (by decide))

/-- R104: the writes of a whole fill store their units, and the last one resumes the suspended body. -/
theorem runSteps_fill {s : State} {k : Frame} {vs : List Word} {rest : List Event} (wf : s.cfg.wellFormed = true)
    (waiting : s.cont = .suspended k) (refilling : s.refilling = true) (nonempty : vs ≠ [])
    (whole : s.fillCount + vs.length = fillUnits s.cfg) (pending : s.bus = fillWrites s.cfg vs ++ rest) :
    runSteps vs.length s = resume k ((s.withBus rest).takeUnits vs).refillDone := by
  induction vs generalizing s with
  | nil => exact absurd rfl nonempty
  | cons v vs ih =>
    have write := step_fillWrite wf pending
    cases vs with
    | nil => exact (runSteps_one s).trans (write.trans (writeFill_of_last v refilling whole waiting))
    | cons w ws =>
      simp only [List.length_cons] at whole
      have stored := write.trans (writeFill_of_more v (s := s.withBus _) refilling (by
        show s.fillCount + 1 ≠ fillUnits s.cfg
        omega))
      refine (runSteps_succ stored).trans (ih (s := (s.withBus _).takeUnit v) wf waiting refilling (by simp) ?_ rfl)
      show s.fillCount + 1 + (ws.length + 1) = fillUnits s.cfg
      omega

/-- What a whole fill leaves to the resumption. -/
theorem refillDone_takeUnits (s : State) (vs : List Word) :
    (s.takeUnits vs).refillDone =
      { s with
        buffer := (s.takeUnits vs).buffer, refilling := false, fillCount := 0, cursor := s.cfg.words,
        refills := s.refills + 1 } := by
  conv_lhs => rw [takeUnits_eq]
  rfl

/-- Settles O11: the units of a fill are all there after it, each at its index of the buffer or of its byte view. -/
theorem fillsArriveInOrder : Obligations.FillsArriveInOrder := by
  intro s k vs rest inv waiting noUnit pending
  have refilling : s.refilling = true := inv.refillCont.mpr (by simp [waiting])
  have positive := fillUnits_pos inv.cfgWf (inv.refillKind refilling)
  have run (whole : vs.length = fillUnits s.cfg) := runSteps_fill inv.cfgWf waiting refilling
    (List.ne_nil_of_length_pos (by omega)) (by omega) pending
  have emptyStart : (s.withBus rest).fillCount = 0 := noUnit
  have room (whole : vs.length = fillUnits s.cfg) : (s.withBus rest).fillCount + vs.length ≤ fillUnits s.cfg := by
    omega
  refine ⟨fun kind length => ?word, fun kind length => ?byte⟩
  case word =>
    have whole : vs.length = fillUnits s.cfg := by simp [fillUnits, kind, length]
    have landed := takeUnits_word (s := s.withBus rest) (vs := vs) kind inv.bufLen (room whole)
    have buffer : ((s.withBus rest).takeUnits vs).buffer = vs := by
      have size := (takeUnits_buffer_length (s.withBus rest) vs).trans (inv.bufLen.trans length.symm)
      refine List.ext_getElem size fun j inBuffer inList => ?_
      have here := landed j inList
      rwa [emptyStart, Nat.zero_add, List.getD_eq_getElem _ _ inBuffer, List.getD_eq_getElem _ _ inList] at here
    rw [← length, run whole, refillDone_takeUnits, buffer, length]
    rfl
  case byte =>
    have whole : vs.length = fillUnits s.cfg := by simp [fillUnits, kind, length]
    have landed := takeUnits_byte (s := s.withBus rest) (vs := vs) kind inv.bufLen (room whole)
    refine ⟨((s.withBus rest).takeUnits vs).buffer, (takeUnits_buffer_length _ vs).trans inv.bufLen,
      fun j below => ?_, ?_⟩
    · have here := landed j (by omega)
      rwa [emptyStart, Nat.zero_add] at here
    · rw [← length, run whole, refillDone_takeUnits]
      rfl

end Sys2Proof.Machine
end

section
/-! Runs of the Well512 unit (spec 41_well512.md R152 to R156). -/

namespace Sys2Proof.Machine

/-- The unit's output is the state word at its new index (R151). -/
theorem w512Next_output (w : Well) : (w512Next w).1 = (w512Next w).2.words.get (w512Next w).2.index := by
  simp only [w512Next, get_set_fin, if_true]

theorem w512Next_index (w : Well) : (w512Next w).2.index.val = (w.index.val + 15) % 16 := rfl

/-- A refill's words and unit along the sequence of units that successive calls leave. -/
theorem w512Generate_along {n : Nat} {at' : Nat → Well} (next : ∀ k, at' (k + 1) = (w512Next (at' k)).2) :
    (w512Generate n (at' 0)).2 = at' n ∧
      ∀ k < n, (w512Generate n (at' 0)).1.getD k 0 = (w512Next (at' k)).1 := by
  induction n generalizing at' with
  | zero => exact ⟨rfl, fun k below => absurd below (Nat.not_lt_zero k)⟩
  | succ n ih =>
    obtain ⟨last, outputs⟩ := ih (at' := fun k => at' (k + 1)) fun k => next (k + 1)
    simp only [w512Generate, ← next 0]
    refine ⟨last, fun k below => ?_⟩
    cases k with
    | zero => rfl
    | succ k => exact outputs k (by omega)

/-- Settles O38: by induction on the refill for its words, and on the calls for the index. -/
theorem generateGivesSuccessiveOutputs : Obligations.GenerateGivesSuccessiveOutputs := by
  rintro n _ at' rfl next
  obtain ⟨last, outputs⟩ := w512Generate_along (n := n) next
  refine ⟨w512Generate_length n _, last, outputs, fun k start => ⟨?_, by rw [next, ← w512Next_output]⟩⟩
  induction k with
  | zero => simp [start]
  | succ k ih =>
    rw [next, w512Next_index, ih]
    omega

/-! ## The all-zero state -/

/-- All state words are zero (R156). -/
def Well.Zero (w : Well) : Prop := ∀ k, w.words.get k = 0

theorem Well.Zero.next {w : Well} (zero : w.Zero) : (w512Next w).1 = 0 ∧ (w512Next w).2.Zero := by
  have words : ∀ k, w.words.get k = 0 := zero
  refine ⟨?_, fun k => ?_⟩ <;> simp [w512Next, words, get_set_fin]

theorem Well.Zero.generate {w : Well} (zero : w.Zero) (n : Nat) :
    (w512Generate n w).1 = List.replicate n 0 ∧ (w512Generate n w).2.Zero := by
  induction n generalizing w with
  | zero => exact ⟨rfl, zero⟩
  | succ n ih =>
    obtain ⟨output, zeroNext⟩ := zero.next
    obtain ⟨outputs, zeroLast⟩ := ih zeroNext
    exact ⟨by rw [w512Generate, output, outputs, List.replicate_succ], zeroLast⟩

/-- Settles O39: every value of the step is a combination of zeros, and W512_LOAD checks no word. -/
theorem zeroStateStaysZero : Obligations.ZeroStateStaysZero := by
  refine ⟨fun n w zero => ?_, fun s zero => ?_⟩
  · obtain ⟨output, zeroNext⟩ := Well.Zero.next zero
    obtain ⟨outputs, zeroLast⟩ := Well.Zero.generate zero n
    exact ⟨output, zeroNext, outputs, zeroLast⟩
  · refine ⟨_, exec_w512Load s, rfl, ?_, fun k => ?_⟩
    · simp
    · simpa using zero k

end Sys2Proof.Machine
end

section
/-! Every command under an external provider that answers with a Well512 unit's outputs, against the same command under
that unit (spec 40_word_engine.md R106). -/

namespace Sys2Proof.Machine

/-! ## Bodies -/

/-- A draw whose value becomes the result. -/
theorem endsAsUnit_thenFinish {α : Type} {d : State → Draw α} {k : Frame} {g : α → Option DWord}
    (follows : FollowsUnit d) (frame : ∀ t, resume k t = (d t).thenDo k fun x s => finish (g x) s) {s : State}
    (external : External s) (w : Well) (c : Cont) :
    EndsAsUnit (fun s => (d s).thenDo k fun x s => finish (g x) s) s w c :=
  endsAsUnit_thenDo follows frame (fun _ _ _ _ _ => endsAsUnit_finish _ _ _ _) s w c external

theorem asInternal_loopBound (s : State) (w : Well) (c : Cont) : (s.asInternal w c).loopBound = s.loopBound := rfl

section Bodies

variable {s : State} (external : External s) (w : Well) (c : Cont)
include external

theorem sampleFrom_endsAsUnit (p : SamplePlan) (start : Int) (ty : IntType) :
    EndsAsUnit (sampleFrom p start ty) s w c := by
  intro u ran
  rw [sampleFrom, asInternal_loopBound] at ran
  exact endsAsUnit_retry (k := .sample p start ty) (drawWidth_follows p.width) (fun _ => rfl)
    (fun _ _ _ _ _ => endsAsUnit_finish _ _ _ _) s.loopBound _ s w c external le_rfl le_rfl u ran

theorem sampleMax_endsAsUnit (mx : Nat) (start : Int) (ty : IntType) : EndsAsUnit (sampleMax mx start ty) s w c :=
  sampleFrom_endsAsUnit external w c (samplePlan mx ty.domain) start ty

theorem udblRangeFrom_endsAsUnit (start len stop : F64) : EndsAsUnit (udblRangeFrom start len stop) s w c := by
  intro u ran
  rw [udblRangeFrom, asInternal_loopBound] at ran
  exact endsAsUnit_retry (k := .udblRange start len stop) uniformDouble_follows (fun _ => rfl)
    (fun _ _ _ _ _ => endsAsUnit_finish _ _ _ _) s.loopBound _ s w c external le_rfl le_rfl u ran

theorem bytesFrom_endsAsUnit (dst count : Nat) : EndsAsUnit (bytesFrom dst count) s w c :=
  endsAsUnit_bytes (count + 2) (count + 2) dst count s w c external (Nat.succ_pos _)

theorem gaussFromV_endsAsUnit (u : F64) (post : GaussPost) : EndsAsUnit (gaussFromV u post) s w c :=
  endsAsUnit_thenDo uniformDouble_follows (fun _ => rfl) (fun _ t w c _ =>
    endsAsUnit_of_eq (t := t.setSpare _) ⟨rfl, rfl, rfl, rfl⟩ rfl rfl rfl (endsAsUnit_finish _ _ w c)) s w c external

theorem gaussFromU_endsAsUnit (post : GaussPost) : EndsAsUnit (gaussFromU post) s w c :=
  endsAsUnit_thenDo uniformDouble_follows (fun _ => rfl)
    (fun u _ w c external => gaussFromV_endsAsUnit external w c u post) s w c external

theorem gauss_endsAsUnit (post : GaussPost) : EndsAsUnit (gauss post) s w c := by
  cases spare : isNaN s.gaussSpare with
  | true =>
    have empty (t : State) (same : t.gaussSpare = s.gaussSpare) : gauss post t = gaussFromU post t := by
      simp [gauss, same, spare]
    exact endsAsUnit_of_eq (KeepsUnit.refl s) rfl (empty s rfl) (empty (s.asInternal w c) rfl)
      (gaussFromU_endsAsUnit external w c post)
  | false =>
    exact endsAsUnit_of_eq (t := { s with gaussSpare := canonicalNaN }) ⟨rfl, rfl, rfl, rfl⟩ rfl
      (gauss_pending post spare) (gauss_pending (s := s.asInternal w c) post spare) (endsAsUnit_finish _ _ w c)

theorem binomFrom_endsAsUnit (left k : Nat) (p : F64) : EndsAsUnit (binomFrom left k p) s w c := by
  induction left generalizing k s w c with
  | zero => exact endsAsUnit_finish _ s w c
  | succ left ih =>
    exact endsAsUnit_thenDo uniformDouble_follows (fun _ => rfl) (fun _ _ w c external => ih external w c _) s w c
      external

/-- REFILL waits for one fill, after which only its return is left. -/
theorem execRefill_endsAsUnit : EndsAsUnit execRefill s w c := by
  intro u ran
  have waits : execRefill s = .next (s.startFill.suspend .refill) := by
    rw [execRefill, refill_external external.1]
    rfl
  have returns : execRefill (s.asInternal w c) =
      finish none ((s.afterFill .refill w).asInternal (unitFill s w).2 c) := by
    rw [execRefill, refill_internal rfl rfl]
    rfl
  rw [waits]
  rw [returns] at ran
  exact Reaches.of_fill (t := s.afterFill .refill w) (KeepsUnit.refl s) ⟨rfl, rfl, rfl, rfl⟩ rfl
    (endsAsUnit_finish none _ _ c u ran)

/-! ## Every command -/

/-- With its operands in range. -/
theorem exec_endsAsUnit_inRange {i : Instr} (inRange : ¬argError i s) (notSeed64 : i ≠ .w512Seed64)
    (notLoad : i ≠ .w512Load) (notNext : i ≠ .w512Next) : EndsAsUnit (exec i) s w c := by
  have inputs : SameInputs s (s.asInternal w c) := ⟨rfl, rfl, rfl⟩
  have inRange' : ¬argError i (s.asInternal w c) := by rwa [argError_congr inputs]
  cases args : samplerArgs i s with
  | some arg =>
    obtain ⟨mx, start, ty⟩ := arg
    exact endsAsUnit_of_eq (KeepsUnit.refl s) rfl (exec_samples args inRange).eq
      (exec_samples ((samplerArgs_congr inputs i).trans args) inRange').eq
      (sampleMax_endsAsUnit external w c mx start ty)
  | none =>
    cases i with
    | int32 => exact endsAsUnit_thenFinish drawU32_follows (fun _ => rfl) external w c
    | uint32 => exact endsAsUnit_thenFinish drawU32_follows (fun _ => rfl) external w c
    | int64 => exact endsAsUnit_thenFinish drawU64_follows (fun _ => rfl) external w c
    | uint64 => exact endsAsUnit_thenFinish drawU64_follows (fun _ => rfl) external w c
    | bool => exact endsAsUnit_thenFinish (drawSub_follows .bit) (fun _ => rfl) external w c
    | byte => exact endsAsUnit_thenFinish (drawSub_follows .byte) (fun _ => rfl) external w c
    | uint16 => exact endsAsUnit_thenFinish (drawSub_follows .short) (fun _ => rfl) external w c
    | bytes =>
      have range : opU32 s.op0 + opU32 s.op1 ≤ 2 ^ 32 := not_lt.mp inRange
      exact endsAsUnit_of_eq (KeepsUnit.refl s) rfl (exec_bytes range) (exec_bytes (s := s.asInternal w c) range)
        (bytesFrom_endsAsUnit external w c (opU32 s.op0) (opU32 s.op1))
    | refill => exact execRefill_endsAsUnit external w c
    | w512Seed64 => exact absurd rfl notSeed64
    | w512Load => exact absurd rfl notLoad
    | w512Next => exact absurd rfl notNext
    | udbl => exact endsAsUnit_thenFinish uniformDouble_follows (fun _ => rfl) external w c
    | uflt => exact endsAsUnit_thenFinish uniformFloat_follows (fun _ => rfl) external w c
    | udblRange =>
      exact endsAsUnit_of_eq (KeepsUnit.refl s) rfl (execUdblRange_inRange inRange) (execUdblRange_inRange inRange')
        (udblRangeFrom_endsAsUnit external w c s.op0 (fsub s.op1 s.op0) s.op1)
    | udblSlen =>
      exact endsAsUnit_of_eq (R := udblSlenFrom s.op0 s.op1) (KeepsUnit.refl s) rfl (execUdblSlen_inRange inRange)
        (execUdblSlen_inRange inRange') (endsAsUnit_thenFinish uniformDouble_follows (fun _ => rfl) external w c)
    | gauss => exact gauss_endsAsUnit external w c .plain
    | gaussMs =>
      exact endsAsUnit_of_eq (R := gauss (.meanStd s.op0 s.op1)) (KeepsUnit.refl s) rfl rfl rfl
        (gauss_endsAsUnit external w c (.meanStd s.op0 s.op1))
    | expo => exact endsAsUnit_thenFinish (k := .expo .plain) uniformDouble_follows (fun _ => rfl) external w c
    | expoMean =>
      exact endsAsUnit_of_eq (R := expoFrom (.mean s.op0)) (KeepsUnit.refl s) rfl rfl rfl
        (endsAsUnit_thenFinish uniformDouble_follows (fun _ => rfl) external w c)
    | expoRate =>
      exact endsAsUnit_of_eq (R := expoFrom (.rate s.op0)) (KeepsUnit.refl s) rfl rfl rfl
        (endsAsUnit_thenFinish uniformDouble_follows (fun _ => rfl) external w c)
    | binom =>
      exact endsAsUnit_of_eq (KeepsUnit.refl s) rfl (execBinom_inRange inRange) (execBinom_inRange inRange')
        (binomFrom_endsAsUnit external w c (opS32 s.op0).toNat 0 s.op1)
    | poisson => exact endsAsUnit_raise .unsupported s w c
    | _ => exact absurd args (Option.some_ne_none _)

theorem exec_endsAsUnit {i : Instr} (notSeed64 : i ≠ .w512Seed64) (notLoad : i ≠ .w512Load)
    (notNext : i ≠ .w512Next) : EndsAsUnit (exec i) s w c := by
  by_cases out : argError i s
  · have out' : argError i (s.asInternal w c) := by
      rwa [argError_congr (t := s.asInternal w c) (s := s) ⟨rfl, rfl, rfl⟩]
    exact endsAsUnit_of_eq (KeepsUnit.refl s) rfl (exec_of_argError out) (exec_of_argError out')
      (endsAsUnit_raise .argRange s w c)
  · exact exec_endsAsUnit_inRange external w c out notSeed64 notLoad notNext

end Bodies

/-- What was reached under the external provider is what was reached under the unit, but for the unit and the
parameters. -/
theorem eq_of_asInternal {s t u : State} {w : Well} (reached : u = t.asInternal w .idle) (keeps : KeepsUnit s t)
    (idle : t.cont = .idle) :
    t = { u with cfg := s.cfg, wstate := s.wstate, windex := s.windex, seeded := s.seeded } := by
  rw [reached, ← keeps.cfg, ← keeps.wstate, ← keeps.windex, ← keeps.seeded]
  cases t
  cases idle
  rfl

/-- Settles O12: every such body ends under the external provider as under the unit, fill by fill. -/
theorem providerIsAnOracle : Obligations.ProviderIsAnOracle := by
  intro i s u w wf external notSeed64 notLoad notNext ran
  have ends := exec_endsAsUnit ⟨external, (words_pos wf).1⟩ w s.cont notSeed64 notLoad notNext
  obtain ⟨n, t, answered, reached, keeps, refills, idle, done⟩ := ends u ran
  refine ⟨n, by rw [reached]; exact refills, by rw [reached]; rfl, by rw [reached]; exact done, ?_⟩
  rw [answered, ← eq_of_asInternal reached keeps idle]

end Sys2Proof.Machine
end

section
/-! Comparison and arithmetic are those of the values (spec 43_distributions.md R200; 00_scope.md R15): each operation,
class of operands by class. -/

namespace Sys2Proof.Machine

/-! ## Classes of operands -/

/-- The comparison key of an infinity, and the bound of every finite key. -/
def infKey : Int := 2047 * 2 ^ 52

theorem magnitude_eq (x : F64) : x.toNat % 2 ^ 63 = fexp x * 2 ^ 52 + ffrac x := by
  unfold fexp ffrac
  omega

theorem forder_of_inf {x : F64} (inf : isInf x = true) : forder x = if fsign x then -infKey else infKey := by
  simp only [isInf, Bool.and_eq_true, decide_eq_true_eq] at inf
  have magnitude := magnitude_eq x
  rw [inf.1, inf.2] at magnitude
  rw [forder, magnitude]
  rfl

theorem forder_of_finite {x : F64} (finite : isFinite x = true) : -infKey < forder x ∧ forder x < infKey := by
  have exponent := isFinite_iff.mp finite
  have exponentLt := fexp_lt x
  have fractionLt := ffrac_lt x
  have magnitude := magnitude_eq x
  unfold forder infKey
  split <;> omega

theorem class_cases (x : F64) : isNaN x = true ∨ isInf x = true ∨ isFinite x = true := by
  simp only [isNaN, isInf, isFinite, Bool.and_eq_true, decide_eq_true_eq]
  by_cases top : fexp x = 2047 <;> by_cases zero : ffrac x = 0 <;> simp [top, zero]

/-! ## Comparison -/

theorem flt_eq {a b : F64} (left : isNaN a = false) (right : isNaN b = false) :
    flt a b = decide (forder a < forder b) := by
  simp [flt, left, right]

theorem fle_eq {a b : F64} (left : isNaN a = false) (right : isNaN b = false) :
    fle a b = decide (forder a ≤ forder b) := by
  simp [fle, left, right]

theorem forder_le_iff (a b : F64) : forder a ≤ forder b ↔ frat a ≤ frat b := by
  rw [← not_lt, forder_lt_iff, not_lt]

/-- A finite value lies below +∞ and above −∞. -/
theorem compare_finite_inf {a b : F64} (finite : isFinite a = true) (inf : isInf b = true) :
    flt a b = !fsign b ∧ fle a b = !fsign b ∧ flt b a = fsign b ∧ fle b a = fsign b := by
  have left := (finite_flags finite).1
  have right := (inf_flags inf).1
  have bound := forder_of_finite finite
  rw [flt_eq left right, fle_eq left right, flt_eq right left, fle_eq right left, forder_of_inf inf]
  cases fsign b <;> simp <;> omega

theorem compare_inf_inf {a b : F64} (left : isInf a = true) (right : isInf b = true) :
    flt a b = (fsign a && !fsign b) ∧ fle a b = (fsign a || !fsign b) := by
  rw [flt_eq (inf_flags left).1 (inf_flags right).1, fle_eq (inf_flags left).1 (inf_flags right).1,
    forder_of_inf left, forder_of_inf right]
  cases fsign a <;> cases fsign b <;> decide

/-- Settles O48: the comparison key orders finite patterns as their values, and an infinity's key bounds theirs. -/
theorem comparisonOrdersTheValues : Obligations.ComparisonOrdersTheValues := by
  intro a b
  refine ⟨fun left right => ?finite, fun nan => ?nan, compare_finite_inf, compare_inf_inf⟩
  case finite =>
    rw [flt_eq (finite_flags left).1 (finite_flags right).1, fle_eq (finite_flags left).1 (finite_flags right).1,
      decide_eq_true_eq, decide_eq_true_eq]
    exact ⟨forder_lt_iff a b, forder_le_iff a b⟩
  case nan =>
    obtain nan | nan := nan
    · simp [flt, fle, nan]
    · simp [flt, fle, nan]

/-! ## Sums -/

theorem fadd_of_nan {a b : F64} (nan : isNaN a = true ∨ isNaN b = true) : fadd a b = canonicalNaN := by
  simp only [fadd, Bool.or_eq_true, nan, if_true]

/-- The exact sum of two finite values as an integer on the finer of their grids. -/
def sumOnGrid (a b : F64) : Int :=
  signedScaled (fsign a) (fmant a) (fscale a - min (fscale a) (fscale b)).toNat +
    signedScaled (fsign b) (fmant b) (fscale b - min (fscale a) (fscale b)).toNat

theorem fadd_of_finite {a b : F64} (left : isFinite a = true) (right : isFinite b = true) :
    fadd a b =
      if sumOnGrid a b = 0 then fpack (fsign a && fsign b) 0
      else fpack (decide (sumOnGrid a b < 0))
        (binary64.round (sumOnGrid a b).natAbs (min (fscale a) (fscale b)) false) := by
  simp only [fadd, finite_flags left, finite_flags right, Bool.or_self, Bool.false_eq_true, if_false]
  rfl

theorem frat_add (a b : F64) : (frat a : ℝ) + frat b = sumOnGrid a b * 2 ^ min (fscale a) (fscale b) := by
  rw [frat_signedScaled a (min_le_left _ (fscale b)), frat_signedScaled b (min_le_right (fscale a) _), sumOnGrid,
    Int.cast_add, add_mul]

theorem sumOnGrid_eq_zero_iff (a b : F64) : sumOnGrid a b = 0 ↔ frat a = -frat b := by
  have scale : (2 : ℝ) ^ min (fscale a) (fscale b) ≠ 0 := by positivity
  have zero : (frat a : ℝ) + frat b = 0 ↔ sumOnGrid a b = 0 := by
    rw [frat_add, mul_eq_zero, or_iff_left scale, Int.cast_eq_zero]
  rw [← zero, eq_neg_iff_add_eq_zero]
  norm_cast

/-- An integer of either sign, rounded. -/
theorem round_natAbs (x : Int) (e : Int) :
    roundsTo (x * 2 ^ e) (fpack (decide (x < 0)) (binary64.round x.natAbs e false)) := by
  have rounded := round_exact (decide (x < 0)) x.natAbs e
  by_cases negative : x < 0
  · have magnitude : ((x.natAbs : Nat) : ℝ) = -x := by
      rw [Nat.cast_natAbs, abs_of_neg negative, Int.cast_neg]
    simpa [negative, magnitude] using rounded
  · have magnitude : ((x.natAbs : Nat) : ℝ) = x := by
      rw [Nat.cast_natAbs, abs_of_nonneg (not_lt.mp negative)]
    simpa [negative, magnitude] using rounded

theorem isSum_fadd (a b : F64) : IsSum false a b (fadd a b) where
  nan nan := by rw [fadd_of_nan nan]; exact isNaN_canonicalNaN
  rounded left right := by
    rw [if_neg (by decide), frat_add, fadd_of_finite left right]
    split
    case isTrue zero =>
      rw [zero, Int.cast_zero, zero_mul]
      exact roundsTo_zero (frat_zero _).1 (frat_zero _).2
    case isFalse => exact round_natAbs _ _
  zeroSign left right zero := by
    rw [if_neg (by decide), ← sumOnGrid_eq_zero_iff] at zero
    rw [fadd_of_finite left right, if_pos zero, fsign_fpack _ (by norm_num)]
    simp
  infLeft left right := by simp [fadd, inf_flags left, left, finite_flags right]
  infRight left right := by
    have value : fadd a b = b := by simp [fadd, inf_flags right, right, finite_flags left]
    simp [value, right]
  infSame left right same := by
    have sameSign : fsign a = fsign b := by simpa using same
    simp [fadd, inf_flags left, inf_flags right, left, right, sameSign]
  invalid left right opposite := by
    have otherSign : fsign a ≠ fsign b := by simpa using opposite
    have value : fadd a b = canonicalNaN := by
      simp [fadd, inf_flags left, inf_flags right, left, right, otherSign]
    rw [value]
    exact isNaN_canonicalNaN

theorem fneg_class (b : F64) :
    isNaN (fneg b) = isNaN b ∧ isInf (fneg b) = isInf b ∧ isFinite (fneg b) = isFinite b := by
  obtain ⟨-, exponent, fraction⟩ := fneg_parts b
  simp only [isNaN, isInf, isFinite, exponent, fraction, and_self]

/-- A difference is the sum with the negated operand, class by class. -/
theorem isSum_fsub (a b : F64) : IsSum true a b (fsub a b) := by
  have sum := isSum_fadd a (fneg b)
  obtain ⟨nan, inf, finite⟩ := fneg_class b
  have sign : (fsign (fneg b) != false) = (fsign b != true) := by rw [(fneg_parts b).1]; cases fsign b <;> rfl
  have value : frat (fneg b) = -frat b := fneg_value b
  obtain ⟨ofNaN, rounded, zeroSign, infLeft, infRight, infSame, invalid⟩ := sum
  rw [nan] at ofNaN
  rw [finite, value] at rounded
  rw [finite, value, sign] at zeroSign
  rw [finite] at infLeft
  rw [inf, sign] at infRight infSame invalid
  refine ⟨ofNaN, fun left right => ?_, fun left right zero => ?_, infLeft, infRight, infSame, invalid⟩
  · simpa [fsub, sub_eq_add_neg] using rounded left right
  · exact zeroSign left right (by simpa using zero)

end Sys2Proof.Machine
end

section
/-! Products, quotients and roots are IEEE 754's (spec 43_distributions.md R200; 00_scope.md R15), class of operands by
class, and with them all arithmetic. -/

namespace Sys2Proof.Machine

/-! ## Values and signs of results -/

/-- The magnitude of a finite value, as a real number. -/
noncomputable def fabs (a : F64) : ℝ := fmant a * 2 ^ fscale a

theorem frat_eq_signed (a : F64) : (frat a : ℝ) = if fsign a then -fabs a else fabs a := by
  unfold frat fabs
  cases fsign a <;> simp

/-- The rounded magnitude bits stay within those of infinity, so packing keeps the sign and gives no NaN. -/
theorem fsign_fpack_round (sg : Bool) (m : Nat) (e : Int) (sticky : Bool) :
    fsign (fpack sg (binary64.round m e sticky)) = sg :=
  fsign_fpack sg (lt_of_le_of_lt (round_le m e sticky) (by norm_num))

theorem isNaN_finf (sg : Bool) : isNaN (finf sg) = false := isNaN_fpack sg le_rfl

theorem fmant_beq_zero (a : F64) : (fmant a == 0) = decide (frat a = 0) := by
  rw [Bool.beq_eq_decide_eq, decide_eq_decide, frat_eq_zero_iff]

/-! ## Products -/

theorem fmul_of_nan {a b : F64} (nan : isNaN a = true ∨ isNaN b = true) : fmul a b = canonicalNaN := by
  simp only [fmul, Bool.or_eq_true, nan, if_true]

theorem fmul_of_finite {a b : F64} (left : isFinite a = true) (right : isFinite b = true) :
    fmul a b =
      fpack (fsign a != fsign b) (binary64.round (fmant a * fmant b) (fscale a + fscale b) false) := by
  simp [fmul, finite_flags left, finite_flags right]

/-- With an infinity among the operands a product is infinite, unless the other operand is a zero. -/
theorem fmul_of_inf {a b : F64} (left : isNaN a = false) (right : isNaN b = false)
    (inf : isInf a = true ∨ isInf b = true) :
    fmul a b =
      if (isFinite a = true ∧ frat a = 0) ∨ (isFinite b = true ∧ frat b = 0) then canonicalNaN
      else finf (fsign a != fsign b) := by
  simp [fmul, left, right, inf, fmant_beq_zero]

theorem fmul_infinite {a b : F64} (left : isNaN a = false) (right : isNaN b = false)
    (inf : isInf a = true ∨ isInf b = true)
    (noZero : ¬((isFinite a = true ∧ frat a = 0) ∨ (isFinite b = true ∧ frat b = 0))) :
    isInf (fmul a b) = true := by
  rw [fmul_of_inf left right inf, if_neg noZero]
  exact isInf_finf _

/-- A value with the exclusive or of two signs. -/
theorem signs_mul (p q : Bool) (x y : ℝ) :
    (if p then -x else x) * (if q then -y else y) = if p != q then -(x * y) else x * y := by
  cases p <;> cases q <;> simp

theorem isProduct_fmul (a b : F64) : IsProduct a b (fmul a b) where
  nan nan := by rw [fmul_of_nan nan]; exact isNaN_canonicalNaN
  rounded left right := by
    have value : fabs a * fabs b = (fmant a * fmant b : Nat) * 2 ^ (fscale a + fscale b) := by
      rw [fabs, fabs, zpow_add₀ (by norm_num)]
      push_cast
      ring
    rw [fmul_of_finite left right, frat_eq_signed, frat_eq_signed, signs_mul, value]
    exact round_exact _ _ _
  infLeft left right := by
    have notFinite := (inf_flags left).2
    refine fmul_infinite (inf_flags left).1 ?_ (.inl left) ?_
    · exact right.elim (fun inf => (inf_flags inf).1) fun finite => (finite_flags finite.1).1
    · obtain inf | ⟨-, nonzero⟩ := right
      · simp [notFinite, inf_flags inf]
      · simp [notFinite, nonzero]
  infRight left nonzero right := by
    refine fmul_infinite (finite_flags left).1 (inf_flags right).1 (.inr right) ?_
    simp [nonzero, inf_flags right]
  invalid zero := by
    obtain ⟨left, right, rest⟩ | ⟨left, rest, right⟩ := zero
    · rw [fmul_of_inf (inf_flags left).1 (finite_flags right).1 (.inl left), if_pos (.inr ⟨right, rest⟩)]
      exact isNaN_canonicalNaN
    · rw [fmul_of_inf (finite_flags left).1 (inf_flags right).1 (.inr right), if_pos (.inl ⟨left, rest⟩)]
      exact isNaN_canonicalNaN
  sign number := by
    by_cases nan : isNaN a = true ∨ isNaN b = true
    · rw [fmul_of_nan nan, isNaN_canonicalNaN] at number
      cases number
    · simp only [not_or, Bool.not_eq_true] at nan
      by_cases inf : isInf a = true ∨ isInf b = true
      · rw [fmul_of_inf nan.1 nan.2 inf] at number ⊢
        split at number
        case isTrue => rw [isNaN_canonicalNaN] at number; cases number
        case isFalse noZero => rw [if_neg noZero, fsign_finf]
      · have left : isFinite a = true := by have := class_cases a; simp_all
        have right : isFinite b = true := by have := class_cases b; simp_all
        rw [fmul_of_finite left right]
        exact fsign_fpack_round _ _ _ _

/-! ## Quotients -/

theorem fdiv_of_nan {a b : F64} (nan : isNaN a = true ∨ isNaN b = true) : fdiv a b = canonicalNaN := by
  simp only [fdiv, Bool.or_eq_true, nan, if_true]

theorem fdiv_inf_finite {a b : F64} (left : isInf a = true) (right : isFinite b = true) :
    fdiv a b = finf (fsign a != fsign b) := by
  simp [fdiv, left, inf_flags left, finite_flags right]

theorem fdiv_inf_inf {a b : F64} (left : isInf a = true) (right : isInf b = true) : fdiv a b = canonicalNaN := by
  simp [fdiv, left, right, inf_flags left, inf_flags right]

theorem fdiv_finite_inf {a b : F64} (left : isFinite a = true) (right : isInf b = true) :
    fdiv a b = fpack (fsign a != fsign b) 0 := by
  simp [fdiv, right, finite_flags left, inf_flags right]

theorem fdiv_zero {a b : F64} (left : isFinite a = true) (right : isFinite b = true) (zero : frat b = 0) :
    fdiv a b = if frat a = 0 then canonicalNaN else finf (fsign a != fsign b) := by
  simp [fdiv, finite_flags left, finite_flags right, frat_eq_zero_iff, (frat_eq_zero_iff b).mp zero]

theorem fdiv_of_finite {a b : F64} (left : isFinite a = true) (right : isFinite b = true) (nonzero : fmant b ≠ 0) :
    fdiv a b =
      fpack (fsign a != fsign b) (binary64.round (fmant a * 2 ^ 110 / fmant b) (fscale a - fscale b - 110)
        (decide (fmant a * 2 ^ 110 % fmant b ≠ 0))) := by
  simp [fdiv, finite_flags left, finite_flags right, nonzero]

/-- A quotient of naturals lies from its integer part up, above it exactly when there is a remainder. -/
theorem div_real_bounds {n d : Nat} (pos : 0 < d) :
    ((n / d : Nat) : ℝ) ≤ n / d ∧ (n : ℝ) / d < (n / d : Nat) + 1 ∧ (n % d ≠ 0 ↔ ((n / d : Nat) : ℝ) < n / d) := by
  have posReal : (0 : ℝ) < d := by exact_mod_cast pos
  have split : (n : ℝ) = d * (n / d : Nat) + (n % d : Nat) := by exact_mod_cast (Nat.div_add_mod n d).symm
  have value : (n : ℝ) / d = (n / d : Nat) + (n % d : Nat) / d := by
    conv_lhs => rw [split]
    field_simp
  have remainder : ((n % d : Nat) : ℝ) / d < 1 := by
    rw [div_lt_one posReal]
    exact_mod_cast Nat.mod_lt n pos
  have nonneg : 0 ≤ ((n % d : Nat) : ℝ) / d := by positivity
  refine ⟨by linarith, by linarith, ?_⟩
  rw [value, lt_add_iff_pos_right, div_pos_iff_of_pos_right posReal, Nat.cast_pos, Nat.pos_iff_ne_zero]

/-- The quotient's magnitude, rounded once (the integer part has 57 bits at least, the sticky bit the rest). -/
theorem round_quotient (sg : Bool) {a b : F64} (nonzero : fmant b ≠ 0) :
    roundsTo (if sg then -(fabs a / fabs b) else fabs a / fabs b)
      (fpack sg (binary64.round (fmant a * 2 ^ 110 / fmant b) (fscale a - fscale b - 110)
        (decide (fmant a * 2 ^ 110 % fmant b ≠ 0)))) := by
  have pos : 0 < fmant b := Nat.pos_of_ne_zero nonzero
  have posReal : (0 : ℝ) < fmant b := by exact_mod_cast pos
  have small : fmant b < 2 ^ 53 := fmant_lt b
  obtain ⟨e, exponent⟩ : ∃ e, e = fscale a - fscale b - 110 := ⟨_, rfl⟩
  obtain ⟨n, dividend⟩ : ∃ n, n = fmant a * 2 ^ 110 := ⟨_, rfl⟩
  have scale : (0 : ℝ) < 2 ^ e := by positivity
  have value : fabs a / fabs b = (n : ℝ) / fmant b * 2 ^ e := by
    have split : fscale a = e + fscale b + 110 := by omega
    rw [fabs, fabs, split, zpow_add₀ (by norm_num), zpow_add₀ (by norm_num), dividend]
    push_cast
    field_simp
    norm_cast
  have large (nonzeroDividend : fmant a ≠ 0) : 2 ^ 57 ≤ n / fmant b := by
    rw [Nat.le_div_iff_mul_le pos, dividend]
    have := Nat.pos_of_ne_zero nonzeroDividend
    omega
  obtain ⟨low, high, sticky⟩ := div_real_bounds (n := n) pos
  rw [← exponent, ← dividend, value]
  refine round_roundsTo_of_zero sg (fun zero => ?_) (mul_le_mul_of_nonneg_right low scale.le)
    (mul_lt_mul_of_pos_right high scale) ?_ fun inexact => ?_
  · have zeroDividend : fmant a = 0 := by
      by_contra nonzeroDividend
      have := large nonzeroDividend
      omega
    simp [dividend, zeroDividend]
  · rw [decide_eq_true_eq, sticky, mul_lt_mul_iff_left₀ scale]
  · rw [decide_eq_true_eq] at inexact
    have nonzeroDividend : fmant a ≠ 0 := by
      rintro zero
      simp [dividend, zero] at inexact
    have quotient := large nonzeroDividend
    exact (Nat.le_log2 (by omega)).mpr (le_trans (by norm_num) quotient)

theorem signs_div (p q : Bool) (x y : ℝ) :
    (if p then -x else x) / (if q then -y else y) = if p != q then -(x / y) else x / y := by
  cases p <;> cases q <;> simp [neg_div, div_neg]

theorem isQuotient_fdiv (a b : F64) : IsQuotient a b (fdiv a b) where
  nan nan := by rw [fdiv_of_nan nan]; exact isNaN_canonicalNaN
  rounded left right nonzero := by
    rw [fdiv_of_finite left right (mt (frat_eq_zero_iff b).mpr nonzero), frat_eq_signed, frat_eq_signed, signs_div]
    exact round_quotient _ (mt (frat_eq_zero_iff b).mpr nonzero)
  byZero left nonzero right zero := by
    rw [fdiv_zero left right zero, if_neg nonzero]
    exact isInf_finf _
  infLeft left right := by
    rw [fdiv_inf_finite left right]
    exact isInf_finf _
  infRight left right := by
    rw [fdiv_finite_inf left right]
    exact frat_zero _
  invalid cases' := by
    obtain ⟨left, right⟩ | ⟨left, zeroLeft, right, zeroRight⟩ := cases'
    · rw [fdiv_inf_inf left right]
      exact isNaN_canonicalNaN
    · rw [fdiv_zero left right zeroRight, if_pos zeroLeft]
      exact isNaN_canonicalNaN
  sign number := by
    obtain nan | left | left := class_cases a
    · rw [fdiv_of_nan (.inl nan), isNaN_canonicalNaN] at number
      cases number
    · obtain nan | right | right := class_cases b
      · rw [fdiv_of_nan (.inr nan), isNaN_canonicalNaN] at number
        cases number
      · rw [fdiv_inf_inf left right, isNaN_canonicalNaN] at number
        cases number
      · rw [fdiv_inf_finite left right, fsign_finf]
    · obtain nan | right | right := class_cases b
      · rw [fdiv_of_nan (.inr nan), isNaN_canonicalNaN] at number
        cases number
      · rw [fdiv_finite_inf left right]
        exact fsign_fpack _ (by norm_num)
      · by_cases zero : frat b = 0
        · rw [fdiv_zero left right zero] at number ⊢
          split at number
          case isTrue => rw [isNaN_canonicalNaN] at number; cases number
          case isFalse nonzero => rw [if_neg nonzero, fsign_finf]
        · rw [fdiv_of_finite left right (mt (frat_eq_zero_iff b).mpr zero)]
          exact fsign_fpack_round _ _ _ _

/-! ## Roots -/

/-- A finite value that is not negative is a zero or has a clear sign bit. -/
theorem fsign_of_pos {a : F64} (pos : 0 < frat a) : fsign a = false := by
  rw [← Bool.not_eq_true, ← frat_neg_iff pos.ne']
  exact not_lt.mpr pos.le

/-- The radicand brought to an even exponent, with 120 further bits. -/
def radicand (a : F64) : Nat := (if fscale a % 2 = 1 then 2 * fmant a else fmant a) * 2 ^ 120

/-- Half of that even exponent. -/
def rootScale (a : F64) : Int := (if fscale a % 2 = 1 then fscale a - 1 else fscale a) / 2

theorem fsqrt_zero {a : F64} (finite : isFinite a = true) (zero : frat a = 0) : fsqrt a = a := by
  simp [fsqrt, finite_flags finite, finite, (frat_eq_zero_iff a).mp zero]

theorem fsqrt_of_pos {a : F64} (finite : isFinite a = true) (pos : 0 < frat a) :
    fsqrt a =
      fpack false (binary64.round (isqrt 96 (radicand a)) (rootScale a - 60)
        (decide (isqrt 96 (radicand a) * isqrt 96 (radicand a) ≠ radicand a))) := by
  have nonzero : fmant a ≠ 0 := mt (frat_eq_zero_iff a).mpr pos.ne'
  simp [fsqrt, finite_flags finite, finite, nonzero, fsign_of_pos pos, radicand, rootScale]

theorem radicand_bounds {a : F64} (nonzero : fmant a ≠ 0) : 2 ^ 120 ≤ radicand a ∧ radicand a < 4 ^ 96 := by
  have small := fmant_lt a
  have pos := Nat.pos_of_ne_zero nonzero
  unfold radicand
  split <;> omega

/-- The root of the value is the root of the radicand at half the exponent. -/
theorem sqrt_frat {a : F64} (pos : 0 < frat a) :
    Real.sqrt (frat a) = Real.sqrt (radicand a) * 2 ^ (rootScale a - 60) := by
  have scale : (0 : ℝ) ≤ 2 ^ (rootScale a - 60) := by positivity
  have further : (2 : ℝ) ^ (120 : Int) = 2 ^ 120 := zpow_natCast 2 120
  have value : (frat a : ℝ) = radicand a * (2 ^ (rootScale a - 60) * 2 ^ (rootScale a - 60)) := by
    rw [frat_eq_signed, fsign_of_pos pos, if_neg (by decide), ← zpow_add₀ (by norm_num), fabs, radicand, rootScale]
    by_cases odd : fscale a % 2 = 1
    · have exponent : fscale a = (fscale a - 1) / 2 - 60 + ((fscale a - 1) / 2 - 60) + 120 + 1 := by omega
      rw [if_pos odd, if_pos odd]
      conv_lhs => rw [exponent, zpow_add₀ (by norm_num), zpow_add₀ (by norm_num), further, zpow_one]
      push_cast
      ring
    · have exponent : fscale a = fscale a / 2 - 60 + (fscale a / 2 - 60) + 120 := by omega
      rw [if_neg odd, if_neg odd]
      conv_lhs => rw [exponent, zpow_add₀ (by norm_num), further]
      push_cast
      ring
  rw [value, Real.sqrt_mul (Nat.cast_nonneg _), Real.sqrt_mul_self scale]

/-- A root of a natural lies from its integer part up, above it exactly when the square falls short. -/
theorem sqrt_real_bounds (n : Nat) :
    (Nat.sqrt n : ℝ) ≤ Real.sqrt n ∧ Real.sqrt n < Nat.sqrt n + 1 ∧
      (Nat.sqrt n * Nat.sqrt n ≠ n ↔ (Nat.sqrt n : ℝ) < Real.sqrt n) := by
  refine ⟨Real.nat_sqrt_le_real_sqrt, Real.real_sqrt_lt_nat_sqrt_succ, ?_⟩
  rw [Real.lt_sqrt (Nat.cast_nonneg _), ← Nat.cast_pow, Nat.cast_lt, pow_two]
  exact ⟨lt_of_le_of_ne (Nat.sqrt_le n), ne_of_lt⟩

/-- The root, rounded once (the integer part has 60 bits at least, the sticky bit the rest). -/
theorem round_root {a : F64} (pos : 0 < frat a) :
    roundsTo (Real.sqrt (frat a))
      (fpack false (binary64.round (isqrt 96 (radicand a)) (rootScale a - 60)
        (decide (isqrt 96 (radicand a) * isqrt 96 (radicand a) ≠ radicand a)))) := by
  obtain ⟨least, most⟩ := radicand_bounds (mt (frat_eq_zero_iff a).mpr pos.ne')
  have scale : (0 : ℝ) < 2 ^ (rootScale a - 60) := by positivity
  have root : 2 ^ 60 ≤ Nat.sqrt (radicand a) := Nat.le_sqrt.mpr (le_trans (by norm_num) least)
  obtain ⟨low, high, sticky⟩ := sqrt_real_bounds (radicand a)
  rw [isqrt_eq 96 _ most, sqrt_frat pos]
  refine round_roundsTo (v := Real.sqrt (radicand a) * 2 ^ (rootScale a - 60)) false (by omega)
    (mul_le_mul_of_nonneg_right low scale.le) (mul_lt_mul_of_pos_right high scale) ?_ fun _ => ?_
  · rw [decide_eq_true_eq, sticky, mul_lt_mul_iff_left₀ scale]
  · exact (Nat.le_log2 (by omega)).mpr (le_trans (by norm_num) root)

theorem isRoot_fsqrt (a : F64) : IsRoot a (fsqrt a) where
  nan nan := by simp [fsqrt, nan]
  rounded finite nonneg := by
    obtain zero | pos := nonneg.eq_or_lt
    · rw [fsqrt_zero finite zero.symm, ← zero, Rat.cast_zero, Real.sqrt_zero]
      exact roundsTo_zero finite zero.symm
    · rw [fsqrt_of_pos finite pos]
      exact round_root pos
  zero := fsqrt_zero
  inf inf sign := by simp [fsqrt, inf_flags inf, inf, sign]
  invalid cases' := by
    obtain ⟨finite, negative⟩ | ⟨inf, sign⟩ := cases'
    · have nonzero : fmant a ≠ 0 := mt (frat_eq_zero_iff a).mpr negative.ne
      simp [fsqrt, finite_flags finite, nonzero, (frat_neg_iff negative.ne).mp negative]
    · simp [fsqrt, inf_flags inf, sign]

/-- Settles O49: operation by operation. -/
theorem arithmeticRoundsToNearest : Obligations.ArithmeticRoundsToNearest := fun a b =>
  ⟨isSum_fadd a b, isSum_fsub a b, isProduct_fmul a b, isQuotient_fdiv a b, isRoot_fsqrt a⟩

end Sys2Proof.Machine
end
